-- ==== Sys2Proof/Word.lean ====
section
/-! DEFINITION. The byte, the one unit of both memory spaces and of the output stream (spec/20_memory.md R49). -/

namespace Sys2Proof

/-- A byte; bit 7 is the most significant (spec/00_scope.md R7). -/
abbrev Byte := BitVec 8

end Sys2Proof
end

