-- ==== Sys2Proof/Config.lean ====
section
/-! DEFINITION. The numbers the format fixes (spec/00_scope.md R3 to R6), the names of the PHASE and ERR codes
(spec/10_state.md R16, spec/60_exceptions.md R150), and what the spec leaves open. -/

namespace Sys2Proof

/-- First byte of every output (R3). -/
abbrev Config.magic : Byte := 0x10#8

/-- Largest accepted input length, the 24-bit size field (R3). -/
abbrev Config.maxIn : Nat := 0xFFFFFF

/-- Length of the header in bytes (R3). -/
abbrev Config.hdrLen : Nat := 4

/-- Largest distance (R4). -/
abbrev Config.window : Nat := 4096

/-- Largest match length (R4). -/
abbrev Config.maxLen : Nat := 18

/-- Smallest length emitted as a back-reference (R4, R97). -/
abbrev Config.minMatch : Nat := 3

/-- MIN_DIST(mode) (R5): a candidate's distance is at least one more. -/
def Config.minDist (mode : BitVec 1) : Nat := mode.toNat

/-- REQ_CAP(N), the output capacity requested (R6; 90_conflicts.md C2). -/
abbrev Config.reqCap (n : Nat) : Nat := 2 * n + 5

/-- The default of the parameter LEN_W, the width of IN_LEN (R11; 92_eei_decisions.md D3). -/
abbrev Config.lenWDefault : Nat := 32

/-- The four host-visible registers (R26 to R29), for their addresses. -/
inductive Config.HostReg where
  | cmd | inLen | status | outLen
  deriving DecidableEq, Repr

/-- REG_OFFSETS (R11): OPEN in the spec, so no body; no rule reads it. DESIGN CHOICE, safe (log 18). -/
opaque Config.regOffset : Config.HostReg → Nat

/-- What a host read of OUT gives where the spec says any value (93_implementation_defined.md U1, U2, U4): a free
value, a fresh one for each draw, so no body. DESIGN CHOICE, safe (log 12). -/
opaque Config.freeByte : Nat → Byte

/-! PHASE codes (spec/10_state.md R16). -/

abbrev Phase.idle : BitVec 4 := 0#4
abbrev Phase.check : BitVec 4 := 1#4
abbrev Phase.alloc : BitVec 4 := 2#4
abbrev Phase.header : BitVec 4 := 3#4
abbrev Phase.loop : BitVec 4 := 4#4
abbrev Phase.openGroup : BitVec 4 := 5#4
abbrev Phase.search : BitVec 4 := 6#4
abbrev Phase.emit : BitVec 4 := 7#4
abbrev Phase.advance : BitVec 4 := 8#4
abbrev Phase.finish : BitVec 4 := 9#4
abbrev Phase.done : BitVec 4 := 10#4
abbrev Phase.error : BitVec 4 := 11#4

/-! ERR codes (spec/60_exceptions.md R150); 3 is reserved. -/

abbrev Err.none : BitVec 2 := 0#2
abbrev Err.oversizedInput : BitVec 2 := 1#2
abbrev Err.allocationFailure : BitVec 2 := 2#2
abbrev Err.reserved : BitVec 2 := 3#2

end Sys2Proof
end

