-- ==== Sys2Proof/Syntax.lean ====
section
/-! DEFINITION. The instruction syntax: one constructor for each row of spec/opcode_table.json. -/

namespace Sys2Proof

/-- The rows of the opcode table: the four stream elements the consumer executes, the two host commands and the
engine's ten micro-operations. Lengths, distances and sizes are the numbers of the listing syntax
(spec/30_encoding.md R71), not the encoded fields. -/
inductive Instr where
  /-- `HDR <size>` (R58). -/
  | hdr (size : Nat)
  /-- `CTRL <flags>` (R59). -/
  | ctrl (flags : Byte)
  /-- `LIT <byte>` (R62). -/
  | lit (value : Byte)
  /-- `REF <length>, <distance>` (R63). -/
  | ref (length distance : Nat)
  /-- START with mode 0 (R70). -/
  | startM0
  /-- START with mode 1 (R70). -/
  | startM1
  /-- PHASE 1 (R117). -/
  | check
  /-- PHASE 2 (R118). -/
  | alloc
  /-- PHASE 3 (R119). -/
  | header
  /-- PHASE 4 (R95). -/
  | loop
  /-- OPEN, PHASE 5 (R96). -/
  | openGroup
  /-- PHASE 6 (R89). -/
  | search
  /-- PHASE 7 with BEST_LEN < 3 (R98). -/
  | emitLit
  /-- PHASE 7 with BEST_LEN >= 3 (R99). -/
  | emitRef
  /-- PHASE 8 (R100). -/
  | advance
  /-- PHASE 9 (R120). -/
  | finish
  deriving DecidableEq, Repr

end Sys2Proof
end

