-- ==== Sys2Proof/WellFormed.lean ====
section
/-! DEFINITION. Which instruction terms the encodings can hold (spec/30_encoding.md R58, R63, R64). -/

namespace Sys2Proof

/-- An instruction whose operands fit their encoded fields: a 24-bit size (R58), a length from 3 to 18 and a distance
from 1 to 4096 (R63). Every other operand is a byte, and every byte is valid (R59, R62). -/
def Instr.wellFormed : Instr → Bool
  | .hdr size => decide (size ≤ Config.maxIn)
  | .ctrl _ => true
  | .lit _ => true
  | .ref length distance =>
    decide (Config.minMatch ≤ length) && decide (length ≤ Config.maxLen) &&
      decide (1 ≤ distance) && decide (distance ≤ Config.window)
  | .startM0 => true
  | .startM1 => true
  | .check => true
  | .alloc => true
  | .header => true
  | .loop => true
  | .openGroup => true
  | .search => true
  | .emitLit => true
  | .emitRef => true
  | .advance => true
  | .finish => true

/-- `i.wellFormed` as a proposition. -/
abbrev Instr.WellFormed (i : Instr) : Prop := i.wellFormed = true

end Sys2Proof
end

