-- ==== Sys2Proof/Decode.lean ====
section
/-! DEFINITION. Decoding and encoding (spec/30_encoding.md). What comes next is never decided by an element's own bits:
position, a flag bit, a CMD write or PHASE decides (R56, R66, R68), so the decoder takes a Selector beside the bytes. -/

namespace Sys2Proof

/-- What decides how the next bytes are read: the opcode table's `selector`, the CMD register, or PHASE with the EMIT
dispatch condition BEST_LEN >= 3 (R56, R66, R68, R97). -/
inductive Selector where
  | header
  | control
  | token (isRef : Bool)
  | command
  | phase (longMatch : Bool)
  deriving DecidableEq, Repr

/-- Why no instruction is read. -/
inductive DecodeError where
  /-- The stream is shorter than a header, or its first byte is not 0x10 (R136). -/
  | badMagic
  /-- The bytes end inside the element (R136). -/
  | truncated
  /-- A CMD value with bit 0 = 0 is no command (R69). -/
  | noCommand
  /-- IDLE, DONE and ERROR select no micro-operation (R68). -/
  | waits
  /-- PHASE codes 12 to 15 (R17). -/
  | reservedPhase
  /-- More than the four bits PHASE has (R16). -/
  | notAPhase
  deriving DecidableEq, Repr

/-- The 24-bit size of a header, low byte first (R58, 20_memory.md R46). -/
def sizeField (s0 s1 s2 : Byte) : Nat := s0.toNat + 256 * s1.toNat + 65536 * s2.toNat

/-- Byte `k` of a number, byte 0 the least significant: `v[8k+7:8k]` (R7). -/
def byteOf (v k : Nat) : Byte := BitVec.ofNat 8 (v >>> (8 * k))

/-- `byte0 = (L << 4) | D[11:8]` with L = length - 3 and D = distance - 1 (R65). -/
def refByte0 (length distance : Nat) : Byte :=
  ((BitVec.ofNat 4 (length - 3)).setWidth 8 <<< 4) ||| ((BitVec.ofNat 12 (distance - 1)).extractLsb' 8 4).setWidth 8

/-- `byte1 = D[7:0]` with D = distance - 1 (R65). -/
def refByte1 (distance : Nat) : Byte := (BitVec.ofNat 12 (distance - 1)).extractLsb' 0 8

/-- `length = byte0[7:4] + 3` (R64). -/
def refLength (byte0 : Byte) : Nat := (byte0.extractLsb' 4 4).toNat + 3

/-- `distance = (byte0[3:0] << 8 | byte1) + 1` (R64). -/
def refDistance (byte0 byte1 : Byte) : Nat :=
  (((byte0.extractLsb' 0 4).setWidth 12 <<< 8) ||| byte1.setWidth 12).toNat + 1

/-- HDR: 4 bytes, the first 0x10 (R58). Anything else is BadMagic, a short stream too (R136). -/
def decodeHeader : List Byte → Except DecodeError (Instr × List Byte)
  | m :: s0 :: s1 :: s2 :: rest =>
    if m = Config.magic then .ok (.hdr (sizeField s0 s1 s2), rest) else .error .badMagic
  | _ => .error .badMagic

/-- CTRL: any byte (R59). -/
def decodeControl : List Byte → Except DecodeError (Instr × List Byte)
  | c :: rest => .ok (.ctrl c, rest)
  | [] => .error .truncated

/-- LIT: any byte (R62). -/
def decodeLiteral : List Byte → Except DecodeError (Instr × List Byte)
  | b :: rest => .ok (.lit b, rest)
  | [] => .error .truncated

/-- REF: any two bytes (R63, R64, R67). -/
def decodeReference : List Byte → Except DecodeError (Instr × List Byte)
  | b0 :: b1 :: rest => .ok (.ref (refLength b0) (refDistance b0 b1), rest)
  | _ => .error .truncated

/-- A CMD write: bit 0 is START, bit 1 the mode, bits 7:2 are ignored (R69, 10_state.md R26). -/
def decodeCommand : List Byte → Except DecodeError (Instr × List Byte)
  | b :: rest =>
    if b.getLsbD 0 then
      if b.getLsbD 1 then .ok (.startM1, rest) else .ok (.startM0, rest)
    else .error .noCommand
  | [] => .error .truncated

/-- The micro-operation map (R68), EMIT split by BEST_LEN >= 3 (R97). -/
def phaseInstr (code : BitVec 4) (longMatch : Bool) : Except DecodeError Instr :=
  match code.toNat with
  | 0 => .error .waits
  | 1 => .ok .check
  | 2 => .ok .alloc
  | 3 => .ok .header
  | 4 => .ok .loop
  | 5 => .ok .openGroup
  | 6 => .ok .search
  | 7 => .ok (if longMatch then .emitRef else .emitLit)
  | 8 => .ok .advance
  | 9 => .ok .finish
  | 10 => .error .waits
  | 11 => .error .waits
  | _ => .error .reservedPhase

/-- PHASE as one byte whose high four bits are 0 (R68). -/
def decodePhase (longMatch : Bool) : List Byte → Except DecodeError (Instr × List Byte)
  | b :: rest =>
    if b.toNat < 16 then
      match phaseInstr (b.setWidth 4) longMatch with
      | .ok i => .ok (i, rest)
      | .error e => .error e
    else .error .notAPhase
  | [] => .error .truncated

/-- The instruction at the head of the bytes and the bytes after it. -/
def decode : Selector → List Byte → Except DecodeError (Instr × List Byte)
  | .header, bs => decodeHeader bs
  | .control, bs => decodeControl bs
  | .token false, bs => decodeLiteral bs
  | .token true, bs => decodeReference bs
  | .command, bs => decodeCommand bs
  | .phase longMatch, bs => decodePhase longMatch bs

/-- The context in which an instruction's bytes mean it. CHECK and the other micro-operations but EMIT_REF are read
with BEST_LEN < 3 here; only EMIT's two depend on it (R68). -/
def Instr.selector : Instr → Selector
  | .hdr _ => .header
  | .ctrl _ => .control
  | .lit _ => .token false
  | .ref _ _ => .token true
  | .startM0 => .command
  | .startM1 => .command
  | .check => .phase false
  | .alloc => .phase false
  | .header => .phase false
  | .loop => .phase false
  | .openGroup => .phase false
  | .search => .phase false
  | .emitLit => .phase false
  | .emitRef => .phase true
  | .advance => .phase false
  | .finish => .phase false

/-- The bytes of an instruction in stream order (R56): the canonical CMD value for a command (R69), the PHASE code for
a micro-operation (R68). -/
def encode : Instr → List Byte
  | .hdr size => [Config.magic, byteOf size 0, byteOf size 1, byteOf size 2]
  | .ctrl flags => [flags]
  | .lit value => [value]
  | .ref length distance => [refByte0 length distance, refByte1 distance]
  | .startM0 => [0x01#8]
  | .startM1 => [0x03#8]
  | .check => [0x01#8]
  | .alloc => [0x02#8]
  | .header => [0x03#8]
  | .loop => [0x04#8]
  | .openGroup => [0x05#8]
  | .search => [0x06#8]
  | .emitLit => [0x07#8]
  | .emitRef => [0x07#8]
  | .advance => [0x08#8]
  | .finish => [0x09#8]

/-- How many bytes an instruction's encoding has (R66; PHASE is held in one byte here). -/
def Instr.byteLength : Instr → Nat
  | .hdr _ => 4
  | .ctrl _ => 1
  | .lit _ => 1
  | .ref _ _ => 2
  | .startM0 => 1
  | .startM1 => 1
  | .check => 1
  | .alloc => 1
  | .header => 1
  | .loop => 1
  | .openGroup => 1
  | .search => 1
  | .emitLit => 1
  | .emitRef => 1
  | .advance => 1
  | .finish => 1

/-- The bytes of a word of spec/opcode_table.json, which reads an element's bytes as one big-endian number (R56). -/
def tableBytes (nbits w : Nat) : List Byte :=
  match nbits with
  | 4 => [byteOf (w % 16) 0]
  | 8 => [byteOf w 0]
  | 16 => [byteOf w 1, byteOf w 0]
  | 32 => [byteOf w 3, byteOf w 2, byteOf w 1, byteOf w 0]
  | _ => []

/-- The context in which a bare word of the opcode table is read. The table's rows overlap, since position, flag, CMD
or PHASE tells them apart and not their bits (R56), so an order is needed: a byte that is a micro-operation's PHASE
code is one; else one whose START bit is set is a command; else a byte is a control byte. DESIGN CHOICE, safe (log 15):
the machine's own step never uses this, it knows its context. -/
def tableSelector (nbits w : Nat) : Option Selector :=
  match nbits with
  | 4 => some (.phase false)
  | 8 =>
    if 1 ≤ w % 256 ∧ w % 256 ≤ 9 then some (.phase false)
    else if w % 2 = 1 then some .command
    else some .control
  | 16 => some (.token true)
  | 32 => some .header
  | _ => none

/-- The instruction the decoder reads from a word of spec/opcode_table.json, numbered as the table numbers it. -/
def decodeTableWord (nbits w : Nat) : Option Instr :=
  match tableSelector nbits w with
  | none => none
  | some sel =>
    match decode sel (tableBytes nbits w) with
    | .ok (i, _) => some i
    | .error _ => none

end Sys2Proof
end

