-- ==== Sys2Proof/Machine/State.lean ====
section
/-! DEFINITION. The state of the machine as plain data, its faults and refusals, and the state after reset. -/

namespace Sys2Proof.Machine

/-- A byte space as (address, byte) cells, addresses strictly rising (`Mem.wf` in Machine/Ops.lean). An address that is
not listed holds no value (spec/20_memory.md R42; for IN: log 3), so no listed cell is superfluous. -/
abbrev Mem := List Host.Cell

/-- The registers that hold no value after reset (spec/10_state.md R34), for the fault that names one. -/
inductive Reg where
  | cursor | grp | ctrlIdx | bestLen | bestDist | mode | n
  deriving DecidableEq, Repr

/-- The agents (R15, R135): who can move. -/
inductive Agent where
  | engine | host | consumer
  deriving DecidableEq, Repr

/-- The host's answer to the capacity request (R11, R118, U9): `granted extra` is Granted(REQ_CAP(N) + extra), so a
granted capacity is never below the one requested (D5). -/
inductive AllocAnswer where
  | granted (extra : Nat)
  | refused
  deriving DecidableEq, Repr

/-- One move from outside the engine. The two rows of the opcode table among them are the CMD writes with bit 0 = 1;
the others are the rest of the host interface (R26 to R29, R52, R71, R170, R172). -/
inductive HostMove where
  /-- `WR CMD, b` (R26). -/
  | wrCmd (b : Byte)
  /-- `WR IN_LEN, v` (R27). -/
  | wrInLen (v : Nat)
  /-- `WR STATUS, b`: ignored (R28, U15). -/
  | wrStatus (b : Byte)
  /-- `WR OUT_LEN, v`: ignored (R29, U15). -/
  | wrOutLen (v : BitVec 32)
  /-- `RD CMD`: a model fault (R158, U14). -/
  | rdCmd
  /-- `RD IN_LEN` (R27). -/
  | rdInLen
  /-- `RD STATUS` (R28). -/
  | rdStatus
  /-- `RD OUT_LEN` (R29). -/
  | rdOutLen
  /-- `POLL STATUS.STATE != BUSY` (R71). -/
  | poll
  /-- The host makes IN hold byte `b` at index `i` (R172). -/
  | wrIn (i : Nat) (b : Byte)
  /-- The host writes byte `b` to OUT at index `j` (R55, R175). -/
  | wrOut (j : Nat) (b : Byte)
  /-- The host reads OUT at index `j` (R44, R52, U1, U2, U4). -/
  | rdOut (j : Nat)
  /-- The host settles how it answers capacity requests from now on (R172, U9). -/
  | answer (a : AllocAnswer)
  /-- The reset input (R170, R171). -/
  | reset
  /-- A byte sequence is given to the consumer, decoder target `mode` (R135, R136). -/
  | feed (bytes : List Byte) (mode : BitVec 1)
  /-- The result OUT[0 .. OUT_LEN-1] is given to the consumer, decoder target `mode` (R135, R177). -/
  | feedResult (mode : BitVec 1)
  deriving DecidableEq, Repr

/-- What one host read returned. -/
inductive Reading where
  | status (b : Byte)
  | outLen (v : BitVec 32)
  | inLen (v : Nat)
  | out (j : Nat) (b : Byte)
  deriving DecidableEq, Repr

/-- Where the consumer stands in the stream (R57, R66): position decides between header, control byte and token. -/
inductive ConsumerStage where
  /-- No stream was given to it. -/
  | idle
  | header
  | control
  | token
  /-- It has produced `size` bytes and stopped (R138). -/
  | done
  deriving DecidableEq, Repr

/-- The reference decoder's variables (spec/43_decoder_contract.md R136). -/
structure Consumer where
  /-- `s`, the stream. -/
  stream : List Byte
  /-- `mode`, the decoder target (R135). -/
  mode : BitVec 1
  /-- `i`, the bytes consumed. -/
  pos : Nat
  /-- What the next element is. -/
  stage : ConsumerStage
  /-- `size`, from the header. -/
  size : Nat
  /-- `c`, the current control byte. -/
  ctrl : Byte
  /-- `k`, the next token's place in its group. -/
  k : BitVec 3
  /-- `o`, the bytes decoded so far. -/
  out : List Byte
  deriving DecidableEq, Repr

/-- A consumer to which no stream was given (DESIGN CHOICE, log 7: the spec gives it no reset). -/
def Consumer.empty : Consumer :=
  { stream := [], mode := 0#1, pos := 0, stage := .idle, size := 0, ctrl := 0#8, k := 0#3, out := [] }

/-- The whole state. A register is an Option exactly where the spec gives it the state "holds no value" (R34, R170:
"A model must represent this state, for example as `Option`"). The fields from `alloc` on are the model's own
places for what the spec gives the host, the consumer and the order of their moves. -/
structure State where
  /-- PHASE (R16). -/
  phase : BitVec 4
  /-- CURSOR (R18). -/
  cursor : Option (BitVec 24)
  /-- GRP (R19). -/
  grp : Option (BitVec 3)
  /-- CTRL_IDX (R20). -/
  ctrlIdx : Option (BitVec 32)
  /-- OUT_LEN (R21). -/
  outLen : BitVec 32
  /-- BEST_LEN (R22). -/
  bestLen : Option (BitVec 5)
  /-- BEST_DIST (R22). -/
  bestDist : Option (BitVec 13)
  /-- MODE (R23). -/
  mode : Option (BitVec 1)
  /-- N (R24, a natural: log 2). -/
  n : Option Nat
  /-- ERR (R25). -/
  err : BitVec 2
  /-- IN_LEN (R27): a number below `2 ^ lenW`. -/
  inLen : Option Nat
  /-- The parameter LEN_W, the width of IN_LEN (R11); no step changes it (log 2). -/
  lenW : Nat
  /-- The input space IN (R40). -/
  inMem : Mem
  /-- The output space OUT (R42). -/
  outMem : Mem
  /-- The granted capacity of OUT; none where no space was ever granted (R42, R118). -/
  outCap : Option Nat
  /-- The host's answer to the next capacity request (R11, R118; log 4). -/
  alloc : AllocAnswer
  /-- The moves from outside still to come, first one first (log 5). -/
  moves : List HostMove
  /-- What the host has read, oldest first (log 5). -/
  readings : List Reading
  /-- Whose turns come next; empty: the default order of `State.mover` (log 6). -/
  sched : List Agent
  /-- The consumer (R135; log 7). -/
  consumer : Consumer
  /-- How many free values were drawn; no statement rests on it (log 12). -/
  draws : Nat
  deriving DecidableEq, Repr

/-- Why the model stops. None of these is an error of the block: none sets ERR or shows in STATUS (R158). -/
inductive Fault where
  /-- START while IN_LEN holds no value (R158, R173, U13). Raised by START.M0 and START.M1. Safe. -/
  | startNoLength
  /-- Host read of IN_LEN before its first write (R158, U3). Raised by RD IN_LEN. Safe. -/
  | inLenNoValue
  /-- Host read of CMD (R158, U14). Raised by RD CMD. Safe. -/
  | cmdRead
  /-- PHASE holds a code from 12 to 15 (R17, R158, U6). Raised by every step, START and RD STATUS. Safe. -/
  | reservedPhase
  /-- ERR holds 3 (R158, U8). Raised by every step and RD STATUS. Safe. -/
  | reservedErr
  /-- An index into IN at or beyond N (R41, R158, U18). Raised by SEARCH and EMIT_LIT. Safe. -/
  | inOutOfRange
  /-- The engine reads a register that holds no value (R34, U3). Raised by the micro-operations. Safe. -/
  | noValue (r : Reg)
  /-- The engine reads an IN byte the host never supplied (R172; log 3). Raised by SEARCH and EMIT_LIT. Safe. -/
  | inNoValue
  /-- An OUT byte that holds no value is read as part of a result or a control byte (R42, U2). Raised by EMIT_REF, a host
  read of the result and handing over the result. Safe. -/
  | outNoValue
  /-- An OUT index at or beyond the granted capacity, or no space granted (R43; log 10). Raised by HEADER, OPEN, EMIT_LIT,
  EMIT_REF and the host's accesses to OUT. Safe. -/
  | outOutOfCapacity
  /-- A value does not fit the register or field that takes it (R8; log 9). Raised by OPEN, SEARCH, EMIT_LIT, EMIT_REF
  and WR IN_LEN. Safe. -/
  | doesNotFit
  /-- The decoder's BadMagic (R136, R139). Raised by the consumer. Safe. -/
  | badMagic
  /-- The decoder's Truncated (R136, R139). Raised by the consumer. Safe. -/
  | truncated
  /-- The decoder's BadDistance (R136, R139, U12). Raised by REF. Safe. -/
  | badDistance
  /-- The decoder's Overrun (R67, R136, R139). Raised by REF and LIT. Safe. -/
  | overrun
  deriving DecidableEq, Repr

/-- What the model gives no meaning. -/
inductive Refusal where
  /-- An instruction without a meaning yet. Raised by no arm of exec. Safe. -/
  | notModelled (mnemonic : String)
  /-- A host move the spec leaves no meaning: writing IN or OUT during BUSY, taking a result before DONE (U5, R174, R175;
  log 13). Raised by the host's moves alone. Safe. -/
  | hostBreaksDuty
  deriving DecidableEq, Repr

/-- The machine right after reset with nothing placed around it. The registers are as R170's table has them, `none` where
it has "no value" (R34). The values of `alloc` and of the fields after
it are DESIGN CHOICES (log 4 to 7, 12). -/
def State.reset : State :=
  { phase := Phase.idle, cursor := none, grp := none, ctrlIdx := none, outLen := 0#32, bestLen := none, bestDist := none,
    mode := none, n := none, err := Err.none, inLen := none,
    lenW := Config.lenWDefault, inMem := [], outMem := [], outCap := none,
    alloc := .granted 0, moves := [], readings := [], sched := [], consumer := Consumer.empty, draws := 0 }

/-- What fetching gives: an instruction to run in a state, or an outcome in which no instruction runs. -/
inductive Fetched where
  | run (i : Instr) (s : State)
  | settled (o : Host.Outcome State Fault Refusal)

end Sys2Proof.Machine
end

