-- ==== Sys2Proof/Machine/Flags.lean ====
section
/-! DEFINITION. The control bits of the output stream, the block's only flags (spec/10_state.md R31,
spec/30_encoding.md R60), and the fields of STATUS (R28). -/

namespace Sys2Proof.Machine

/-- `0x80 >> g`: the mask of the token emitted when GRP = g (R60). -/
def flagMask (g : Nat) : Byte := 0x80#8 >>> g

/-- A control byte with token `g`'s bit set (R99). -/
def setFlag (c : Byte) (g : Nat) : Byte := c ||| flagMask g

/-- Bit `7 - k` of a control byte: token `k` is a back-reference (R60). -/
def flagOf (c : Byte) (k : Nat) : Bool := c.getLsbD (7 - k)

/-- PHASE in CHECK..FINISH (R16, R28). -/
def State.busy (s : State) : Bool := decide (1 ≤ s.phase.toNat) && decide (s.phase.toNat ≤ 9)

/-- PHASE in IDLE, DONE, ERROR: the engine waits (R115, R164). -/
def State.waiting (s : State) : Bool := s.phase == Phase.idle || s.phase == Phase.done || s.phase == Phase.error

/-- STATUS.STATE (R16, R28); a reserved PHASE has none. -/
def State.stateField (s : State) : Except Fault (BitVec 2) :=
  if s.phase = Phase.idle then .ok 0#2
  else if s.busy then .ok 1#2
  else if s.phase = Phase.done then .ok 2#2
  else if s.phase = Phase.error then .ok 3#2
  else .error .reservedPhase

/-- STATUS = STATE in bits 1:0, ERR in bits 3:2, zeros above (R28); of two reserved codes PHASE's is named (log 21). -/
def State.statusByte (s : State) : Except Fault Byte := do
  let st ← s.stateField
  if s.err = Err.reserved then .error .reservedErr
  else .ok (st.setWidth 8 ||| (s.err.setWidth 8 <<< 2))

end Sys2Proof.Machine
end

