-- ==== Sys2Proof/Machine/Ops.lean ====
section
/-! DEFINITION. The named operations over memory and registers, error entry (spec/60_exceptions.md R153), and reset
(spec/70_reset_and_hazards.md R170). -/

namespace Sys2Proof.Machine

/-- An operation's result as a step's outcome. -/
def ofExcept : Except Fault State → Host.Outcome State Fault Refusal
  | .ok s => .next s
  | .error f => .fault f

/-! ## Byte spaces -/

/-- What an address that is not listed reads as: no value (R42; for IN log 3). -/
def Mem.unlisted : Option Byte := none

/-- The byte at an address, if it holds a value. -/
def Mem.read : Mem → Nat → Option Byte
  | [], _ => Mem.unlisted
  | (b, v) :: m, a => if b = a then some v else Mem.read m a

/-- The space with one byte written, addresses kept rising. -/
def Mem.write : Mem → Nat → Byte → Mem
  | [], a, v => [(a, v)]
  | (b, w) :: m, a, v =>
    if b < a then (b, w) :: Mem.write m a v
    else if b = a then (a, v) :: m
    else (a, v) :: (b, w) :: m

/-- Writes in the order listed. -/
def Mem.writeAll (m : Mem) : List (Nat × Byte) → Mem
  | [] => m
  | (a, v) :: ws => Mem.writeAll (Mem.write m a v) ws

/-- Every address is at least `lo` and they rise strictly. -/
def Mem.risesFrom (lo : Nat) : Mem → Bool
  | [] => true
  | (a, _) :: m => decide (lo ≤ a) && Mem.risesFrom (a + 1) m

/-- The canonical form: addresses strictly rising. Every listed cell differs from an unlisted one, which holds no
value. -/
def Mem.wf (m : Mem) : Bool := Mem.risesFrom 0 m

/-- The `k` bytes from address `a` on, if all hold a value. -/
def Mem.slice (m : Mem) (a : Nat) : Nat → Option (List Byte)
  | 0 => some []
  | k + 1 =>
    match Mem.read m a, Mem.slice m (a + 1) k with
    | some b, some bs => some (b :: bs)
    | _, _ => none

/-- `MemRead(IN, i, 1)` for an input of `n` bytes (R9, R40, R41). -/
def inRead (m : Mem) (n i : Nat) : Except Fault Byte :=
  if i < n then
    match Mem.read m i with
    | some b => .ok b
    | none => .error .inNoValue
  else .error .inOutOfRange

/-- The input space as the byte array of R40: all `n` bytes, which the host has to supply before START (R172; log 3). -/
def inBytes (m : Mem) (n : Nat) : Except Fault (List Byte) :=
  match Mem.slice m 0 n with
  | some bs => .ok bs
  | none => .error .inNoValue

/-- `OutRead(j)` (R9). -/
def outRead (s : State) (j : Nat) : Except Fault Byte :=
  match Mem.read s.outMem j with
  | some b => .ok b
  | none => .error .outNoValue

/-- Every index is below the granted capacity (R43). -/
def inCapacity (cap : Option Nat) (ws : List (Nat × Byte)) : Bool :=
  match cap with
  | some c => ws.all fun w => decide (w.1 < c)
  | none => ws.isEmpty

/-- The OutWrites of one micro-operation (R9, R10): all of them land, or none does and the step faults (R43). -/
def outWrites (s : State) (ws : List (Nat × Byte)) : Except Fault Mem :=
  if inCapacity s.outCap ws then .ok (Mem.writeAll s.outMem ws) else .error .outOutOfCapacity

/-- The result OUT[0 .. OUT_LEN-1] (R44, R121). -/
def resultBytes (s : State) : Except Fault (List Byte) :=
  match Mem.slice s.outMem 0 s.outLen.toNat with
  | some bs => .ok bs
  | none => .error .outNoValue

/-! ## Registers -/

/-- The value of a register, or the fault of R34 where it holds none. -/
def need {α : Type} (r : Reg) : Option α → Except Fault α
  | some v => .ok v
  | none => .error (.noValue r)

/-- A number as the content of a register `w` bits wide, which it has to fit (R8; log 9). -/
def fit (w v : Nat) : Except Fault (BitVec w) :=
  if v < 2 ^ w then .ok (BitVec.ofNat w v) else .error .doesNotFit

/-! ## Errors, START and reset -/

/-- `raise E()` (R153): ERR and PHASE change and nothing else; nothing is saved and no handler runs. There is no return
from it: only START and reset leave ERROR (R156). -/
def raiseError (code : BitVec 2) (s : State) : State := { s with err := code, phase := Phase.error }

/-- START (R115, R116). Ignored while BUSY, so IN_LEN is not read there (log 16). It writes the five registers R115 names
and keeps what an earlier run left in the others (R35; log 24). -/
def startRun (mode : BitVec 1) (s : State) : Except Fault State :=
  if s.busy then .ok s
  else if s.waiting then
    match s.inLen with
    | some len => .ok { s with n := some len, mode := some mode, err := Err.none, outLen := 0#32, phase := Phase.check }
    | none => .error .startNoLength
  else .error .reservedPhase

/-- The reset input's effect on the block (R170, R171): IN and OUT keep their bytes. What is outside the block, the host
and the consumer, is not reset (log 14). -/
def resetBlock (s : State) : State :=
  { s with phase := Phase.idle, err := Err.none, outLen := 0#32, cursor := none, grp := none, ctrlIdx := none,
           bestLen := none, bestDist := none, mode := none, n := none, inLen := none }

end Sys2Proof.Machine
end

