-- ==== Sys2Proof/Machine/Operands.lean ====
section
/-! DEFINITION. Operand forms: the header's writes (spec/42_container.md R119), the back-reference EMIT_REF forms from
BEST_LEN and BEST_DIST (spec/30_encoding.md R65), and the copy a back-reference stands for (R137). -/

namespace Sys2Proof.Machine

/-- HEADER's four writes (R119, R58): the magic and the size, low byte first. -/
def headerWrites (n : Nat) : List (Nat × Byte) :=
  [(0, Config.magic), (1, byteOf n 0), (2, byteOf n 1), (3, byteOf n 2)]

/-- The two bytes of a back-reference (R63, R65). A length or distance the fields cannot hold faults (R8; log 9). -/
def refBytes (length distance : Nat) : Except Fault (Byte × Byte) :=
  if (Instr.ref length distance).wellFormed then .ok (refByte0 length distance, refByte1 distance)
  else .error .doesNotFit

/-- EMIT_REF's writes in order: byte0, byte1, the control byte with the token's bit set (R99). -/
def refWrites (outLen ctrlIdx grp : Nat) (b0 b1 old : Byte) : List (Nat × Byte) :=
  [(outLen, b0), (outLen + 1, b1), (ctrlIdx, setFlag old grp)]

/-- `repeat k times: o.append(o[|o| - d])` (R136, R137). A distance no byte stands at appends nothing; REF faults
before it comes to that. -/
def copyBack (d : Nat) : Nat → List Byte → List Byte
  | 0, o => o
  | k + 1, o => copyBack d k (o ++ (o[o.length - d]?).toList)

/-- The distance check of R136: past the bytes decoded so far, or 1 for the 16-bit target. Distance 0 is none the
encoding can hold (R63; log 20). -/
def badDistance (mode : BitVec 1) (decoded distance : Nat) : Bool :=
  decide (distance = 0) || decide (decoded < distance) || (decide (mode = 1#1) && decide (distance = 1))

end Sys2Proof.Machine
end

