-- ==== Sys2Proof/Machine/Agents.lean ====
section
/-! DEFINITION. Who moves, and what each agent's move is: the engine's micro-operation (spec/30_encoding.md R68), the host's
next move (spec/10_state.md R26 to R29, spec/20_memory.md R52 to R55), the consumer's next element
(spec/43_decoder_contract.md R136). -/

namespace Sys2Proof.Machine

/-- Who moves next: the first entry of `sched`; with none, the engine while BUSY, else the host while it has moves, else
the consumer (log 6). -/
def State.mover (s : State) : Agent :=
  match s.sched with
  | a :: _ => a
  | [] => if s.busy then .engine else if s.moves.isEmpty then .consumer else .host

/-- The state with one turn taken from `sched`. -/
def State.popTurn (s : State) : State := { s with sched := s.sched.tail }

/-- The state with the host's first move taken. -/
def State.popMove (s : State) : State := { s with moves := s.moves.tail }

/-- The state with one more host reading. -/
def State.record (r : Reading) (s : State) : State := { s with readings := s.readings ++ [r] }

/-- A step in which no instruction runs and the machine goes on. -/
def goOn (s : State) : Fetched := .settled (.next s)

/-- A step that stops the model. -/
def stop (f : Fault) : Fetched := .settled (.fault f)

/-! ## The engine -/

/-- The EMIT dispatch condition BEST_LEN >= 3 (R97); only EMIT reads BEST_LEN (R34, R35). -/
def longMatch (s : State) : Except Fault Bool :=
  if s.phase = Phase.emit then do
    let len ← need .bestLen s.bestLen
    .ok (decide (Config.minMatch ≤ len.toNat))
  else .ok false

/-- The engine's turn: the micro-operation PHASE selects, or waiting (R68, R164; log 8). -/
def engineFetch (s : State) : Fetched :=
  match longMatch s with
  | .error f => stop f
  | .ok long =>
    match decode (.phase long) [s.phase.setWidth 8] with
    | .ok (i, _) => .run i s
    | .error .waits => goOn s
    | .error _ => stop .reservedPhase

/-! ## The host -/

/-- A write to CMD (R26, R69): START, or no command and no effect. -/
def commandWrite (b : Byte) (s : State) : Fetched :=
  match decode .command [b] with
  | .ok (i, _) => .run i s
  | .error _ => goOn s

/-- A read of STATUS (R28). -/
def statusRead (s : State) : Fetched :=
  match s.statusByte with
  | .ok b => goOn (s.record (.status b))
  | .error f => stop f

/-- A write to IN_LEN, which takes the values of LEN_W bits (R8, R11, R27; log 9). -/
def inLenWrite (v : Nat) (s : State) : Fetched :=
  if v < 2 ^ s.lenW then goOn { s with inLen := some v } else stop .doesNotFit

/-- A read of IN_LEN (R27, R158). -/
def inLenRead (s : State) : Fetched :=
  match s.inLen with
  | some v => goOn (s.record (.inLen v))
  | none => stop .inLenNoValue

/-- One turn of POLL STATUS.STATE != BUSY (R71): a read of STATUS, after which the same move stays while BUSY
(log 19). -/
def pollTurn (s : State) : Fetched := statusRead (if s.busy then s else s.popMove)

/-- A host write to IN: free outside a run, refused during BUSY (R54, R174, U5). -/
def inWrite (i : Nat) (b : Byte) (s : State) : Fetched :=
  if s.busy then .settled (.refused .hostBreaksDuty) else goOn { s with inMem := Mem.write s.inMem i b }

/-- Index `j` lies in the granted space (R42). -/
def outExists (s : State) (j : Nat) : Bool :=
  match s.outCap with
  | some c => decide (j < c)
  | none => false

/-- A host write to OUT: free outside a run, refused during BUSY (R55, R175, U5). -/
def hostOutWrite (j : Nat) (b : Byte) (s : State) : Fetched :=
  if s.busy then .settled (.refused .hostBreaksDuty)
  else if outExists s j then goOn { s with outMem := Mem.write s.outMem j b }
  else stop .outOutOfCapacity

/-- A host read of OUT (R44, R52): a byte of the result at DONE, else any value, drawn afresh (U1, U2, U4; log 12). -/
def hostOutRead (j : Nat) (s : State) : Fetched :=
  if outExists s j then
    if s.phase = Phase.done ∧ j < s.outLen.toNat then
      match outRead s j with
      | .ok b => goOn (s.record (.out j b))
      | .error f => stop f
    else goOn { s.record (.out j (Config.freeByte s.draws)) with draws := s.draws + 1 }
  else stop .outOutOfCapacity

/-- The consumer before a stream (R136). -/
def Consumer.fed (bytes : List Byte) (mode : BitVec 1) : Consumer :=
  { Consumer.empty with stream := bytes, mode := mode, stage := .header }

/-- The result goes to the consumer; there is none before DONE (R175, R177, U5). -/
def resultFeed (mode : BitVec 1) (s : State) : Fetched :=
  if s.phase = Phase.done then
    match resultBytes s with
    | .ok bytes => goOn { s with consumer := Consumer.fed bytes mode }
    | .error f => stop f
  else .settled (.refused .hostBreaksDuty)

/-- A host move's effect, in the state with the move still first on the list. R172 asks for the host's four duties in one
order and gives a run begun otherwise no meaning; that the moves have their effect in any order is the model's choice
(log 25). -/
def hostMove (m : HostMove) (s : State) : Fetched :=
  match m with
  | .wrCmd b => commandWrite b s.popMove
  | .wrInLen v => inLenWrite v s.popMove
  | .wrStatus _ => goOn s.popMove
  | .wrOutLen _ => goOn s.popMove
  | .rdCmd => stop .cmdRead
  | .rdInLen => inLenRead s.popMove
  | .rdStatus => statusRead s.popMove
  | .rdOutLen => goOn (s.popMove.record (.outLen s.outLen))
  | .poll => pollTurn s
  | .wrIn i b => inWrite i b s.popMove
  | .wrOut j b => hostOutWrite j b s.popMove
  | .rdOut j => hostOutRead j s.popMove
  | .answer a => goOn { s.popMove with alloc := a }
  | .reset => goOn (resetBlock s.popMove)
  | .feed bytes mode => goOn { s.popMove with consumer := Consumer.fed bytes mode }
  | .feedResult mode => resultFeed mode s.popMove

/-- The host's turn: its first move, or nothing. -/
def hostFetch (s : State) : Fetched :=
  match s.moves with
  | m :: _ => hostMove m s
  | [] => goOn s

/-! ## The consumer -/

/-- What the consumer reads next (R66, R136). -/
def Consumer.selector (c : Consumer) : Option Selector :=
  match c.stage with
  | .idle => none
  | .header => some .header
  | .control => some .control
  | .token => some (.token (flagOf c.ctrl c.k.toNat))
  | .done => none

/-- The consumer's turn: the element its position and flag select, or nothing (R136). -/
def consumerFetch (s : State) : Fetched :=
  match s.consumer.selector with
  | none => goOn s
  | some sel =>
    match decode sel (s.consumer.stream.drop s.consumer.pos) with
    | .ok (i, _) => .run i s
    | .error .badMagic => stop .badMagic
    | .error _ => stop .truncated

/-- One turn: a PHASE or ERR code that has left the machine stops it (R17, R158), else the mover moves. Where both have,
R158 gives no order, and naming PHASE's fault is the model's choice (log 21). -/
def fetch (s : State) : Fetched :=
  if 12 ≤ s.phase.toNat then stop .reservedPhase
  else if s.err = Err.reserved then stop .reservedErr
  else
    match s.mover with
    | .engine => engineFetch s.popTurn
    | .host => hostFetch s.popTurn
    | .consumer => consumerFetch s.popTurn

/-! ## Placing one instruction (log 15) -/

/-- The engine at a PHASE code, its turn next. Where a register the micro-operation reads holds no value, it gets the one
an early step of a one-byte run has; the host's part of such a run (the input byte, the granted space) is there too. -/
def placePhase (code : BitVec 4) (s : State) : State :=
  { s with
    phase := code, sched := .engine :: s.sched, n := s.n.or (some 1), mode := s.mode.or (some 0#1),
    cursor := s.cursor.or (some 0#24), grp := s.grp.or (some 0#3), ctrlIdx := s.ctrlIdx.or (some 0#32),
    bestLen := some 0#5, bestDist := s.bestDist.or (some 0#13),
    outCap := s.outCap.or (some (Config.reqCap (s.n.getD 1))),
    inMem := if s.n.isNone && (Mem.read s.inMem 0).isNone then Mem.write s.inMem 0 0x00#8 else s.inMem }

/-- The host about to write `b` to CMD, its turn next, IN_LEN written (R172). -/
def placeCommand (b : Byte) (s : State) : State :=
  { s with moves := .wrCmd b :: s.moves, sched := .host :: s.sched, inLen := s.inLen.or (some 0) }

/-- The consumer before an element of a stream, its turn next. For a control byte or a token the header was read; for a
token its flag is set as the token needs it, and for a REF the bytes it copies from were decoded. -/
def placeElement (sel : Selector) (bytes : List Byte) (s : State) : State :=
  let c := { s.consumer with stream := s.consumer.stream.take s.consumer.pos ++ bytes,
                             pos := (s.consumer.stream.take s.consumer.pos).length }
  let c' : Consumer :=
    match sel with
    | .token isRef =>
      { c with stage := .token, size := Config.maxIn, ctrl := if isRef then 0xFF#8 else 0x00#8, mode := 0#1,
               out := if isRef then List.replicate (refDistance (bytes.headD 0#8) (bytes.getD 1 0#8)) 0x00#8 else c.out }
    | .control => { c with stage := .control, size := Config.maxIn }
    | _ => { c with stage := .header }
  { s with consumer := c', sched := .consumer :: s.sched }

/-- The state with a word of the opcode table placed where the next step takes its instruction from. -/
def placeWord (s : State) (nbits w : Nat) : State :=
  match tableSelector nbits w with
  | none => s
  | some (.phase _) => placePhase (BitVec.ofNat 4 w) s
  | some .command => placeCommand ((tableBytes nbits w).headD 0#8) s
  | some sel => placeElement sel (tableBytes nbits w) s

end Sys2Proof.Machine
end

