-- ==== Sys2Proof/Machine/Container.lean ====
section
/-! DEFINITION. The container serializer: START, CHECK, ALLOC, HEADER, FINISH (spec/42_container.md). -/

namespace Sys2Proof.Machine

/-- START with mode 0 (R70, R115, R116). -/
def execStartM0 (s : State) : Host.Outcome State Fault Refusal := ofExcept (startRun 0#1 s)

/-- START with mode 1 (R70, R115, R116). -/
def execStartM1 (s : State) : Host.Outcome State Fault Refusal := ofExcept (startRun 1#1 s)

/-- CHECK (R117, R151). -/
def execCheck (s : State) : Host.Outcome State Fault Refusal := ofExcept do
  let n ← need .n s.n
  if Config.maxIn < n then .ok (raiseError Err.oversizedInput s) else .ok { s with phase := Phase.alloc }

/-- ALLOC (R118, R152): the host's answer is in the state (log 4); a granted OUT is fresh. -/
def execAlloc (s : State) : Host.Outcome State Fault Refusal := ofExcept do
  let n ← need .n s.n
  match s.alloc with
  | .refused => .ok (raiseError Err.allocationFailure s)
  | .granted extra =>
    .ok { s with outMem := [], outCap := some (Config.reqCap n + extra), phase := Phase.header }

/-- HEADER (R119). -/
def execHeader (s : State) : Host.Outcome State Fault Refusal := ofExcept do
  let n ← need .n s.n
  let mem ← outWrites s (headerWrites n)
  .ok { s with outMem := mem, outLen := 4#32, cursor := some 0#24, grp := some 0#3, phase := Phase.loop }

/-- FINISH (R120): the trim moves no data. -/
def execFinish (s : State) : Host.Outcome State Fault Refusal := ofExcept (.ok { s with phase := Phase.done })

end Sys2Proof.Machine
end

