-- ==== Sys2Proof/Machine/Finder.lean ====
section
/-! DEFINITION. The match finder and SEARCH (spec/40_match_finder.md). -/

namespace Sys2Proof.Machine

/-- `ml(p)` (R83): how many of at most `k` bytes from `p` on equal those from `c` on, both in the input. -/
def matchLen (xs : List Byte) (p c : Nat) : Nat → Nat
  | 0 => 0
  | k + 1 => if xs[p]? = xs[c]? then matchLen xs (p + 1) (c + 1) k + 1 else 0

/-- The scan of R87 over `k` candidates from `p` on, farthest first (R84): a strictly longer match replaces the best
(R85), and a match of `maxlen` ends the scan (R86). -/
def scanFrom (xs : List Byte) (cur maxlen : Nat) : Nat → Nat → Nat × Nat → Nat × Nat
  | 0, _, best => best
  | k + 1, p, best =>
    if best.1 < matchLen xs p cur maxlen then
      if matchLen xs p cur maxlen = maxlen then (maxlen, cur - p)
      else scanFrom xs cur maxlen k (p + 1) (matchLen xs p cur maxlen, cur - p)
    else scanFrom xs cur maxlen k (p + 1) best

/-- `wlen` (R81). -/
def windowLen (cur : Nat) : Nat := min cur Config.window

/-- `maxlen` (R82). -/
def maxMatch (n cur : Nat) : Nat := min (n - cur) Config.maxLen

/-- `MatchFind(IN, N, cur, md)` (R80, R87) with IN and N as one list: (length, distance), no length floor (C4). -/
def matchFind (xs : List Byte) (cur md : Nat) : Nat × Nat :=
  scanFrom xs cur (maxMatch xs.length cur) (windowLen cur - md) (cur - windowLen cur) (0, 0)

/-- SEARCH (R89). Needs CURSOR < N (R80; log 11) and every input byte supplied (R172; log 3). -/
def execSearch (s : State) : Host.Outcome State Fault Refusal := ofExcept do
  let n ← need .n s.n
  let cur ← need .cursor s.cursor
  let mode ← need .mode s.mode
  if cur.toNat < n then
    let xs ← inBytes s.inMem n
    let best := matchFind xs cur.toNat (Config.minDist mode)
    let len ← fit 5 best.1
    let dist ← fit 13 best.2
    .ok { s with bestLen := some len, bestDist := some dist, phase := Phase.emit }
  else .error .inOutOfRange

end Sys2Proof.Machine
end

