-- ==== Sys2Proof/Machine/Encoder.lean ====
section
/-! DEFINITION. The token encoder: LOOP, OPEN, EMIT_LIT, EMIT_REF, ADVANCE (spec/41_token_encoder.md). Each is one atomic
step: reads see the state before it (spec/00_scope.md R10). -/

namespace Sys2Proof.Machine

/-- LOOP (R95). -/
def execLoop (s : State) : Host.Outcome State Fault Refusal := ofExcept do
  let cur ← need .cursor s.cursor
  let n ← need .n s.n
  if cur.toNat = n then .ok { s with phase := Phase.finish }
  else
    let g ← need .grp s.grp
    if g = 0#3 then .ok { s with phase := Phase.openGroup } else .ok { s with phase := Phase.search }

/-- OPEN (R96). -/
def execOpenGroup (s : State) : Host.Outcome State Fault Refusal := ofExcept do
  let mem ← outWrites s [(s.outLen.toNat, 0x00#8)]
  let len ← fit 32 (s.outLen.toNat + 1)
  .ok { s with ctrlIdx := some s.outLen, outMem := mem, outLen := len, phase := Phase.search }

/-- EMIT_LIT (R98): the control bit stays as OPEN wrote it. -/
def execEmitLit (s : State) : Host.Outcome State Fault Refusal := ofExcept do
  let cur ← need .cursor s.cursor
  let n ← need .n s.n
  let b ← inRead s.inMem n cur.toNat
  let mem ← outWrites s [(s.outLen.toNat, b)]
  let len ← fit 32 (s.outLen.toNat + 1)
  let cur' ← fit 24 (cur.toNat + 1)
  .ok { s with outMem := mem, outLen := len, cursor := some cur', phase := Phase.advance }

/-- EMIT_REF (R99): two token bytes (90_conflicts.md C1) and one control bit. -/
def execEmitRef (s : State) : Host.Outcome State Fault Refusal := ofExcept do
  let len ← need .bestLen s.bestLen
  let dist ← need .bestDist s.bestDist
  let g ← need .grp s.grp
  let ci ← need .ctrlIdx s.ctrlIdx
  let cur ← need .cursor s.cursor
  let bytes ← refBytes len.toNat dist.toNat
  let old ← outRead s ci.toNat
  let mem ← outWrites s (refWrites s.outLen.toNat ci.toNat g.toNat bytes.1 bytes.2 old)
  let outLen ← fit 32 (s.outLen.toNat + 2)
  let cur' ← fit 24 (cur.toNat + len.toNat)
  .ok { s with outMem := mem, outLen := outLen, cursor := some cur', phase := Phase.advance }

/-- ADVANCE (R100): three bits count modulo 8. -/
def execAdvance (s : State) : Host.Outcome State Fault Refusal := ofExcept do
  let g ← need .grp s.grp
  .ok { s with grp := some (g + 1#3), phase := Phase.loop }

end Sys2Proof.Machine
end

