-- ==== Sys2Proof/Machine/Reader.lean ====
section
/-! DEFINITION. The stream elements as the consumer executes them: HDR, CTRL, LIT, REF of the reference decoder
(spec/43_decoder_contract.md R136 to R139). -/

namespace Sys2Proof.Machine

/-- What follows a token (R136, R138): the end at `size` bytes, the next group after the 8th token, else the next
token. -/
def Consumer.nextToken (c : Consumer) : Consumer :=
  { c with k := c.k + 1#3,
           stage := if c.out.length = c.size then .done else if c.k = 7#3 then .control else .token }

/-- HDR (R136): takes the size and starts the decoded bytes; a size of 0 is already reached. -/
def execHdr (size : Nat) (s : State) : Host.Outcome State Fault Refusal := ofExcept (
  .ok { s with consumer :=
    { s.consumer with size := size, out := [], pos := s.consumer.pos + 4,
                      stage := if size = 0 then .done else .control } })

/-- CTRL (R136): the flags of a new group. -/
def execCtrl (flags : Byte) (s : State) : Host.Outcome State Fault Refusal := ofExcept (
  .ok { s with consumer :=
    { s.consumer with ctrl := flags, k := 0#3, pos := s.consumer.pos + 1, stage := .token } })

/-- LIT (R136): appends the byte; one past `size` is an Overrun (R67). -/
def execLit (value : Byte) (s : State) : Host.Outcome State Fault Refusal := ofExcept (
  if s.consumer.out.length + 1 ≤ s.consumer.size then
    .ok { s with consumer :=
      Consumer.nextToken { s.consumer with out := s.consumer.out ++ [value], pos := s.consumer.pos + 1 } }
  else .error .overrun)

/-- REF (R136, R137): the distance check, then the length check, then the copy byte by byte. -/
def execRef (length distance : Nat) (s : State) : Host.Outcome State Fault Refusal := ofExcept (
  if badDistance s.consumer.mode s.consumer.out.length distance then .error .badDistance
  else if s.consumer.size < s.consumer.out.length + length then .error .overrun
  else
    .ok { s with consumer :=
      Consumer.nextToken { s.consumer with out := copyBack distance length s.consumer.out, pos := s.consumer.pos + 2 } })

end Sys2Proof.Machine
end

