-- ==== Sys2Proof/Machine/Dispatch.lean ====
section
/-! DEFINITION. exec: one arm for each constructor of Instr. -/

namespace Sys2Proof.Machine

def exec (i : Instr) (s : State) : Host.Outcome State Fault Refusal :=
  match i with
  | .hdr size => Sys2Proof.Machine.execHdr size s
  | .ctrl flags => Sys2Proof.Machine.execCtrl flags s
  | .lit value => Sys2Proof.Machine.execLit value s
  | .ref length distance => Sys2Proof.Machine.execRef length distance s
  | .startM0 => Sys2Proof.Machine.execStartM0 s
  | .startM1 => Sys2Proof.Machine.execStartM1 s
  | .check => Sys2Proof.Machine.execCheck s
  | .alloc => Sys2Proof.Machine.execAlloc s
  | .header => Sys2Proof.Machine.execHeader s
  | .loop => Sys2Proof.Machine.execLoop s
  | .openGroup => Sys2Proof.Machine.execOpenGroup s
  | .search => Sys2Proof.Machine.execSearch s
  | .emitLit => Sys2Proof.Machine.execEmitLit s
  | .emitRef => Sys2Proof.Machine.execEmitRef s
  | .advance => Sys2Proof.Machine.execAdvance s
  | .finish => Sys2Proof.Machine.execFinish s

end Sys2Proof.Machine
end

