-- ==== Sys2Proof/Machine/Step.lean ====
section
/-! DEFINITION. One step: the agent whose turn it is moves, and an instruction it selects runs. -/

namespace Sys2Proof.Machine

/-- One step of the machine (spec/10_state.md R15, spec/00_scope.md R10). -/
def step (s : State) : Host.Outcome State Fault Refusal :=
  match fetch s with
  | .run i t => exec i t
  | .settled o => o

/-- The state with a word of the opcode table placed where the next step takes its instruction from (log 15). -/
def State.withFetchWord (s : State) (nbits w : Nat) : State := placeWord s nbits w

end Sys2Proof.Machine
end

