-- ==== Sys2Proof/Machine/Contract.lean ====
section
/-! DEFINITION. The whole run as one function, Compress (spec/42_container.md R123), and the reference decoder, Decode
(spec/43_decoder_contract.md R136): the terms in which the block's output is judged. The machine's step uses neither. -/

namespace Sys2Proof.Machine

/-- What a run ends with (R123, D22). -/
inductive RunResult where
  | ok (out : List Byte)
  | error (code : BitVec 2)
  deriving DecidableEq, Repr

/-- The loop of R123, at most `fuel` tokens; `md` is MIN_DIST(mode). -/
def compressLoop (xs : List Byte) (md : Nat) : Nat → (cur grp ci : Nat) → List Byte → List Byte
  | 0, _, _, _, out => out
  | fuel + 1, cur, grp, ci, out =>
    if cur < xs.length then
      let ci' := if grp = 0 then out.length else ci
      let out' := if grp = 0 then out ++ [0x00#8] else out
      let m := matchFind xs cur md
      if m.1 < Config.minMatch then
        compressLoop xs md fuel (cur + 1) ((grp + 1) % 8) ci' (out' ++ (xs[cur]?).toList)
      else
        compressLoop xs md fuel (cur + m.1) ((grp + 1) % 8) ci'
          ((out' ++ [refByte0 m.1 m.2, refByte1 m.2]).modify ci' fun c => setFlag c grp)
    else out

/-- The stream of an input that fits and a granted buffer: header, then tokens; at most one token a byte (R102). -/
def compressBytes (xs : List Byte) (mode : BitVec 1) : List Byte :=
  compressLoop xs (Config.minDist mode) xs.length 0 0 0
    [Config.magic, byteOf xs.length 0, byteOf xs.length 1, byteOf xs.length 2]

/-- `Compress(IN, N, mode, ans)` (R123). -/
def compress (xs : List Byte) (mode : BitVec 1) (ans : AllocAnswer) : RunResult :=
  if Config.maxIn < xs.length then .error Err.oversizedInput
  else
    match ans with
    | .refused => .error Err.allocationFailure
    | .granted _ => .ok (compressBytes xs mode)

/-! ## The run as a list of tokens (R57, R72, R103) -/

/-- The greedy parse (R103): each token with the cursor it was emitted at, at most `fuel` of them. -/
def parseFrom (xs : List Byte) (md : Nat) : (fuel cur : Nat) → List (Nat × Instr)
  | 0, _ => []
  | fuel + 1, cur =>
    if cur < xs.length then
      let m := matchFind xs cur md
      if m.1 < Config.minMatch then
        ((xs[cur]?).toList.map fun b => (cur, Instr.lit b)) ++ parseFrom xs md fuel (cur + 1)
      else (cur, Instr.ref m.1 m.2) :: parseFrom xs md fuel (cur + m.1)
    else []

/-- The tokens of a run, each with its cursor. -/
def parse (xs : List Byte) (mode : BitVec 1) : List (Nat × Instr) :=
  parseFrom xs (Config.minDist mode) xs.length 0

/-- A token is a back-reference. -/
def isRef (i : Instr) : Bool :=
  match i with
  | .ref _ _ => true
  | _ => false

/-- The control byte of tokens, the first one in place `k` of its group: `OR over j of (0x80 >> j)` for every REF
(R72). -/
def groupControl (k : Nat) : List Instr → Byte
  | [] => 0x00#8
  | t :: ts => (if isRef t then flagMask k else 0x00#8) ||| groupControl (k + 1) ts

/-- `GROUP { ... }` (R72): the control byte, then the tokens. -/
def groupBytes (ts : List Instr) : List Byte := encode (.ctrl (groupControl 0 ts)) ++ ts.flatMap encode

/-- The groups of a token list: 8 tokens each but the last, at most `fuel` of them (R57). -/
def groupsBytes : Nat → List Instr → List Byte
  | 0, _ => []
  | fuel + 1, ts => if ts.isEmpty then [] else groupBytes (ts.take 8) ++ groupsBytes fuel (ts.drop 8)

/-- The stream of an input size and its tokens: `HDR group*` (R57). -/
def streamBytes (size : Nat) (ts : List Instr) : List Byte := encode (.hdr size) ++ groupsBytes ts.length ts

/-! ## The reference decoder (R136) -/

/-- The tokens of one group (R136): `todo` of the eight are left, the next is token `k`, the stream is read at `i`. -/
def decodeTokens (st : List Byte) (mode : BitVec 1) (size : Nat) (c : Byte) :
    (todo k i : Nat) → List Byte → Except Fault (List Byte × Nat)
  | 0, _, i, o => .ok (o, i)
  | todo + 1, k, i, o =>
    if o.length = size then .ok (o, i)
    else if flagOf c k then
      match st[i]?, st[i + 1]? with
      | some b0, some b1 =>
        if badDistance mode o.length (refDistance b0 b1) then .error .badDistance
        else if size < o.length + refLength b0 then .error .overrun
        else decodeTokens st mode size c todo (k + 1) (i + 2) (copyBack (refDistance b0 b1) (refLength b0) o)
      | _, _ => .error .truncated
    else
      match st[i]? with
      | some b => decodeTokens st mode size c todo (k + 1) (i + 1) (o ++ [b])
      | none => .error .truncated

/-- The groups (R136): at most `fuel` of them, each giving at least one byte. -/
def decodeGroups (st : List Byte) (mode : BitVec 1) (size : Nat) :
    (fuel i : Nat) → List Byte → Except Fault (List Byte × Nat)
  | 0, i, o => .ok (o, i)
  | fuel + 1, i, o =>
    if o.length < size then
      match st[i]? with
      | none => .error .truncated
      | some c =>
        match decodeTokens st mode size c 8 0 (i + 1) o with
        | .ok (o', i') => decodeGroups st mode size fuel i' o'
        | .error f => .error f
    else .ok (o, i)

/-- `Decode(s, mode)` (R136): the decoded bytes and how many stream bytes were consumed. -/
def decodeStream (st : List Byte) (mode : BitVec 1) : Except Fault (List Byte × Nat) :=
  match st with
  | m :: s0 :: s1 :: s2 :: _ =>
    if m = Config.magic then decodeGroups st mode (sizeField s0 s1 s2) (sizeField s0 s1 s2) 4 []
    else .error .badMagic
  | _ => .error .badMagic

end Sys2Proof.Machine
end

