-- ==== Sys2Proof/Safety.lean ====
section
/-! DEFINITION. What counts as a safe state, in the terms the statements use: the bounds of spec/10_state.md R33 and what
holds in each PHASE, as one invariant of the step. -/

namespace Sys2Proof.Machine

/-- CURSOR as a number; read only where it holds a value. -/
def State.cursorVal (s : State) : Nat := (s.cursor.getD 0#24).toNat

/-- N as a number; read only where it holds a value. -/
def State.nVal (s : State) : Nat := s.n.getD 0

/-- GRP as a number; read only where it holds a value. -/
def State.grpVal (s : State) : Nat := (s.grp.getD 0#3).toNat

/-- CTRL_IDX as a number; read only where it holds a value. -/
def State.ctrlVal (s : State) : Nat := (s.ctrlIdx.getD 0#32).toNat

/-- BEST_LEN as a number; read only where it holds a value. -/
def State.bestLenVal (s : State) : Nat := (s.bestLen.getD 0#5).toNat

/-- BEST_DIST as a number; read only where it holds a value. -/
def State.bestDistVal (s : State) : Nat := (s.bestDist.getD 0#13).toNat

/-- The arguments START latched are there (R115). -/
def Latched (s : State) : Prop := s.n.isSome ∧ s.mode.isSome

/-- A space of at least REQ_CAP(N) bytes was granted (R42, R118). -/
def Granted (s : State) : Prop := ∃ cap, s.outCap = some cap ∧ Config.reqCap s.nVal ≤ cap

/-- Every byte of OUT below OUT_LEN is written (R43). -/
def Written (s : State) : Prop := ∀ j, j < s.outLen.toNat → (Mem.read s.outMem j).isSome

/-- The current group's control byte is there (R33). -/
def GroupOpen (s : State) : Prop :=
  s.ctrlIdx.isSome ∧ Config.hdrLen ≤ s.ctrlVal ∧ s.ctrlVal < s.outLen.toNat

/-- The last SEARCH's result within the bounds that outlast its EMIT (R33, R87; log 23). -/
def BestBound (s : State) : Prop :=
  s.bestLen.isSome ∧ s.bestDist.isSome ∧ s.bestLenVal ≤ Config.maxLen ∧
    (s.bestLenVal = 0 → s.bestDistVal = 0) ∧
    (1 ≤ s.bestLenVal → ∀ m, s.mode = some m → Config.minDist m + 1 ≤ s.bestDistVal) ∧
    s.bestDistVal ≤ min s.cursorVal Config.window

/-- A match within its bounds at its EMIT, which has not moved CURSOR yet (R33, R82; log 23). -/
def MatchBound (s : State) : Prop := BestBound s ∧ s.bestLenVal ≤ s.nVal - s.cursorVal

/-- What holds from HEADER onward (R33): the run's registers hold values within their bounds, CTRL_IDX and the match
finder's result from the run's first token on. -/
def Streaming (s : State) : Prop :=
  Latched s ∧ s.nVal ≤ Config.maxIn ∧ Granted s ∧ s.cursor.isSome ∧ s.grp.isSome ∧ s.cursorVal ≤ s.nVal ∧
    Config.hdrLen ≤ s.outLen.toNat ∧ Written s ∧ (1 ≤ s.cursorVal → GroupOpen s ∧ BestBound s)

/-- OUT_LEN's bound while `used` tokens of the current group are emitted, 8 of them meaning that none is open: one byte for
each input byte and one control byte for each group begun (R33, R104). -/
def OutBound (s : State) (used : Nat) : Prop := 8 * s.outLen.toNat + used ≤ 9 * s.cursorVal + 40

/-- At LOOP: a group is open unless GRP = 0 (R95, R100). -/
def AtLoop (s : State) : Prop :=
  Streaming s ∧ ((s.grpVal = 0 ∧ OutBound s 8) ∨ (1 ≤ s.grpVal ∧ GroupOpen s ∧ OutBound s s.grpVal))

/-- At SEARCH and EMIT: input is left and a group is open (R95, R96). -/
def AtToken (s : State) : Prop :=
  Streaming s ∧ s.cursorVal < s.nVal ∧ GroupOpen s ∧ OutBound s s.grpVal

/-- The consumer is short of `size` where it reads on, and has exactly `size` bytes where it stopped (R136, R138). -/
def ConsumerInv (c : Consumer) : Prop :=
  (c.stage = .control ∨ c.stage = .token → c.out.length < c.size) ∧ (c.stage = .done → c.out.length = c.size)

/-- The invariant of the machine's step. -/
structure Inv (s : State) : Prop where
  in_wf : Mem.wf s.inMem = true
  out_wf : Mem.wf s.outMem = true
  /-- LEN_W can present an oversized length (R11). -/
  len_width : 25 ≤ s.lenW
  /-- IN_LEN fits its width (R8, R27). -/
  len_fits : ∀ v, s.inLen = some v → v < 2 ^ s.lenW
  /-- PHASE never holds a reserved code (R17). -/
  phase_legal : s.phase.toNat < 12
  /-- ERR is 0 but in ERROR (R115, R153). -/
  err_none : s.phase ≠ Phase.error → s.err = Err.none
  /-- In ERROR a code is recorded and no output exists (R122, R150). -/
  at_error : s.phase = Phase.error →
    (s.err = Err.oversizedInput ∨ s.err = Err.allocationFailure) ∧ s.outLen = 0#32
  /-- OUT_LEN is 0 until HEADER (R115, R170). -/
  out_zero : s.phase.toNat ≤ 3 → s.outLen = 0#32
  at_check : s.phase = Phase.check → Latched s
  at_alloc : s.phase = Phase.alloc → Latched s ∧ s.nVal ≤ Config.maxIn
  at_header : s.phase = Phase.header → Latched s ∧ s.nVal ≤ Config.maxIn ∧ Granted s
  at_loop : s.phase = Phase.loop → AtLoop s
  at_open : s.phase = Phase.openGroup → Streaming s ∧ s.cursorVal < s.nVal ∧ s.grpVal = 0 ∧ OutBound s 8
  at_search : s.phase = Phase.search → AtToken s
  at_emit : s.phase = Phase.emit → AtToken s ∧ MatchBound s
  at_advance : s.phase = Phase.advance → Streaming s ∧ GroupOpen s ∧ OutBound s (s.grpVal + 1)
  /-- At FINISH and DONE the whole input is encoded (R102). -/
  at_end : s.phase = Phase.finish ∨ s.phase = Phase.done →
    Streaming s ∧ s.cursorVal = s.nVal ∧ 8 * s.outLen.toNat ≤ 9 * s.nVal + 39
  consumer : ConsumerInv s.consumer

/-- The host did its duty before START (R172): IN holds all N bytes. -/
def InputSupplied (s : State) : Prop := ∃ xs, inBytes s.inMem s.nVal = .ok xs

/-- The machine is BUSY now and after each of `k` steps, whoever moves in them: one run, not aborted, goes on. -/
def busyThrough : Nat → State → Prop
  | 0, s => s.busy = true
  | k + 1, s => s.busy = true ∧ ∃ t, step s = .next t ∧ busyThrough k t

/-- How many of the next `k` steps are the engine's (R180 counts engine steps). -/
def engineTurns : Nat → State → Nat
  | 0, _ => 0
  | k + 1, s =>
    (if s.mover = .engine then 1 else 0) +
      match step s with
      | .next t => engineTurns k t
      | _ => 0

end Sys2Proof.Machine
end

