-- ==== Sys2Proof/Certificates/Slice0/Obligations.lean ====
section
/-! DEFINITION. The statements for the provers. Each docstring names the rule of spec/ it formalises. -/

open Sys2Proof Sys2Proof.Machine

/-! ## Encoding -/

/-- spec/30_encoding.md R56 to R70, R136: decoding an encoded well-formed instruction in its context gives it back, with
whatever bytes follow. -/
def Obligations.DecodeOfEncodeIsTheInstruction : Prop :=
  ∀ (i : Instr) (rest : List Byte), i.WellFormed → decode i.selector (encode i ++ rest) = .ok (i, rest)

/-- R58 to R64: what is decoded is well formed, and outside CMD, whose bits 7:2 are ignored, it was read from exactly the
bytes that encode it: no two byte sequences mean one instruction. -/
def Obligations.DecodedInstructionReencodesToItsBytes : Prop :=
  ∀ (sel : Selector) (bs : List Byte) (i : Instr) (rest : List Byte), decode sel bs = .ok (i, rest) →
    i.WellFormed ∧ (sel ≠ .command → encode i ++ rest = bs)

/-- R69: a CMD value with bit 0 = 0 is no command, bit 1 is the mode, bits 7:2 are ignored. -/
def Obligations.CommandByteUsesOnlyItsTwoLowBits : Prop :=
  (∀ (b : Byte) (rest : List Byte),
    (b.getLsbD 0 = false → decode .command (b :: rest) = .error .noCommand) ∧
    (b.getLsbD 0 = true → b.getLsbD 1 = false → decode .command (b :: rest) = .ok (.startM0, rest)) ∧
    (b.getLsbD 0 = true → b.getLsbD 1 = true → decode .command (b :: rest) = .ok (.startM1, rest))) ∧
  decode .command [0x01#8] = .ok (.startM0, []) ∧ decode .command [0x03#8] = .ok (.startM1, []) ∧
  decode .command [0xFD#8] = .ok (.startM0, [])

/-- R63, 90_conflicts.md C1: a back-reference is two bytes: length - 3 and the high four bits of distance - 1, then its low
eight bits. -/
def Obligations.ReferenceFieldsAreTheLayout : Prop :=
  ∀ (length distance : Nat), (Instr.ref length distance).WellFormed →
    ∃ b0 b1 : Byte, encode (.ref length distance) = [b0, b1] ∧
      b0.toNat = 16 * (length - 3) + (distance - 1) / 256 ∧ b1.toNat = (distance - 1) % 256

/-- Words written out from the spec's encodings (95_test_vectors.md V-S3, V-T1, V-E8; 30_encoding.md R68). -/
def Obligations.SpecWordsDecodeAsWritten : Prop :=
  decode .header [0x10#8, 0x03#8, 0x10#8, 0x00#8] = .ok (.hdr 4099, []) ∧
  decode .control [0x7F#8] = .ok (.ctrl 0x7F#8, []) ∧
  decode (.token false) [0xAA#8] = .ok (.lit 0xAA#8, []) ∧
  decode (.token true) [0x41#8, 0x00#8] = .ok (.ref 7 257, []) ∧
  decode (.token true) [0xFF#8, 0xFF#8] = .ok (.ref 18 4096, []) ∧
  decode .command [0x03#8] = .ok (.startM1, []) ∧
  decode (.phase false) [0b0111#8] = .ok (.emitLit, []) ∧
  decode (.phase true) [0b0111#8] = .ok (.emitRef, []) ∧
  decode (.phase false) [0b1001#8] = .ok (.finish, [])

/-! ## The step -/

/-- A step runs the decoded instruction: of PHASE for the engine, of the byte written to CMD for the host, of the stream at
the consumer's place for the consumer, each with the turn taken (and the host's move taken off its list). Turns, moves and the consumer as an
agent are the model's choice (log 5, 6, 7). -/
def Obligations.StepRunsTheDecodedInstruction : Prop :=
  ∀ (s : State) (i : Instr) (rest : List Byte), s.phase.toNat < 12 → s.err ≠ Err.reserved →
    (∀ long, s.mover = .engine → longMatch s = .ok long →
      decode (.phase long) [s.phase.setWidth 8] = .ok (i, rest) →
      step s = exec i { s with sched := s.sched.tail }) ∧
    (∀ b ms, s.mover = .host → s.moves = .wrCmd b :: ms → decode .command [b] = .ok (i, rest) →
      step s = exec i { s with sched := s.sched.tail, moves := ms }) ∧
    (∀ sel, s.mover = .consumer → s.consumer.selector = some sel →
      decode sel (s.consumer.stream.drop s.consumer.pos) = .ok (i, rest) →
      step s = exec i { s with sched := s.sched.tail })

/-- R17, R158: a PHASE holding a reserved code, or ERR holding 3, stops every step, whoever moves. That the
fault named is PHASE's where both are there is the model's choice (log 21). -/
def Obligations.ReservedCodesStopEveryStep : Prop :=
  ∀ s : State,
    (12 ≤ s.phase.toNat → step s = .fault .reservedPhase) ∧
    (s.phase.toNat < 12 → s.err = Err.reserved → step s = .fault .reservedErr)

/-- R68, R97: EMIT performs EMIT_LIT when BEST_LEN < 3 and EMIT_REF when BEST_LEN >= 3 (the engine's turn: log 6). -/
def Obligations.EmitDispatchesOnBestLen : Prop :=
  ∀ (s : State) (len : BitVec 5), s.phase = Phase.emit → s.err ≠ Err.reserved → s.mover = .engine →
    s.bestLen = some len →
    step s = exec (if len.toNat < 3 then .emitLit else .emitRef) { s with sched := s.sched.tail }

/-- R164: in IDLE, DONE and ERROR the engine's turn changes nothing (log 6, 8), and only START or reset leaves
them. -/
def Obligations.WaitingEndsOnlyByStartOrReset : Prop :=
  ∀ (s t : State), (s.phase = Phase.idle ∨ s.phase = Phase.done ∨ s.phase = Phase.error) → step s = .next t →
    (s.mover = .engine → t = { s with sched := s.sched.tail }) ∧
    (t.phase ≠ s.phase → s.mover = .host ∧
      ∃ ms, s.moves = .reset :: ms ∨ ∃ b : Byte, b.getLsbD 0 = true ∧ s.moves = .wrCmd b :: ms)

/-! ## Host commands and error entry -/

/-- R115, R173: START in IDLE, DONE or ERROR latches N and MODE, clears ERR and OUT_LEN and goes to CHECK; while IN_LEN holds
no value it is a model fault and starts no run. That the registers it does not write keep what an earlier run left is the
model's choice (log 24). -/
def Obligations.StartLatchesItsArguments : Prop :=
  ∀ s : State, (s.phase = Phase.idle ∨ s.phase = Phase.done ∨ s.phase = Phase.error) →
    (∀ len, s.inLen = some len →
      exec .startM0 s =
        .next { s with n := some len, mode := some 0#1, err := 0#2, outLen := 0#32, phase := Phase.check } ∧
      exec .startM1 s =
        .next { s with n := some len, mode := some 1#1, err := 0#2, outLen := 0#32, phase := Phase.check }) ∧
    (s.inLen = none → exec .startM0 s = .fault .startNoLength ∧ exec .startM1 s = .fault .startNoLength)

/-- R116: START while BUSY has no effect; where IN_LEN holds no value there, the model's choice (log 16). -/
def Obligations.StartDuringBusyHasNoEffect : Prop :=
  ∀ s : State, 1 ≤ s.phase.toNat → s.phase.toNat ≤ 9 → exec .startM0 s = .next s ∧ exec .startM1 s = .next s

/-- R117: CHECK raises OversizedInput when N > 0xFFFFFF and goes to ALLOC otherwise. -/
def Obligations.CheckTestsTheSize : Prop :=
  ∀ (s : State) (n : Nat), s.n = some n →
    (n ≤ 0xFFFFFF → exec .check s = .next { s with phase := Phase.alloc }) ∧
    (0xFFFFFF < n → exec .check s = .next { s with err := 1#2, phase := Phase.error })

/-- R118: ALLOC with a granted answer has a fresh OUT of at least 2N + 5 bytes, none holding a value; a refusal raises
AllocationFailure (the answer's place in the state: log 4). -/
def Obligations.AllocTakesTheAnswer : Prop :=
  ∀ (s : State) (n : Nat), s.n = some n →
    (∀ extra, s.alloc = .granted extra → ∃ t, exec .alloc s = .next t ∧
      t = { s with outMem := t.outMem, outCap := some (2 * n + 5 + extra), phase := Phase.header } ∧
      ∀ a, Mem.read t.outMem a = none) ∧
    (s.alloc = .refused → exec .alloc s = .next { s with err := 2#2, phase := Phase.error })

/-- R153: in the step that raises an error, ERR and PHASE change and nothing else. -/
def Obligations.ErrorEntryChangesErrAndPhaseOnly : Prop :=
  ∀ (s t : State) (i : Instr), exec i s = .next t → t.phase = Phase.error → s.phase ≠ Phase.error →
    (t.err = Err.oversizedInput ∨ t.err = Err.allocationFailure) ∧ t = { s with err := t.err, phase := Phase.error }

/-! ## The container and the token encoder -/

/-- R119: HEADER writes the magic and N low byte first, sets OUT_LEN 4, CURSOR 0, GRP 0 and goes to LOOP; all other bytes
of OUT are as before. -/
def Obligations.HeaderWritesFourBytes : Prop :=
  ∀ (s : State) (n cap : Nat), s.n = some n → s.outCap = some cap → 4 ≤ cap →
    ∃ t, exec .header s = .next t ∧
      t = { s with outMem := t.outMem, outLen := 4#32, cursor := some 0#24, grp := some 0#3, phase := Phase.loop } ∧
      Mem.read t.outMem 0 = some 0x10#8 ∧ Mem.read t.outMem 1 = some (BitVec.ofNat 8 n) ∧
      Mem.read t.outMem 2 = some (BitVec.ofNat 8 (n / 256)) ∧
      Mem.read t.outMem 3 = some (BitVec.ofNat 8 (n / 65536)) ∧
      ∀ a, 4 ≤ a → Mem.read t.outMem a = Mem.read s.outMem a

/-- R95: LOOP goes to FINISH at the end of the input, else to OPEN when GRP = 0, else to SEARCH. -/
def Obligations.LoopChoosesThePhase : Prop :=
  ∀ (s : State) (cur : BitVec 24) (n : Nat) (g : BitVec 3),
    s.cursor = some cur → s.n = some n → s.grp = some g →
    exec .loop s = .next { s with
      phase := if cur.toNat = n then Phase.finish else if g = 0#3 then Phase.openGroup else Phase.search }

/-- R96: OPEN places a zero control byte at OUT_LEN, remembers its index and goes to SEARCH. -/
def Obligations.OpenPlacesAControlByte : Prop :=
  ∀ (s : State) (cap : Nat), s.outCap = some cap → s.outLen.toNat < cap → s.outLen.toNat + 1 < 2 ^ 32 →
    ∃ t, exec .openGroup s = .next t ∧
      t = { s with ctrlIdx := some s.outLen, outMem := t.outMem, outLen := s.outLen + 1#32, phase := Phase.search } ∧
      t.outLen.toNat = s.outLen.toNat + 1 ∧
      Mem.read t.outMem s.outLen.toNat = some 0x00#8 ∧
      ∀ a, a ≠ s.outLen.toNat → Mem.read t.outMem a = Mem.read s.outMem a

/-- R89: SEARCH latches MatchFind's length and distance, untruncated, and goes to EMIT. -/
def Obligations.SearchLatchesMatchFind : Prop :=
  ∀ (s : State) (n : Nat) (cur : BitVec 24) (mode : BitVec 1) (xs : List Byte),
    s.n = some n → s.cursor = some cur → s.mode = some mode → cur.toNat < n → inBytes s.inMem n = .ok xs →
    ∃ (len : BitVec 5) (dist : BitVec 13),
      exec .search s = .next { s with bestLen := some len, bestDist := some dist, phase := Phase.emit } ∧
      (len.toNat, dist.toNat) = matchFind xs cur.toNat mode.toNat

/-- R91: two SEARCHes with equal CURSOR, MODE and input bytes below N latch equal results, whatever else differs. -/
def Obligations.SearchDependsOnlyOnItsArguments : Prop :=
  ∀ (s t s' t' : State) (n : Nat), exec .search s = .next t → exec .search s' = .next t' →
    s.n = some n → s'.n = some n → s.cursor = s'.cursor → s.mode = s'.mode →
    (∀ i, i < n → Mem.read s.inMem i = Mem.read s'.inMem i) →
    t.bestLen = t'.bestLen ∧ t.bestDist = t'.bestDist

/-- R98: EMIT_LIT copies the input byte at CURSOR to OUT_LEN and moves both on by one; no other byte changes, the control
byte among them. -/
def Obligations.EmitLitCopiesTheInputByte : Prop :=
  ∀ (s : State) (n cap : Nat) (cur : BitVec 24) (b : Byte),
    s.n = some n → s.cursor = some cur → cur.toNat < n → Mem.read s.inMem cur.toNat = some b →
    s.outCap = some cap → s.outLen.toNat < cap → s.outLen.toNat + 1 < 2 ^ 32 → cur.toNat + 1 < 2 ^ 24 →
    ∃ t, exec .emitLit s = .next t ∧
      t = { s with outMem := t.outMem, outLen := s.outLen + 1#32, cursor := some (cur + 1#24),
                   phase := Phase.advance } ∧
      Mem.read t.outMem s.outLen.toNat = some b ∧
      ∀ a, a ≠ s.outLen.toNat → Mem.read t.outMem a = Mem.read s.outMem a

/-- R99: EMIT_REF writes the two bytes of the back-reference at OUT_LEN, sets bit 7 - GRP of the control byte and no other
bit, moves OUT_LEN on by 2 and CURSOR by BEST_LEN. -/
def Obligations.EmitRefWritesTheReference : Prop :=
  ∀ (s : State) (cap : Nat) (len : BitVec 5) (dist : BitVec 13) (g : BitVec 3) (ci : BitVec 32) (cur : BitVec 24)
    (old : Byte),
    s.bestLen = some len → s.bestDist = some dist → s.grp = some g → s.ctrlIdx = some ci → s.cursor = some cur →
    3 ≤ len.toNat → len.toNat ≤ 18 → 1 ≤ dist.toNat → dist.toNat ≤ 4096 →
    Mem.read s.outMem ci.toNat = some old → ci.toNat < s.outLen.toNat →
    s.outCap = some cap → s.outLen.toNat + 1 < cap → s.outLen.toNat + 2 < 2 ^ 32 → cur.toNat + len.toNat < 2 ^ 24 →
    ∃ t, exec .emitRef s = .next t ∧
      t = { s with outMem := t.outMem, outLen := s.outLen + 2#32, cursor := some (cur + len.setWidth 24),
                   phase := Phase.advance } ∧
      Mem.read t.outMem s.outLen.toNat =
        some (BitVec.ofNat 8 (16 * (len.toNat - 3) + (dist.toNat - 1) / 256)) ∧
      Mem.read t.outMem (s.outLen.toNat + 1) = some (BitVec.ofNat 8 ((dist.toNat - 1) % 256)) ∧
      (∃ new, Mem.read t.outMem ci.toNat = some new ∧
        ∀ k, k < 8 → new.getLsbD k = (old.getLsbD k || decide (k = 7 - g.toNat))) ∧
      ∀ a, a ≠ s.outLen.toNat → a ≠ s.outLen.toNat + 1 → a ≠ ci.toNat →
        Mem.read t.outMem a = Mem.read s.outMem a

/-- R100: ADVANCE counts the token modulo 8 and goes to LOOP. -/
def Obligations.AdvanceCountsModuloEight : Prop :=
  ∀ (s : State) (g : BitVec 3), s.grp = some g →
    ∃ g' : BitVec 3, exec .advance s = .next { s with grp := some g', phase := Phase.loop } ∧
      g'.toNat = (g.toNat + 1) % 8

/-- R120: FINISH goes to DONE and moves no data. -/
def Obligations.FinishGoesToDone : Prop :=
  ∀ s : State, exec .finish s = .next { s with phase := Phase.done }

/-- R34, U3: a micro-operation faults where the first register it reads holds no value; which it reads first is the
model's choice (log 1). -/
def Obligations.RegistersWithoutValueFault : Prop :=
  ∀ s : State,
    (s.n = none → exec .check s = .fault (.noValue .n) ∧ exec .alloc s = .fault (.noValue .n) ∧
      exec .header s = .fault (.noValue .n) ∧ exec .search s = .fault (.noValue .n)) ∧
    (s.cursor = none → exec .loop s = .fault (.noValue .cursor) ∧ exec .emitLit s = .fault (.noValue .cursor)) ∧
    (s.bestLen = none → exec .emitRef s = .fault (.noValue .bestLen)) ∧
    (s.grp = none → exec .advance s = .fault (.noValue .grp))

/-! ## The match finder -/

/-- R83: a candidate's match length is the largest count of equal bytes, at most the cap. -/
def Obligations.MatchLengthIsTheLargest : Prop :=
  ∀ (xs : List Byte) (p c k : Nat),
    matchLen xs p c k ≤ k ∧
    (∀ j, j < matchLen xs p c k → xs[p + j]? = xs[c + j]?) ∧
    (matchLen xs p c k < k → xs[p + matchLen xs p c k]? ≠ xs[c + matchLen xs p c k]?)

/-- R88: MatchFind is the longest match, and of those the one with the largest distance; (0, 0) where no eligible distance
matches even one byte. -/
def Obligations.MatchFindClosedForm : Prop :=
  ∀ (xs : List Byte) (cur md : Nat), cur < xs.length →
    (∀ d, md + 1 ≤ d → d ≤ min cur 4096 →
      matchLen xs (cur - d) cur (min (xs.length - cur) 18) ≤ (matchFind xs cur md).1) ∧
    ((matchFind xs cur md).1 = 0 → (matchFind xs cur md).2 = 0) ∧
    (1 ≤ (matchFind xs cur md).1 →
      md + 1 ≤ (matchFind xs cur md).2 ∧ (matchFind xs cur md).2 ≤ min cur 4096 ∧
      matchLen xs (cur - (matchFind xs cur md).2) cur (min (xs.length - cur) 18) = (matchFind xs cur md).1 ∧
      ∀ d, md + 1 ≤ d → d ≤ min cur 4096 →
        matchLen xs (cur - d) cur (min (xs.length - cur) 18) = (matchFind xs cur md).1 →
        d ≤ (matchFind xs cur md).2)

/-! ## The consumer -/

/-- R136: HDR takes the size and starts the decoded bytes; with size 0 the consumer has stopped. -/
def Obligations.HdrStartsTheConsumer : Prop :=
  ∀ (s : State) (size : Nat), exec (.hdr size) s = .next { s with consumer := { s.consumer with
    size := size, out := [], pos := s.consumer.pos + 4, stage := if size = 0 then .done else .control } }

/-- R136: CTRL latches the flags and starts its group's first token. -/
def Obligations.CtrlStartsAGroup : Prop :=
  ∀ (s : State) (flags : Byte), exec (.ctrl flags) s = .next { s with consumer := { s.consumer with
    ctrl := flags, k := 0#3, pos := s.consumer.pos + 1, stage := .token } }

/-- R136, R138: LIT appends its byte, and the consumer goes to the next token, to the next group after the eighth token, or
stops at `size` bytes. -/
def Obligations.LitAppendsItsByte : Prop :=
  ∀ (s : State) (b : Byte), s.consumer.out.length < s.consumer.size →
    exec (.lit b) s = .next { s with consumer := { s.consumer with
      out := s.consumer.out ++ [b], pos := s.consumer.pos + 1, k := s.consumer.k + 1#3,
      stage := if s.consumer.out.length + 1 = s.consumer.size then .done
        else if s.consumer.k = 7#3 then .control else .token } }

/-- R136, R137: REF appends `length` bytes, each the byte `distance` before it, those written in this copy among them. -/
def Obligations.RefCopiesByteByByte : Prop :=
  ∀ (s : State) (length distance : Nat), 1 ≤ distance → distance ≤ s.consumer.out.length →
    (s.consumer.mode = 1#1 → distance ≠ 1) → s.consumer.out.length + length ≤ s.consumer.size →
    ∃ o, exec (.ref length distance) s = .next { s with consumer := { s.consumer with
        out := o, pos := s.consumer.pos + 2, k := s.consumer.k + 1#3,
        stage := if s.consumer.out.length + length = s.consumer.size then .done
          else if s.consumer.k = 7#3 then .control else .token } } ∧
      o.length = s.consumer.out.length + length ∧
      o.take s.consumer.out.length = s.consumer.out ∧
      ∀ k, k < length → o[s.consumer.out.length + k]? = o[s.consumer.out.length + k - distance]?

/-- R136, R139, R67: the decoder's faults: a distance past the decoded bytes, distance 1 for the 16-bit target, a copy past
`size`, a literal past `size` (log 20). -/
def Obligations.DecoderFaultsOnIllegalTokens : Prop :=
  ∀ (s : State) (length distance : Nat) (b : Byte),
    ((s.consumer.out.length < distance ∨ (s.consumer.mode = 1#1 ∧ distance = 1)) →
      exec (.ref length distance) s = .fault .badDistance) ∧
    (1 ≤ distance → distance ≤ s.consumer.out.length → (s.consumer.mode = 1#1 → distance ≠ 1) →
      s.consumer.size < s.consumer.out.length + length → exec (.ref length distance) s = .fault .overrun) ∧
    (s.consumer.size ≤ s.consumer.out.length → exec (.lit b) s = .fault .overrun)

/-- R136, R139: a stream that does not begin with a header is BadMagic, and one that ends inside a group is Truncated. -/
def Obligations.BadStreamsStopTheConsumer : Prop :=
  ∀ s : State, s.phase.toNat < 12 → s.err ≠ Err.reserved → s.mover = .consumer →
    (s.consumer.stage = .header → s.consumer.pos = 0 →
      (s.consumer.stream.length < 4 ∨ s.consumer.stream[0]? ≠ some 0x10#8) → step s = .fault .badMagic) ∧
    (s.consumer.stage = .control → s.consumer.stream.length ≤ s.consumer.pos → step s = .fault .truncated) ∧
    (s.consumer.stage = .token →
      s.consumer.stream.length <
        s.consumer.pos + (if s.consumer.ctrl.getLsbD (7 - s.consumer.k.toNat) then 2 else 1) →
      step s = .fault .truncated)

/-! ## The host interface -/

/-- R28: STATUS is STATE in bits 1:0 and ERR in bits 3:2; it reads 0x00 after reset, a host
read gives it, and a host write to it is ignored (the host's list of moves: log 5). -/
def Obligations.StatusShowsStateAndErr : Prop :=
  (∀ s : State, s.phase.toNat < 12 → s.err ≠ Err.reserved → ∃ b, s.statusByte = .ok b ∧
    b.toNat = 4 * s.err.toNat +
      (if s.phase = Phase.idle then 0 else if s.phase = Phase.done then 2 else if s.phase = Phase.error then 3 else 1)) ∧
  State.reset.statusByte = .ok 0x00#8 ∧
  (∀ (s : State) (b : Byte) (ms : List HostMove), s.phase.toNat < 12 → s.err ≠ Err.reserved → s.mover = .host →
    s.moves = .rdStatus :: ms → s.statusByte = .ok b →
    step s = .next { s with sched := s.sched.tail, moves := ms, readings := s.readings ++ [.status b] }) ∧
  (∀ (s : State) (v : Byte) (ms : List HostMove), s.phase.toNat < 12 → s.err ≠ Err.reserved → s.mover = .host →
    s.moves = .wrStatus v :: ms → step s = .next { s with sched := s.sched.tail, moves := ms })

/-- R27, R29, R158: RD OUT_LEN and RD IN_LEN give the register, a write to OUT_LEN is ignored, a read of IN_LEN without a
value and any read of CMD fault, a write to IN_LEN takes the values of LEN_W bits (log 9; the host's list of moves: log 5). -/
def Obligations.HostRegisterAccesses : Prop :=
  ∀ (s : State) (ms : List HostMove), s.phase.toNat < 12 → s.err ≠ Err.reserved → s.mover = .host →
    (s.moves = .rdOutLen :: ms →
      step s = .next { s with sched := s.sched.tail, moves := ms, readings := s.readings ++ [.outLen s.outLen] }) ∧
    (∀ v, s.moves = .wrOutLen v :: ms → step s = .next { s with sched := s.sched.tail, moves := ms }) ∧
    (∀ v, s.moves = .wrInLen v :: ms → v < 2 ^ s.lenW →
      step s = .next { s with sched := s.sched.tail, moves := ms, inLen := some v }) ∧
    (∀ v, s.moves = .wrInLen v :: ms → 2 ^ s.lenW ≤ v → step s = .fault .doesNotFit) ∧
    (∀ v, s.moves = .rdInLen :: ms → s.inLen = some v →
      step s = .next { s with sched := s.sched.tail, moves := ms, readings := s.readings ++ [.inLen v] }) ∧
    (s.moves = .rdInLen :: ms → s.inLen = none → step s = .fault .inLenNoValue) ∧
    (s.moves = .rdCmd :: ms → step s = .fault .cmdRead) ∧
    (∀ b : Byte, s.moves = .wrCmd b :: ms → b.getLsbD 0 = false →
      step s = .next { s with sched := s.sched.tail, moves := ms })

/-- R44, R52, U1, U2, U4: a host read of OUT gives the byte written at DONE below OUT_LEN, and elsewhere a free value: it
changes nothing else (log 12). -/
def Obligations.HostReadsOutOnlyAtDone : Prop :=
  ∀ (s : State) (ms : List HostMove) (j cap : Nat), s.phase.toNat < 12 → s.err ≠ Err.reserved → s.mover = .host →
    s.moves = .rdOut j :: ms → s.outCap = some cap → j < cap →
    (∀ b, s.phase = Phase.done → j < s.outLen.toNat → Mem.read s.outMem j = some b →
      step s = .next { s with sched := s.sched.tail, moves := ms, readings := s.readings ++ [.out j b] }) ∧
    (s.phase ≠ Phase.done ∨ s.outLen.toNat ≤ j →
      step s = .next { s with sched := s.sched.tail, moves := ms, draws := s.draws + 1,
                              readings := s.readings ++ [.out j (Config.freeByte s.draws)] })

/-- R54, R55, R174, R175, U5: the host has no move that writes IN or OUT during BUSY, nor one that takes a result before
DONE: asked for one, it refuses (log 13). -/
def Obligations.HostDutiesAreRefused : Prop :=
  ∀ (s : State) (ms : List HostMove) (j : Nat) (b : Byte) (mode : BitVec 1),
    s.err ≠ Err.reserved → s.mover = .host → 1 ≤ s.phase.toNat → s.phase.toNat ≤ 9 →
    (s.moves = .wrIn j b :: ms ∨ s.moves = .wrOut j b :: ms ∨ s.moves = .feedResult mode :: ms) →
    step s = .refused .hostBreaksDuty

/-- R170, R171: reset, in every phase, leaves the values of R170's table and does not touch IN and OUT, nor what is outside
the block (log 14); and a step reaches IDLE from elsewhere by reset alone. -/
def Obligations.ResetLeavesTheGivenValues : Prop :=
  (∀ (s : State) (ms : List HostMove), s.phase.toNat < 12 → s.err ≠ Err.reserved → s.mover = .host →
    s.moves = .reset :: ms →
    step s = .next { s with
      sched := s.sched.tail, moves := ms, phase := 0#4, err := 0#2, outLen := 0#32, mode := none, n := none,
      cursor := none, grp := none, ctrlIdx := none, bestLen := none, bestDist := none, inLen := none }) ∧
  (∀ s t : State, step s = .next t → t.phase = Phase.idle → s.phase ≠ Phase.idle →
    s.mover = .host ∧ ∃ ms, s.moves = .reset :: ms)

/-- R23, R24, R178: nothing but reset changes N and MODE during a run, whatever the host writes. -/
def Obligations.LatchedArgumentsStayDuringARun : Prop :=
  ∀ s t : State, 1 ≤ s.phase.toNat → s.phase.toNat ≤ 9 → step s = .next t →
    (t.n = s.n ∧ t.mode = s.mode) ∨ (s.mover = .host ∧ ∃ ms, s.moves = .reset :: ms)

/-- R177: from DONE the result and its length stay until START or reset, if the host does not write OUT itself
(outside BUSY it may: log 13). -/
def Obligations.ResultStaysUntilStart : Prop :=
  ∀ s t : State, s.phase = Phase.done → step s = .next t → t.phase = Phase.done →
    t.outLen = s.outLen ∧
    (t.outMem = s.outMem ∨ (s.mover = .host ∧ ∃ j b ms, s.moves = .wrOut j b :: ms))

/-! ## Invariants and rules of the whole machine -/

/-- The invariant holds after reset (R34, R170). -/
def Obligations.ResetMeetsTheInvariant : Prop := Inv State.reset

/-- R33, R11: every step keeps the invariant, and the parameter LEN_W (log 2). -/
def Obligations.StepKeepsTheInvariant : Prop :=
  ∀ s t : State, Inv s → step s = .next t → Inv t ∧ t.lenW = s.lenW

/-- Every step keeps both memories canonical, in every state. -/
def Obligations.StepKeepsMemoryCanonical : Prop :=
  ∀ s t : State, step s = .next t → Mem.wf s.inMem = true → Mem.wf s.outMem = true →
    Mem.wf t.inMem = true ∧ Mem.wf t.outMem = true

/-- R33: the bounds it lists hold wherever the invariant holds. The run's own CTRL_IDX and match are there from SEARCH, or
EMIT, of its first token on; before that the registers may hold what an earlier run left (log 24). R33's
`BEST_LEN <= N - CURSOR` is read as holding at EMIT, since EMIT moves CURSOR and keeps BEST_LEN: the model's choice
(log 23). -/
def Obligations.InvariantGivesTheBounds : Prop :=
  ∀ s : State, Inv s →
    (4 ≤ s.phase.toNat → s.phase.toNat ≤ 10 →
      s.cursorVal ≤ s.nVal ∧ s.nVal ≤ 0xFFFFFF ∧ 4 ≤ s.outLen.toNat ∧
      s.outLen.toNat ≤ 4 + s.cursorVal + (s.cursorVal + 7) / 8 + 1 ∧
      (1 ≤ s.cursorVal ∨ (6 ≤ s.phase.toNat ∧ s.phase.toNat ≤ 8) → s.ctrlIdx.isSome ∧ s.ctrlVal < s.outLen.toNat) ∧
      (1 ≤ s.cursorVal ∨ s.phase = Phase.emit → s.bestLen.isSome ∧ s.bestDist.isSome ∧ s.bestLenVal ≤ 18 ∧
        (s.bestLenVal = 0 → s.bestDistVal = 0) ∧
        (1 ≤ s.bestLenVal → ∀ m, s.mode = some m →
          Config.minDist m + 1 ≤ s.bestDistVal ∧ s.bestDistVal ≤ min s.cursorVal 4096))) ∧
    (s.phase = Phase.emit → s.bestLenVal ≤ min 18 (s.nVal - s.cursorVal)) ∧
    (s.phase = Phase.done → s.outLen.toNat ≤ 4 + s.nVal + (s.nVal + 7) / 8)

/-- R155, R34, R41, R43: in a state the invariant allows, with the input supplied (log 3), the engine's turn answers a
next state; without it, a missing input byte is all that stops it: no register it reads holds no value (R34). -/
def Obligations.EngineNeverFaults : Prop :=
  ∀ s : State, Inv s → s.mover = .engine →
    (InputSupplied s → ∃ t, step s = .next t) ∧
    ((∃ t, step s = .next t) ∨ step s = .fault .inNoValue)

/-- R121, R122, R28: at DONE the OUT_LEN bytes of the result are there and STATUS reads 0x02; at ERROR OUT_LEN is 0 and
STATUS shows STATE 3 with the code. -/
def Obligations.QuiescentStatesShowTheirOutcome : Prop :=
  ∀ s : State, Inv s →
    (s.phase = Phase.done → s.statusByte = .ok 0x02#8 ∧
      ∃ bytes, resultBytes s = .ok bytes ∧ bytes.length = s.outLen.toNat) ∧
    (s.phase = Phase.error → s.outLen = 0#32 ∧
      ((s.err = 1#2 ∧ s.statusByte = .ok 0x07#8) ∨ (s.err = 2#2 ∧ s.statusByte = .ok 0x0B#8)))

/-- R40: the engine's turn never writes IN, nor anything of the host's or the consumer's. -/
def Obligations.EngineOnlyReadsTheInput : Prop :=
  ∀ s t : State, s.mover = .engine → step s = .next t →
    t.inMem = s.inMem ∧ t.inLen = s.inLen ∧ t.moves = s.moves ∧ t.readings = s.readings ∧ t.consumer = s.consumer ∧
      t.alloc = s.alloc ∧ t.draws = s.draws

/-- R43: from HEADER on the engine writes OUT only below the OUT_LEN it leaves, new bytes from the OUT_LEN it found, and of
the bytes below that only the control byte at CTRL_IDX. -/
def Obligations.EngineWritesOnlyNewBytesAndTheControlByte : Prop :=
  ∀ s t : State, Inv s → s.mover = .engine → 3 ≤ s.phase.toNat → step s = .next t →
    ∀ a, Mem.read t.outMem a ≠ Mem.read s.outMem a →
      a < t.outLen.toNat ∧ (s.outLen.toNat ≤ a ∨ a = s.ctrlVal)

/-! ## The run and its output -/

/-- R123, R180: from CHECK, with the input supplied, the machine left to the engine reaches DONE in exactly
5 + 4T + ceil(T/8) steps, for T tokens, with the stream Compress gives, whatever the granted capacity and whatever else the
state holds. With turns of the host and the consumer between (the order of turns: log 6), a run that reaches DONE has had
exactly so many engine steps and gives the same stream. -/
def Obligations.RunProducesTheCompressedStream : Prop :=
  ∀ (s : State) (xs : List Byte) (mode : BitVec 1),
    s.phase = Phase.check → s.err = Err.none → s.n = some xs.length → s.mode = some mode →
    xs.length ≤ 0xFFFFFF → inBytes s.inMem xs.length = .ok xs →
    (∀ extra, s.sched = [] → s.alloc = .granted extra → ∃ t : State,
      Sys2Proof.core.run (5 + 4 * (parse xs mode).length + ((parse xs mode).length + 7) / 8) s = .next t ∧
      t.phase = Phase.done ∧ t.err = Err.none ∧ compress xs mode s.alloc = .ok (compressBytes xs mode) ∧
      resultBytes t = .ok (compressBytes xs mode)) ∧
    (∀ (k : Nat) (u t : State), busyThrough k s → Sys2Proof.core.run k s = .next u → step u = .next t →
      t.phase = Phase.done →
      engineTurns (k + 1) s = 5 + 4 * (parse xs mode).length + ((parse xs mode).length + 7) / 8 ∧
      t.err = Err.none ∧ resultBytes t = .ok (compressBytes xs mode))

/-- R154, R180: an oversized input ends in ERROR after one step, without the capacity request, whatever the answer would
be; a refused one after two (log 4, 6). -/
def Obligations.FailedRunsEndInError : Prop :=
  ∀ (s : State) (n : Nat), s.phase = Phase.check → s.err = Err.none → s.sched = [] → s.n = some n →
    (0xFFFFFF < n → Sys2Proof.core.run 1 s = .next { s with err := 1#2, phase := Phase.error }) ∧
    (n ≤ 0xFFFFFF → s.alloc = .refused →
      Sys2Proof.core.run 2 s = .next { s with err := 2#2, phase := Phase.error })

/-- R181: every run ends within 5 + 4N + ceil(N/8) engine steps, for every answer of the host. Whatever turns the host and
the consumer take between, the engine has had fewer steps than that while the run goes on, and its next one answers a next
state; with no turns set (log 6) the machine reaches DONE or ERROR within so many steps. -/
def Obligations.EveryRunEnds : Prop :=
  ∀ (s : State) (n : Nat), Inv s → s.phase = Phase.check → s.n = some n →
    (∀ k, busyThrough k s → engineTurns k s < 5 + 4 * n + (n + 7) / 8) ∧
    ((n ≤ 0xFFFFFF → InputSupplied s) →
      (∀ k t, busyThrough k s → Sys2Proof.core.run k s = .next t → t.mover = .engine → ∃ u, step t = .next u) ∧
      (s.sched = [] → ∃ k t, k ≤ 5 + 4 * n + (n + 7) / 8 ∧ Sys2Proof.core.run k s = .next t ∧
        (t.phase = Phase.done ∨ t.phase = Phase.error)))

/-- R140: decoding the block's output gives the input back and consumes every byte of it. -/
def Obligations.DecodeInvertsCompress : Prop :=
  ∀ (xs : List Byte) (mode : BitVec 1), xs.length ≤ 0xFFFFFF →
    decodeStream (compressBytes xs mode) mode = .ok (xs, (compressBytes xs mode).length)

/-- R57, R72, R103: the output is the header and the groups of the greedy parse's tokens, 8 to a control byte. -/
def Obligations.OutputIsHeaderAndGroups : Prop :=
  ∀ (xs : List Byte) (mode : BitVec 1),
    compressBytes xs mode = streamBytes xs.length ((parse xs mode).map Prod.snd)

/-- R141, R142, R145: every token is a literal of the input byte at its cursor or a legal back-reference. -/
def Obligations.TokensAreLegal : Prop :=
  ∀ (xs : List Byte) (mode : BitVec 1) (c : Nat) (i : Instr), (c, i) ∈ parse xs mode →
    c < xs.length ∧
    ((∃ b, i = .lit b ∧ xs[c]? = some b) ∨
      ∃ length distance, i = .ref length distance ∧ 3 ≤ length ∧ length ≤ 18 ∧ length ≤ xs.length - c ∧
        mode.toNat + 1 ≤ distance ∧ distance ≤ 4096 ∧ distance ≤ c)

/-- R102: there is at most one token an input byte, and the tokens advance the cursor over the whole input exactly. -/
def Obligations.TokensCoverTheInput : Prop :=
  ∀ (xs : List Byte) (mode : BitVec 1),
    (parse xs mode).length ≤ xs.length ∧
    ((parse xs mode).map fun t => match t.2 with | .ref length _ => length | _ => 1).sum = xs.length

/-- R145: the modes parse an input alike exactly if mode 0 emits no reference of distance 1, and then give the same
output. The spec's "some SEARCH in mode 0 selects distance 1" is read as: some emitted reference has it (NOTES.md). -/
def Obligations.ModesDifferOnlyByDistanceOne : Prop :=
  ∀ xs : List Byte,
    (parse xs 0#1 = parse xs 1#1 ↔ ∀ c length, (c, Instr.ref length 1) ∉ parse xs 0#1) ∧
    ((∀ c length, (c, Instr.ref length 1) ∉ parse xs 0#1) → compressBytes xs 0#1 = compressBytes xs 1#1)

/-- R104: the output's length counts the header, one control byte a group, a byte a literal and two a reference. -/
def Obligations.OutputLengthFormula : Prop :=
  ∀ (xs : List Byte) (mode : BitVec 1),
    (compressBytes xs mode).length =
      4 + ((parse xs mode).length + 7) / 8 + ((parse xs mode).countP fun t => !isRef t.2) +
        2 * ((parse xs mode).countP fun t => isRef t.2)

/-- R143: the bounds of the output's length, and inputs of literals alone reach the upper one. -/
def Obligations.OutputSizeBounds : Prop :=
  ∀ (xs : List Byte) (mode : BitVec 1),
    (xs = [] → (compressBytes xs mode).length = 4) ∧
    (xs ≠ [] → 6 ≤ (compressBytes xs mode).length ∧
      (compressBytes xs mode).length ≤ 4 + xs.length + (xs.length + 7) / 8 ∧
      4 + xs.length + (xs.length + 7) / 8 ≤ 2 * xs.length + 5) ∧
    ((∀ t ∈ parse xs mode, isRef t.2 = false) →
      (compressBytes xs mode).length = 4 + xs.length + (xs.length + 7) / 8)

/-- R144: the header of every output. -/
def Obligations.OutputHeader : Prop :=
  ∀ (xs : List Byte) (mode : BitVec 1),
    (compressBytes xs mode).take 4 =
      [0x10#8, BitVec.ofNat 8 xs.length, BitVec.ofNat 8 (xs.length / 256), BitVec.ofNat 8 (xs.length / 65536)]

/-- R60, R61: in a group, token k's bit 7 - k is set exactly if it is a back-reference, and a bit of no token is 0. -/
def Obligations.ControlByteFlagsTheReferences : Prop :=
  ∀ (ts : List Instr) (k : Nat), k < 8 →
    (groupControl 0 ts).getLsbD (7 - k) = (match ts[k]? with | some i => isRef i | none => false)

/-- R136: the consumer, left to run, ends as the reference decoder does: with the same bytes and count, or the same
fault (the consumer as an agent: log 6, 7). -/
def Obligations.ConsumerRunsTheReferenceDecoder : Prop :=
  ∀ (s : State) (st : List Byte) (mode : BitVec 1),
    (s.phase = Phase.idle ∨ s.phase = Phase.done ∨ s.phase = Phase.error) → s.err ≠ Err.reserved → s.sched = [] →
    s.moves = [] → s.consumer = Consumer.fed st mode →
    (∀ o i, decodeStream st mode = .ok (o, i) → ∃ k t, Sys2Proof.core.run k s = .next t ∧
      t = { s with consumer := t.consumer } ∧ t.consumer.stage = .done ∧ t.consumer.out = o ∧ t.consumer.pos = i) ∧
    (∀ f, decodeStream st mode = .error f → ∃ k, Sys2Proof.core.run k s = .fault f)
end

