-- ==== Sys2Proof/Laws/Finder.lean ====
section
/-! SUPPORT. The bounds of what the match finder returns (spec/40_match_finder.md R82, R87), from one lemma on its scan. -/

namespace Sys2Proof.Machine

theorem matchLen_le (xs : List Byte) (p c k : Nat) : matchLen xs p c k ≤ k := by
  induction k generalizing p c with
  | zero => exact Nat.le_refl 0
  | succ k ih =>
    rw [matchLen]
    split
    · exact Nat.succ_le_succ (ih _ _)
    · exact Nat.zero_le _

/-- What the scan may return: the best it was given, or a candidate's length and distance. -/
theorem scanFrom_cases (xs : List Byte) (cur maxlen k p : Nat) (best : Nat × Nat) :
    scanFrom xs cur maxlen k p best = best ∨
      ∃ q, p ≤ q ∧ q < p + k ∧ 1 ≤ matchLen xs q cur maxlen ∧
        scanFrom xs cur maxlen k p best = (matchLen xs q cur maxlen, cur - q) := by
  induction k generalizing p best with
  | zero => exact .inl rfl
  | succ k ih =>
    rw [scanFrom]
    split_ifs with hlt hmax
    · exact .inr ⟨p, Nat.le_refl p, by omega, by omega, by rw [hmax]⟩
    · rcases ih (p + 1) (matchLen xs p cur maxlen, cur - p) with h | ⟨q, hq, hq', h1, h⟩
      · exact .inr ⟨p, Nat.le_refl p, by omega, by omega, h⟩
      · exact .inr ⟨q, by omega, by omega, h1, h⟩
    · rcases ih (p + 1) best with h | ⟨q, hq, hq', h1, h⟩
      · exact .inl h
      · exact .inr ⟨q, by omega, by omega, h1, h⟩

/-- MatchFind's result: nothing, or the length of a match at an eligible distance. -/
theorem matchFind_cases (xs : List Byte) (cur md : Nat) :
    matchFind xs cur md = (0, 0) ∨
      ∃ d, md + 1 ≤ d ∧ d ≤ windowLen cur ∧ 1 ≤ matchLen xs (cur - d) cur (maxMatch xs.length cur) ∧
        matchFind xs cur md = (matchLen xs (cur - d) cur (maxMatch xs.length cur), d) := by
  have hw : windowLen cur ≤ cur := Nat.min_le_left _ _
  rcases scanFrom_cases xs cur (maxMatch xs.length cur) (windowLen cur - md) (cur - windowLen cur) (0, 0) with
    h | ⟨q, hq, hq', h1, h⟩
  · exact .inl h
  · refine .inr ⟨cur - q, by omega, by omega, ?_, ?_⟩
    · rwa [show cur - (cur - q) = q by omega]
    · rw [show cur - (cur - q) = q by omega]; exact h

/-- The bounds of MatchFind's result (R82, R87). -/
theorem matchFind_bounds (xs : List Byte) (cur md : Nat) :
    (matchFind xs cur md).1 ≤ min Config.maxLen (xs.length - cur) ∧
      ((matchFind xs cur md).1 = 0 → (matchFind xs cur md).2 = 0) ∧
      (1 ≤ (matchFind xs cur md).1 → md + 1 ≤ (matchFind xs cur md).2) ∧
      (matchFind xs cur md).2 ≤ min cur Config.window := by
  rcases matchFind_cases xs cur md with h | ⟨d, hd, hd', h1, h⟩
  · rw [h]; simp
  · have hl := matchLen_le xs (cur - d) cur (maxMatch xs.length cur)
    rw [h]
    refine ⟨?_, fun h0 => ?_, fun _ => hd, hd'⟩
    · rw [Nat.min_comm]; exact hl
    · exact absurd h0 (by dsimp only; omega)

end Sys2Proof.Machine
end

