-- ==== Sys2Proof/Laws/Memory.lean ====
section
/-! SUPPORT. The laws of a byte space: read after write, the canonical form kept, and slices. -/

namespace Sys2Proof.Machine

theorem Mem.read_write (m : Mem) (a b : Nat) (v : Byte) :
    Mem.read (Mem.write m a v) b = if a = b then some v else Mem.read m b := by
  induction m with
  | nil => simp only [Mem.write, Mem.read]
  | cons c m ih =>
    obtain ⟨x, w⟩ := c
    by_cases hlt : x < a
    · simp only [Mem.write, if_pos hlt, Mem.read, ih]
      split_ifs <;> first | rfl | omega
    · by_cases heq : x = a
      · subst heq
        simp only [Mem.write, lt_irrefl, if_false, if_true, Mem.read]
        split_ifs <;> rfl
      · simp only [Mem.write, if_neg hlt, if_neg heq, Mem.read]

@[simp] theorem Mem.read_write_same (m : Mem) (a : Nat) (v : Byte) : Mem.read (Mem.write m a v) a = some v := by
  rw [Mem.read_write, if_pos rfl]

theorem Mem.read_write_ne (m : Mem) {a b : Nat} (v : Byte) (h : a ≠ b) :
    Mem.read (Mem.write m a v) b = Mem.read m b := by
  rw [Mem.read_write, if_neg h]

theorem Mem.isSome_read_write (m : Mem) (a b : Nat) (v : Byte) (h : (Mem.read m b).isSome) :
    (Mem.read (Mem.write m a v) b).isSome := by
  rw [Mem.read_write]; split <;> simp [h]

theorem Mem.risesFrom_mono {m : Mem} {lo lo' : Nat} (hle : lo' ≤ lo) (h : Mem.risesFrom lo m = true) :
    Mem.risesFrom lo' m = true := by
  cases m with
  | nil => rfl
  | cons c m =>
    simp only [Mem.risesFrom, Bool.and_eq_true, decide_eq_true_eq] at h ⊢
    exact ⟨by omega, h.2⟩

theorem Mem.risesFrom_write {m : Mem} {lo a : Nat} (v : Byte) (hlo : lo ≤ a) (h : Mem.risesFrom lo m = true) :
    Mem.risesFrom lo (Mem.write m a v) = true := by
  induction m generalizing lo with
  | nil => simp [Mem.write, Mem.risesFrom, hlo]
  | cons c m ih =>
    obtain ⟨x, w⟩ := c
    simp only [Mem.risesFrom, Bool.and_eq_true, decide_eq_true_eq] at h
    by_cases hlt : x < a
    · simp only [Mem.write, if_pos hlt, Mem.risesFrom, Bool.and_eq_true, decide_eq_true_eq]
      exact ⟨h.1, ih (by omega) h.2⟩
    · by_cases heq : x = a
      · subst heq
        simp only [Mem.write, lt_irrefl, if_false, if_true, Mem.risesFrom, Bool.and_eq_true, decide_eq_true_eq]
        exact h
      · simp only [Mem.write, if_neg hlt, if_neg heq, Mem.risesFrom, Bool.and_eq_true, decide_eq_true_eq]
        exact ⟨hlo, by omega, h.2⟩

/-- A write keeps the canonical form. -/
theorem Mem.wf_write {m : Mem} (a : Nat) (v : Byte) (h : Mem.wf m = true) : Mem.wf (Mem.write m a v) = true :=
  Mem.risesFrom_write v (Nat.zero_le a) h

/-- Writes keep the canonical form. -/
theorem Mem.wf_writeAll {m : Mem} (ws : List (Nat × Byte)) (h : Mem.wf m = true) :
    Mem.wf (Mem.writeAll m ws) = true := by
  induction ws generalizing m with
  | nil => exact h
  | cons w ws ih => exact ih (Mem.wf_write w.1 w.2 h)

/-- An address no write of the list names reads as before. -/
theorem Mem.read_writeAll_ne {m : Mem} {ws : List (Nat × Byte)} {b : Nat} (h : ∀ w ∈ ws, w.1 ≠ b) :
    Mem.read (Mem.writeAll m ws) b = Mem.read m b := by
  induction ws generalizing m with
  | nil => rfl
  | cons w ws ih =>
    rw [Mem.writeAll, ih fun w' hw' => h w' (List.mem_cons_of_mem _ hw'),
      Mem.read_write_ne _ _ (h w List.mem_cons_self)]

/-- Writes take no value away. -/
theorem Mem.isSome_read_writeAll {m : Mem} (ws : List (Nat × Byte)) {b : Nat} (h : (Mem.read m b).isSome) :
    (Mem.read (Mem.writeAll m ws) b).isSome := by
  induction ws generalizing m with
  | nil => exact h
  | cons w ws ih => exact ih (Mem.isSome_read_write m w.1 b w.2 h)

/-- A slice holds exactly the bytes read one by one. -/
theorem Mem.slice_eq_some {m : Mem} {a k : Nat} {xs : List Byte} :
    Mem.slice m a k = some xs ↔ xs.length = k ∧ ∀ j, j < k → Mem.read m (a + j) = xs[j]? := by
  induction k generalizing a xs with
  | zero =>
    simp only [Mem.slice, Option.some.injEq, List.length_eq_zero_iff]
    exact ⟨fun h => ⟨h.symm, fun j hj => absurd hj (Nat.not_lt_zero j)⟩, fun h => h.1.symm⟩
  | succ k ih =>
    constructor
    · intro h
      simp only [Mem.slice] at h
      split at h
      · rename_i b bs hb hbs
        obtain ⟨hlen, hread⟩ := ih.mp hbs
        obtain rfl := (Option.some.inj h).symm
        refine ⟨by simp [hlen], fun j hj => ?_⟩
        cases j with
        | zero => simpa using hb
        | succ j => simpa [Nat.add_assoc, Nat.add_comm 1 j] using hread j (by omega)
      · cases h
    · rintro ⟨hlen, hread⟩
      cases xs with
      | nil => simp at hlen
      | cons x xs =>
        have h0 := hread 0 (Nat.succ_pos k)
        have hs : Mem.slice m (a + 1) k = some xs := ih.mpr ⟨by simpa using hlen, fun j hj => by
          simpa [Nat.add_assoc, Nat.add_comm 1 j] using hread (j + 1) (by omega)⟩
        simp only [Nat.add_zero, List.getElem?_cons_zero] at h0
        simp only [Mem.slice, h0, hs]

/-- The input bytes, if all are supplied: the byte array of R40. -/
theorem inBytes_eq_ok {m : Mem} {n : Nat} {xs : List Byte} :
    inBytes m n = .ok xs ↔ xs.length = n ∧ ∀ j, j < n → Mem.read m j = xs[j]? := by
  have h := @Mem.slice_eq_some m 0 n xs
  simp only [Nat.zero_add] at h
  rw [← h, inBytes]
  cases Mem.slice m 0 n <;> simp

end Sys2Proof.Machine
end

