-- ==== Sys2Proof/Laws/Ops.lean ====
section
/-! SUPPORT. For each shared operation and each meaning, one lemma that says once everything it can do when it answers. -/

namespace Sys2Proof.Machine

/-! ## Shared operations -/

theorem ofExcept_next {r : Except Fault State} {t : State} : ofExcept r = .next t ↔ r = .ok t := by
  cases r <;> simp [ofExcept]

theorem ofExcept_ok_next {u t : State} : ofExcept (.ok u) = .next t ↔ t = u := by
  simp [ofExcept, eq_comm]

theorem ofExcept_ne_refused {r : Except Fault State} {x : Refusal} : ofExcept r ≠ .refused x := by
  cases r <;> simp [ofExcept]

theorem bind_eq_ok {α β : Type} {x : Except Fault α} {f : α → Except Fault β} {b : β} :
    (x >>= f) = .ok b ↔ ∃ a, x = .ok a ∧ f a = .ok b := by
  cases x <;> simp [bind, Except.bind]

theorem need_eq_ok {α : Type} {r : Reg} {o : Option α} {v : α} : need r o = .ok v ↔ o = some v := by
  cases o <;> simp [need]

@[simp] theorem need_some {α : Type} (r : Reg) (v : α) : need r (some v) = .ok v := rfl

theorem fit_eq_ok {w v : Nat} {b : BitVec w} : fit w v = .ok b ↔ v < 2 ^ w ∧ b = BitVec.ofNat w v := by
  unfold fit; split
  · rename_i h; simp [h, eq_comm]
  · rename_i h; simp [h]

/-- A number that fits is the register's content. -/
theorem fit_toNat {w v : Nat} {b : BitVec w} (h : fit w v = .ok b) : b.toNat = v := by
  obtain ⟨hv, rfl⟩ := fit_eq_ok.mp h
  simp [Nat.mod_eq_of_lt hv]

theorem inCapacity_iff {cap : Option Nat} {ws : List (Nat × Byte)} :
    inCapacity cap ws = true ↔ ∀ w ∈ ws, ∃ c, cap = some c ∧ w.1 < c := by
  cases cap with
  | none =>
    cases ws with
    | nil => simp [inCapacity]
    | cons w ws =>
      refine ⟨fun h => by simp [inCapacity] at h, fun h => ?_⟩
      obtain ⟨c, hc, _⟩ := h w List.mem_cons_self
      cases hc
  | some c => simp [inCapacity]

theorem outWrites_eq_ok {s : State} {ws : List (Nat × Byte)} {m : Mem} :
    outWrites s ws = .ok m ↔ (∀ w ∈ ws, ∃ c, s.outCap = some c ∧ w.1 < c) ∧ m = Mem.writeAll s.outMem ws := by
  rw [← inCapacity_iff, outWrites]
  split
  · rename_i h; simp [h, eq_comm]
  · rename_i h; simp [h]

theorem outRead_eq_ok {s : State} {j : Nat} {b : Byte} : outRead s j = .ok b ↔ Mem.read s.outMem j = some b := by
  unfold outRead; cases Mem.read s.outMem j <;> simp

theorem inRead_eq_ok {m : Mem} {n i : Nat} {b : Byte} :
    inRead m n i = .ok b ↔ i < n ∧ Mem.read m i = some b := by
  unfold inRead
  split
  · rename_i h; cases Mem.read m i <;> simp [h]
  · rename_i h; simp [h]

theorem refBytes_eq_ok {length distance : Nat} {p : Byte × Byte} :
    refBytes length distance = .ok p ↔
      (Instr.ref length distance).WellFormed ∧ p = (refByte0 length distance, refByte1 distance) := by
  unfold refBytes
  split
  · rename_i h; simp [h, eq_comm]
  · rename_i h; simp [h]

theorem ref_wellFormed_iff {length distance : Nat} :
    (Instr.ref length distance).WellFormed ↔
      3 ≤ length ∧ length ≤ 18 ∧ 1 ≤ distance ∧ distance ≤ 4096 := by
  simp [Instr.WellFormed, Instr.wellFormed, and_assoc]

/-- START answers in three ways: ignored, accepted, or stopped. -/
theorem startRun_eq_ok {mode : BitVec 1} {s t : State} :
    startRun mode s = .ok t ↔
      (s.busy = true ∧ t = s) ∨
        (s.busy = false ∧ s.waiting = true ∧ ∃ len, s.inLen = some len ∧
          t = { s with n := some len, mode := some mode, err := Err.none, outLen := 0#32, phase := Phase.check }) := by
  unfold startRun
  cases s.busy <;> cases s.waiting <;> cases s.inLen <;> simp [eq_comm]

/-! ## Meanings: what holds when one answers a next state -/

theorem execHdr_next {size : Nat} {s t : State} : execHdr size s = .next t ↔
    t = { s with consumer := { s.consumer with
            size := size, out := [], pos := s.consumer.pos + 4, stage := if size = 0 then .done else .control } } := by
  exact ofExcept_ok_next

theorem execCtrl_next {flags : Byte} {s t : State} : execCtrl flags s = .next t ↔
    t = { s with consumer := { s.consumer with
            ctrl := flags, k := 0#3, pos := s.consumer.pos + 1, stage := .token } } := by
  exact ofExcept_ok_next

theorem execLit_next {value : Byte} {s t : State} : execLit value s = .next t ↔
    s.consumer.out.length + 1 ≤ s.consumer.size ∧
      t = { s with consumer := Consumer.nextToken {
              s.consumer with out := s.consumer.out ++ [value], pos := s.consumer.pos + 1 } } := by
  simp only [execLit, ofExcept_next]
  split
  · rename_i h; simp [h, eq_comm]
  · rename_i h; simp [h]

theorem execRef_next {length distance : Nat} {s t : State} : execRef length distance s = .next t ↔
    badDistance s.consumer.mode s.consumer.out.length distance = false ∧
      s.consumer.out.length + length ≤ s.consumer.size ∧
      t = { s with consumer := Consumer.nextToken {
              s.consumer with out := copyBack distance length s.consumer.out, pos := s.consumer.pos + 2 } } := by
  simp only [execRef, ofExcept_next]
  cases badDistance s.consumer.mode s.consumer.out.length distance
  · by_cases h : s.consumer.size < s.consumer.out.length + length
    · simp [h]
    · simp [h, Nat.not_lt.mp h, eq_comm]
  · simp

theorem execCheck_next {s t : State} : execCheck s = .next t ↔
    ∃ n, s.n = some n ∧
      t = if Config.maxIn < n then raiseError Err.oversizedInput s else { s with phase := Phase.alloc } := by
  simp only [execCheck, ofExcept_next, bind_eq_ok, need_eq_ok]
  refine exists_congr fun n => and_congr_right fun _ => ?_
  split <;> simp [eq_comm]

theorem execAlloc_next {s t : State} : execAlloc s = .next t ↔
    ∃ n, s.n = some n ∧
      ((s.alloc = .refused ∧ t = raiseError Err.allocationFailure s) ∨
        ∃ extra, s.alloc = .granted extra ∧
          t = { s with outMem := [], outCap := some (Config.reqCap n + extra), phase := Phase.header }) := by
  simp only [execAlloc, ofExcept_next, bind_eq_ok, need_eq_ok]
  refine exists_congr fun n => and_congr_right fun _ => ?_
  cases s.alloc <;> simp [eq_comm]

theorem execHeader_next {s t : State} : execHeader s = .next t ↔
    ∃ n, s.n = some n ∧ (∀ w ∈ headerWrites n, ∃ c, s.outCap = some c ∧ w.1 < c) ∧
      t = { s with outMem := Mem.writeAll s.outMem (headerWrites n), outLen := 4#32, cursor := some 0#24,
                   grp := some 0#3, phase := Phase.loop } := by
  simp only [execHeader, ofExcept_next, bind_eq_ok, need_eq_ok, outWrites_eq_ok]
  refine exists_congr fun n => and_congr_right fun _ => ?_
  constructor
  · rintro ⟨m, ⟨hc, rfl⟩, h⟩; exact ⟨hc, (Except.ok.inj h).symm⟩
  · rintro ⟨hc, rfl⟩; exact ⟨_, ⟨hc, rfl⟩, rfl⟩

theorem execFinish_next {s t : State} : execFinish s = .next t ↔ t = { s with phase := Phase.done } := by
  exact ofExcept_ok_next

theorem execLoop_next {s t : State} : execLoop s = .next t ↔
    ∃ cur n, s.cursor = some cur ∧ s.n = some n ∧
      ((cur.toNat = n ∧ t = { s with phase := Phase.finish }) ∨
        (cur.toNat ≠ n ∧ ∃ g, s.grp = some g ∧
          t = if g = 0#3 then { s with phase := Phase.openGroup } else { s with phase := Phase.search })) := by
  simp only [execLoop, ofExcept_next, bind_eq_ok, need_eq_ok]
  constructor
  · rintro ⟨cur, hcur, n, hn, h⟩
    refine ⟨cur, n, hcur, hn, ?_⟩
    split at h
    · rename_i heq; exact .inl ⟨heq, (Except.ok.inj h).symm⟩
    · rename_i hne
      obtain ⟨g, hg, h⟩ := bind_eq_ok.mp h
      refine .inr ⟨hne, g, need_eq_ok.mp hg, ?_⟩
      split at h <;> rename_i h0 <;> simp only [h0, if_true, if_false] <;> exact (Except.ok.inj h).symm
  · rintro ⟨cur, n, hcur, hn, h | ⟨hne, g, hg, rfl⟩⟩
    · exact ⟨cur, hcur, n, hn, by rw [if_pos h.1, h.2]⟩
    · refine ⟨cur, hcur, n, hn, ?_⟩
      rw [if_neg hne, hg]
      by_cases h0 : g = 0#3 <;> simp [h0, bind, Except.bind]

theorem execOpenGroup_next {s t : State} : execOpenGroup s = .next t ↔
    (∃ c, s.outCap = some c ∧ s.outLen.toNat < c) ∧ s.outLen.toNat + 1 < 2 ^ 32 ∧
      t = { s with ctrlIdx := some s.outLen, outMem := Mem.write s.outMem s.outLen.toNat 0x00#8,
                   outLen := BitVec.ofNat 32 (s.outLen.toNat + 1), phase := Phase.search } := by
  simp only [execOpenGroup, ofExcept_next, bind_eq_ok, outWrites_eq_ok, fit_eq_ok]
  constructor
  · rintro ⟨m, ⟨hc, rfl⟩, _, ⟨hf, rfl⟩, h⟩
    exact ⟨hc (_, _) List.mem_cons_self, hf, (Except.ok.inj h).symm⟩
  · rintro ⟨hc, hf, rfl⟩
    exact ⟨_, ⟨by simpa using hc, rfl⟩, _, ⟨hf, rfl⟩, rfl⟩

theorem execSearch_next {s t : State} : execSearch s = .next t ↔
    ∃ n cur mode xs len dist, s.n = some n ∧ s.cursor = some cur ∧ s.mode = some mode ∧ cur.toNat < n ∧
      inBytes s.inMem n = .ok xs ∧
      fit 5 (matchFind xs cur.toNat (Config.minDist mode)).1 = .ok len ∧
      fit 13 (matchFind xs cur.toNat (Config.minDist mode)).2 = .ok dist ∧
      t = { s with bestLen := some len, bestDist := some dist, phase := Phase.emit } := by
  simp only [execSearch, ofExcept_next, bind_eq_ok, need_eq_ok]
  constructor
  · rintro ⟨n, hn, cur, hcur, mode, hmode, h⟩
    split at h
    · rename_i hlt
      simp only [bind_eq_ok] at h
      obtain ⟨xs, hxs, len, hlen, dist, hdist, h⟩ := h
      exact ⟨n, cur, mode, xs, len, dist, hn, hcur, hmode, hlt, hxs, hlen, hdist, (Except.ok.inj h).symm⟩
    · cases h
  · rintro ⟨n, cur, mode, xs, len, dist, hn, hcur, hmode, hlt, hxs, hlen, hdist, rfl⟩
    refine ⟨n, hn, cur, hcur, mode, hmode, ?_⟩
    rw [if_pos hlt]
    simp only [bind_eq_ok]
    exact ⟨xs, hxs, len, hlen, dist, hdist, rfl⟩

theorem execEmitLit_next {s t : State} : execEmitLit s = .next t ↔
    ∃ cur n b, s.cursor = some cur ∧ s.n = some n ∧ cur.toNat < n ∧ Mem.read s.inMem cur.toNat = some b ∧
      (∃ c, s.outCap = some c ∧ s.outLen.toNat < c) ∧ s.outLen.toNat + 1 < 2 ^ 32 ∧ cur.toNat + 1 < 2 ^ 24 ∧
      t = { s with outMem := Mem.write s.outMem s.outLen.toNat b, outLen := BitVec.ofNat 32 (s.outLen.toNat + 1),
                   cursor := some (BitVec.ofNat 24 (cur.toNat + 1)), phase := Phase.advance } := by
  simp only [execEmitLit, ofExcept_next, bind_eq_ok, need_eq_ok, inRead_eq_ok, outWrites_eq_ok, fit_eq_ok]
  constructor
  · rintro ⟨cur, hcur, n, hn, b, ⟨hlt, hb⟩, m, ⟨hc, rfl⟩, _, ⟨hf, rfl⟩, _, ⟨hf', rfl⟩, h⟩
    exact ⟨cur, n, b, hcur, hn, hlt, hb, hc (_, _) List.mem_cons_self, hf, hf', (Except.ok.inj h).symm⟩
  · rintro ⟨cur, n, b, hcur, hn, hlt, hb, hc, hf, hf', rfl⟩
    exact ⟨cur, hcur, n, hn, b, ⟨hlt, hb⟩, _, ⟨by simpa using hc, rfl⟩, _, ⟨hf, rfl⟩, _, ⟨hf', rfl⟩, rfl⟩

theorem execEmitRef_next {s t : State} : execEmitRef s = .next t ↔
    ∃ len dist g ci cur old, s.bestLen = some len ∧ s.bestDist = some dist ∧ s.grp = some g ∧
      s.ctrlIdx = some ci ∧ s.cursor = some cur ∧ (Instr.ref len.toNat dist.toNat).WellFormed ∧
      Mem.read s.outMem ci.toNat = some old ∧
      (∀ w ∈ refWrites s.outLen.toNat ci.toNat g.toNat (refByte0 len.toNat dist.toNat) (refByte1 dist.toNat) old,
        ∃ c, s.outCap = some c ∧ w.1 < c) ∧
      s.outLen.toNat + 2 < 2 ^ 32 ∧ cur.toNat + len.toNat < 2 ^ 24 ∧
      t = { s with
              outMem := Mem.writeAll s.outMem
                (refWrites s.outLen.toNat ci.toNat g.toNat (refByte0 len.toNat dist.toNat) (refByte1 dist.toNat) old),
              outLen := BitVec.ofNat 32 (s.outLen.toNat + 2),
              cursor := some (BitVec.ofNat 24 (cur.toNat + len.toNat)), phase := Phase.advance } := by
  simp only [execEmitRef, ofExcept_next, bind_eq_ok, need_eq_ok, refBytes_eq_ok, outRead_eq_ok, outWrites_eq_ok,
    fit_eq_ok]
  constructor
  · rintro ⟨len, hlen, dist, hdist, g, hg, ci, hci, cur, hcur, _, ⟨hw, rfl⟩, old, hold, m, ⟨hc, rfl⟩, _, ⟨hf, rfl⟩, _,
      ⟨hf', rfl⟩, h⟩
    exact ⟨len, dist, g, ci, cur, old, hlen, hdist, hg, hci, hcur, hw, hold, hc, hf, hf', (Except.ok.inj h).symm⟩
  · rintro ⟨len, dist, g, ci, cur, old, hlen, hdist, hg, hci, hcur, hw, hold, hc, hf, hf', rfl⟩
    exact ⟨len, hlen, dist, hdist, g, hg, ci, hci, cur, hcur, _, ⟨hw, rfl⟩, old, hold, _, ⟨hc, rfl⟩, _, ⟨hf, rfl⟩, _,
      ⟨hf', rfl⟩, rfl⟩

theorem execAdvance_next {s t : State} : execAdvance s = .next t ↔
    ∃ g, s.grp = some g ∧ t = { s with grp := some (g + 1#3), phase := Phase.loop } := by
  simp only [execAdvance, ofExcept_next, bind_eq_ok, need_eq_ok]
  refine exists_congr fun g => and_congr_right fun _ => ?_
  simp [eq_comm]

/-- No instruction is refused. -/
theorem exec_ne_refused (i : Instr) (s : State) (r : Refusal) : exec i s ≠ .refused r := by
  cases i <;> intro h <;> first | exact ofExcept_ne_refused h | cases h

end Sys2Proof.Machine
end

