-- ==== Sys2Proof/Laws/PerInstr.lean ====
section
/-! SUPPORT. Statements for all instructions, one lemma for each constructor. -/

namespace Sys2Proof.Laws

/-- R56, R66: an instruction is encoded in as many bytes as its element has. -/
def EncodedLength.Statement (i : Instr) : Prop := (encode i).length = i.byteLength

theorem EncodedLength.hdr (size : Nat) : EncodedLength.Statement (.hdr size) := rfl

theorem EncodedLength.ctrl (flags : Byte) : EncodedLength.Statement (.ctrl flags) := rfl

theorem EncodedLength.lit (value : Byte) : EncodedLength.Statement (.lit value) := rfl

theorem EncodedLength.ref (length distance : Nat) : EncodedLength.Statement (.ref length distance) := rfl

theorem EncodedLength.startM0 : EncodedLength.Statement (.startM0) := rfl

theorem EncodedLength.startM1 : EncodedLength.Statement (.startM1) := rfl

theorem EncodedLength.check : EncodedLength.Statement (.check) := rfl

theorem EncodedLength.alloc : EncodedLength.Statement (.alloc) := rfl

theorem EncodedLength.header : EncodedLength.Statement (.header) := rfl

theorem EncodedLength.loop : EncodedLength.Statement (.loop) := rfl

theorem EncodedLength.openGroup : EncodedLength.Statement (.openGroup) := rfl

theorem EncodedLength.search : EncodedLength.Statement (.search) := rfl

theorem EncodedLength.emitLit : EncodedLength.Statement (.emitLit) := rfl

theorem EncodedLength.emitRef : EncodedLength.Statement (.emitRef) := rfl

theorem EncodedLength.advance : EncodedLength.Statement (.advance) := rfl

theorem EncodedLength.finish : EncodedLength.Statement (.finish) := rfl

end Sys2Proof.Laws
end

