-- ==== Sys2Proof/Laws/Runs.lean ====
section
/-! SUPPORT. What the words about whole runs in Safety say of one more step. -/

namespace Sys2Proof.Machine

/-- A run that is BUSY through `k + 1` steps is BUSY now, takes its step, and is BUSY through `k` steps after it. -/
theorem busyThrough_succ {k : Nat} {s : State} :
    busyThrough (k + 1) s ↔ s.busy = true ∧ ∃ t, step s = .next t ∧ busyThrough k t := Iff.rfl

/-- A run that is BUSY through `k` steps is BUSY now. -/
theorem busyThrough_busy {k : Nat} {s : State} (h : busyThrough k s) : s.busy = true := by
  cases k with
  | zero => exact h
  | succ k => exact h.1

/-- One more step counts one more exactly if it is the engine's. -/
theorem engineTurns_succ {k : Nat} {s t : State} (h : step s = .next t) :
    engineTurns (k + 1) s = (if s.mover = .engine then 1 else 0) + engineTurns k t := by
  simp only [engineTurns, h]

/-- The engine takes at most every step. -/
theorem engineTurns_le (k : Nat) (s : State) : engineTurns k s ≤ k := by
  induction k generalizing s with
  | zero => exact Nat.le_refl 0
  | succ k ih =>
    simp only [engineTurns]
    split <;> split <;> first | omega | (have := ih ‹_›; omega)

end Sys2Proof.Machine
end

