-- ==== Sys2Proof/Laws/State.lean ====
section
/-! SUPPORT. One lemma for each field of each named update of State, so that no proof unfolds a record update. -/

namespace Sys2Proof.Machine

/-! ## popTurn -/

@[simp] theorem popTurn_phase (s : State) : s.popTurn.phase = s.phase := rfl
@[simp] theorem popTurn_cursor (s : State) : s.popTurn.cursor = s.cursor := rfl
@[simp] theorem popTurn_grp (s : State) : s.popTurn.grp = s.grp := rfl
@[simp] theorem popTurn_ctrlIdx (s : State) : s.popTurn.ctrlIdx = s.ctrlIdx := rfl
@[simp] theorem popTurn_outLen (s : State) : s.popTurn.outLen = s.outLen := rfl
@[simp] theorem popTurn_bestLen (s : State) : s.popTurn.bestLen = s.bestLen := rfl
@[simp] theorem popTurn_bestDist (s : State) : s.popTurn.bestDist = s.bestDist := rfl
@[simp] theorem popTurn_mode (s : State) : s.popTurn.mode = s.mode := rfl
@[simp] theorem popTurn_n (s : State) : s.popTurn.n = s.n := rfl
@[simp] theorem popTurn_err (s : State) : s.popTurn.err = s.err := rfl
@[simp] theorem popTurn_inLen (s : State) : s.popTurn.inLen = s.inLen := rfl
@[simp] theorem popTurn_lenW (s : State) : s.popTurn.lenW = s.lenW := rfl
@[simp] theorem popTurn_inMem (s : State) : s.popTurn.inMem = s.inMem := rfl
@[simp] theorem popTurn_outMem (s : State) : s.popTurn.outMem = s.outMem := rfl
@[simp] theorem popTurn_outCap (s : State) : s.popTurn.outCap = s.outCap := rfl
@[simp] theorem popTurn_alloc (s : State) : s.popTurn.alloc = s.alloc := rfl
@[simp] theorem popTurn_moves (s : State) : s.popTurn.moves = s.moves := rfl
@[simp] theorem popTurn_readings (s : State) : s.popTurn.readings = s.readings := rfl
@[simp] theorem popTurn_sched (s : State) : s.popTurn.sched = s.sched.tail := rfl
@[simp] theorem popTurn_consumer (s : State) : s.popTurn.consumer = s.consumer := rfl
@[simp] theorem popTurn_draws (s : State) : s.popTurn.draws = s.draws := rfl

/-! ## popMove -/

@[simp] theorem popMove_phase (s : State) : s.popMove.phase = s.phase := rfl
@[simp] theorem popMove_cursor (s : State) : s.popMove.cursor = s.cursor := rfl
@[simp] theorem popMove_grp (s : State) : s.popMove.grp = s.grp := rfl
@[simp] theorem popMove_ctrlIdx (s : State) : s.popMove.ctrlIdx = s.ctrlIdx := rfl
@[simp] theorem popMove_outLen (s : State) : s.popMove.outLen = s.outLen := rfl
@[simp] theorem popMove_bestLen (s : State) : s.popMove.bestLen = s.bestLen := rfl
@[simp] theorem popMove_bestDist (s : State) : s.popMove.bestDist = s.bestDist := rfl
@[simp] theorem popMove_mode (s : State) : s.popMove.mode = s.mode := rfl
@[simp] theorem popMove_n (s : State) : s.popMove.n = s.n := rfl
@[simp] theorem popMove_err (s : State) : s.popMove.err = s.err := rfl
@[simp] theorem popMove_inLen (s : State) : s.popMove.inLen = s.inLen := rfl
@[simp] theorem popMove_lenW (s : State) : s.popMove.lenW = s.lenW := rfl
@[simp] theorem popMove_inMem (s : State) : s.popMove.inMem = s.inMem := rfl
@[simp] theorem popMove_outMem (s : State) : s.popMove.outMem = s.outMem := rfl
@[simp] theorem popMove_outCap (s : State) : s.popMove.outCap = s.outCap := rfl
@[simp] theorem popMove_alloc (s : State) : s.popMove.alloc = s.alloc := rfl
@[simp] theorem popMove_moves (s : State) : s.popMove.moves = s.moves.tail := rfl
@[simp] theorem popMove_readings (s : State) : s.popMove.readings = s.readings := rfl
@[simp] theorem popMove_sched (s : State) : s.popMove.sched = s.sched := rfl
@[simp] theorem popMove_consumer (s : State) : s.popMove.consumer = s.consumer := rfl
@[simp] theorem popMove_draws (s : State) : s.popMove.draws = s.draws := rfl

/-! ## record -/

@[simp] theorem record_phase (r : Reading) (s : State) : (s.record r).phase = s.phase := rfl
@[simp] theorem record_cursor (r : Reading) (s : State) : (s.record r).cursor = s.cursor := rfl
@[simp] theorem record_grp (r : Reading) (s : State) : (s.record r).grp = s.grp := rfl
@[simp] theorem record_ctrlIdx (r : Reading) (s : State) : (s.record r).ctrlIdx = s.ctrlIdx := rfl
@[simp] theorem record_outLen (r : Reading) (s : State) : (s.record r).outLen = s.outLen := rfl
@[simp] theorem record_bestLen (r : Reading) (s : State) : (s.record r).bestLen = s.bestLen := rfl
@[simp] theorem record_bestDist (r : Reading) (s : State) : (s.record r).bestDist = s.bestDist := rfl
@[simp] theorem record_mode (r : Reading) (s : State) : (s.record r).mode = s.mode := rfl
@[simp] theorem record_n (r : Reading) (s : State) : (s.record r).n = s.n := rfl
@[simp] theorem record_err (r : Reading) (s : State) : (s.record r).err = s.err := rfl
@[simp] theorem record_inLen (r : Reading) (s : State) : (s.record r).inLen = s.inLen := rfl
@[simp] theorem record_lenW (r : Reading) (s : State) : (s.record r).lenW = s.lenW := rfl
@[simp] theorem record_inMem (r : Reading) (s : State) : (s.record r).inMem = s.inMem := rfl
@[simp] theorem record_outMem (r : Reading) (s : State) : (s.record r).outMem = s.outMem := rfl
@[simp] theorem record_outCap (r : Reading) (s : State) : (s.record r).outCap = s.outCap := rfl
@[simp] theorem record_alloc (r : Reading) (s : State) : (s.record r).alloc = s.alloc := rfl
@[simp] theorem record_moves (r : Reading) (s : State) : (s.record r).moves = s.moves := rfl
@[simp] theorem record_readings (r : Reading) (s : State) : (s.record r).readings = s.readings ++ [r] := rfl
@[simp] theorem record_sched (r : Reading) (s : State) : (s.record r).sched = s.sched := rfl
@[simp] theorem record_consumer (r : Reading) (s : State) : (s.record r).consumer = s.consumer := rfl
@[simp] theorem record_draws (r : Reading) (s : State) : (s.record r).draws = s.draws := rfl

/-! ## raiseError -/

@[simp] theorem raiseError_phase (code : BitVec 2) (s : State) : (raiseError code s).phase = Phase.error := rfl
@[simp] theorem raiseError_cursor (code : BitVec 2) (s : State) : (raiseError code s).cursor = s.cursor := rfl
@[simp] theorem raiseError_grp (code : BitVec 2) (s : State) : (raiseError code s).grp = s.grp := rfl
@[simp] theorem raiseError_ctrlIdx (code : BitVec 2) (s : State) : (raiseError code s).ctrlIdx = s.ctrlIdx := rfl
@[simp] theorem raiseError_outLen (code : BitVec 2) (s : State) : (raiseError code s).outLen = s.outLen := rfl
@[simp] theorem raiseError_bestLen (code : BitVec 2) (s : State) : (raiseError code s).bestLen = s.bestLen := rfl
@[simp] theorem raiseError_bestDist (code : BitVec 2) (s : State) : (raiseError code s).bestDist = s.bestDist := rfl
@[simp] theorem raiseError_mode (code : BitVec 2) (s : State) : (raiseError code s).mode = s.mode := rfl
@[simp] theorem raiseError_n (code : BitVec 2) (s : State) : (raiseError code s).n = s.n := rfl
@[simp] theorem raiseError_err (code : BitVec 2) (s : State) : (raiseError code s).err = code := rfl
@[simp] theorem raiseError_inLen (code : BitVec 2) (s : State) : (raiseError code s).inLen = s.inLen := rfl
@[simp] theorem raiseError_lenW (code : BitVec 2) (s : State) : (raiseError code s).lenW = s.lenW := rfl
@[simp] theorem raiseError_inMem (code : BitVec 2) (s : State) : (raiseError code s).inMem = s.inMem := rfl
@[simp] theorem raiseError_outMem (code : BitVec 2) (s : State) : (raiseError code s).outMem = s.outMem := rfl
@[simp] theorem raiseError_outCap (code : BitVec 2) (s : State) : (raiseError code s).outCap = s.outCap := rfl
@[simp] theorem raiseError_alloc (code : BitVec 2) (s : State) : (raiseError code s).alloc = s.alloc := rfl
@[simp] theorem raiseError_moves (code : BitVec 2) (s : State) : (raiseError code s).moves = s.moves := rfl
@[simp] theorem raiseError_readings (code : BitVec 2) (s : State) : (raiseError code s).readings = s.readings := rfl
@[simp] theorem raiseError_sched (code : BitVec 2) (s : State) : (raiseError code s).sched = s.sched := rfl
@[simp] theorem raiseError_consumer (code : BitVec 2) (s : State) : (raiseError code s).consumer = s.consumer := rfl
@[simp] theorem raiseError_draws (code : BitVec 2) (s : State) : (raiseError code s).draws = s.draws := rfl

/-! ## resetBlock -/

@[simp] theorem resetBlock_phase (s : State) : (resetBlock s).phase = Phase.idle := rfl
@[simp] theorem resetBlock_cursor (s : State) : (resetBlock s).cursor = none := rfl
@[simp] theorem resetBlock_grp (s : State) : (resetBlock s).grp = none := rfl
@[simp] theorem resetBlock_ctrlIdx (s : State) : (resetBlock s).ctrlIdx = none := rfl
@[simp] theorem resetBlock_outLen (s : State) : (resetBlock s).outLen = 0#32 := rfl
@[simp] theorem resetBlock_bestLen (s : State) : (resetBlock s).bestLen = none := rfl
@[simp] theorem resetBlock_bestDist (s : State) : (resetBlock s).bestDist = none := rfl
@[simp] theorem resetBlock_mode (s : State) : (resetBlock s).mode = none := rfl
@[simp] theorem resetBlock_n (s : State) : (resetBlock s).n = none := rfl
@[simp] theorem resetBlock_err (s : State) : (resetBlock s).err = Err.none := rfl
@[simp] theorem resetBlock_inLen (s : State) : (resetBlock s).inLen = none := rfl
@[simp] theorem resetBlock_lenW (s : State) : (resetBlock s).lenW = s.lenW := rfl
@[simp] theorem resetBlock_inMem (s : State) : (resetBlock s).inMem = s.inMem := rfl
@[simp] theorem resetBlock_outMem (s : State) : (resetBlock s).outMem = s.outMem := rfl
@[simp] theorem resetBlock_outCap (s : State) : (resetBlock s).outCap = s.outCap := rfl
@[simp] theorem resetBlock_alloc (s : State) : (resetBlock s).alloc = s.alloc := rfl
@[simp] theorem resetBlock_moves (s : State) : (resetBlock s).moves = s.moves := rfl
@[simp] theorem resetBlock_readings (s : State) : (resetBlock s).readings = s.readings := rfl
@[simp] theorem resetBlock_sched (s : State) : (resetBlock s).sched = s.sched := rfl
@[simp] theorem resetBlock_consumer (s : State) : (resetBlock s).consumer = s.consumer := rfl
@[simp] theorem resetBlock_draws (s : State) : (resetBlock s).draws = s.draws := rfl

/-! ## nextToken -/

@[simp] theorem nextToken_stream (c : Consumer) : c.nextToken.stream = c.stream := rfl
@[simp] theorem nextToken_mode (c : Consumer) : c.nextToken.mode = c.mode := rfl
@[simp] theorem nextToken_pos (c : Consumer) : c.nextToken.pos = c.pos := rfl
@[simp] theorem nextToken_size (c : Consumer) : c.nextToken.size = c.size := rfl
@[simp] theorem nextToken_ctrl (c : Consumer) : c.nextToken.ctrl = c.ctrl := rfl
@[simp] theorem nextToken_out (c : Consumer) : c.nextToken.out = c.out := rfl
@[simp] theorem nextToken_k (c : Consumer) : c.nextToken.k = c.k + 1#3 := rfl

end Sys2Proof.Machine
end

