-- ==== Sys2Proof/Laws/Step.lean ====
section
/-! SUPPORT. What a turn of each agent can be, said once. -/

namespace Sys2Proof.Machine

/-- A step that answers runs what was fetched, or settles on its own. -/
theorem step_next {s t : State} : step s = .next t ↔
    (∃ i u, fetch s = .run i u ∧ exec i u = .next t) ∨ fetch s = .settled (.next t) := by
  unfold step
  cases fetch s <;> simp

/-- A turn is one agent's, in a state whose PHASE and ERR are the machine's. -/
theorem fetch_cases (s : State) :
    (12 ≤ s.phase.toNat ∧ fetch s = stop .reservedPhase) ∨
      (s.err = Err.reserved ∧ fetch s = stop .reservedErr) ∨
      (s.phase.toNat < 12 ∧ s.err ≠ Err.reserved ∧
        ((s.mover = .engine ∧ fetch s = engineFetch s.popTurn) ∨
          (s.mover = .host ∧ fetch s = hostFetch s.popTurn) ∨
          (s.mover = .consumer ∧ fetch s = consumerFetch s.popTurn))) := by
  unfold fetch
  by_cases hp : 12 ≤ s.phase.toNat
  · exact .inl ⟨hp, if_pos hp⟩
  · by_cases he : s.err = Err.reserved
    · exact .inr (.inl ⟨he, by rw [if_neg hp, if_pos he]⟩)
    · refine .inr (.inr ⟨Nat.not_le.mp hp, he, ?_⟩)
      rw [if_neg hp, if_neg he]
      cases s.mover <;> simp

/-- PHASE is one of its sixteen codes. -/
theorem phase_cases (p : BitVec 4) :
    p = 0#4 ∨ p = 1#4 ∨ p = 2#4 ∨ p = 3#4 ∨ p = 4#4 ∨ p = 5#4 ∨ p = 6#4 ∨ p = 7#4 ∨ p = 8#4 ∨ p = 9#4 ∨
      p = 10#4 ∨ p = 11#4 ∨ p = 12#4 ∨ p = 13#4 ∨ p = 14#4 ∨ p = 15#4 := by
  revert p; decide

/-- Only EMIT looks at BEST_LEN. -/
theorem longMatch_of_ne {s : State} (h : s.phase ≠ Phase.emit) : longMatch s = .ok false := if_neg h

/-- The engine waits in IDLE, DONE and ERROR. -/
theorem engineFetch_waiting {s : State} (h : s.waiting = true) : engineFetch s = goOn s := by
  have hw : s.phase = 0#4 ∨ s.phase = 10#4 ∨ s.phase = 11#4 := by
    simpa [State.waiting, Bool.or_eq_true, or_assoc] using h
  rcases hw with h | h | h <;>
    simp [engineFetch, longMatch_of_ne (s := s) (by rw [h]; decide), h, decode, decodePhase, phaseInstr]

/-- What the engine fetches in each PHASE but EMIT. -/
theorem engineFetch_run {s : State} {i : Instr} (hne : s.phase ≠ Phase.emit)
    (h : phaseInstr s.phase false = .ok i) : engineFetch s = .run i s := by
  have hlt : s.phase.toNat % 256 < 16 := by have := s.phase.isLt; omega
  have hback : (s.phase.setWidth 8).setWidth 4 = s.phase := by
    apply BitVec.eq_of_toNat_eq; have := s.phase.isLt; simp
  simp [engineFetch, longMatch_of_ne hne, decode, decodePhase, hback, h, hlt]

/-- What the engine fetches in EMIT (R97). -/
theorem engineFetch_emit {s : State} {len : BitVec 5} (hp : s.phase = Phase.emit) (hlen : s.bestLen = some len) :
    engineFetch s = .run (if Config.minMatch ≤ len.toNat then .emitRef else .emitLit) s := by
  by_cases h : Config.minMatch ≤ len.toNat <;>
    simp [engineFetch, longMatch, hp, hlen, bind, Except.bind, decode, decodePhase, phaseInstr, h]

/-- The engine's turn in a PHASE the machine has: waiting, one micro-operation, or EMIT without a match (R68). -/
theorem engineFetch_cases {s : State} (hp : s.phase.toNat < 12) :
    (s.waiting = true ∧ engineFetch s = goOn s) ∨
      (s.phase = Phase.check ∧ engineFetch s = .run .check s) ∨
      (s.phase = Phase.alloc ∧ engineFetch s = .run .alloc s) ∨
      (s.phase = Phase.header ∧ engineFetch s = .run .header s) ∨
      (s.phase = Phase.loop ∧ engineFetch s = .run .loop s) ∨
      (s.phase = Phase.openGroup ∧ engineFetch s = .run .openGroup s) ∨
      (s.phase = Phase.search ∧ engineFetch s = .run .search s) ∨
      (s.phase = Phase.emit ∧ s.bestLen = none ∧ engineFetch s = stop (.noValue .bestLen)) ∨
      (s.phase = Phase.emit ∧ (∃ len, s.bestLen = some len ∧ len.toNat < Config.minMatch) ∧
        engineFetch s = .run .emitLit s) ∨
      (s.phase = Phase.emit ∧ (∃ len, s.bestLen = some len ∧ Config.minMatch ≤ len.toNat) ∧
        engineFetch s = .run .emitRef s) ∨
      (s.phase = Phase.advance ∧ engineFetch s = .run .advance s) ∨
      (s.phase = Phase.finish ∧ engineFetch s = .run .finish s) := by
  have run : ∀ {p : BitVec 4} {i : Instr}, s.phase = p → p ≠ Phase.emit → phaseInstr p false = .ok i →
      engineFetch s = .run i s := fun h hne hi => engineFetch_run (by rwa [h]) (by rwa [h])
  rcases phase_cases s.phase with h | h | h | h | h | h | h | h | h | h | h | h | h | h | h | h
  · exact .inl ⟨by simp [State.waiting, h], engineFetch_waiting (by simp [State.waiting, h])⟩
  · exact .inr (.inl ⟨h, run h (by decide) rfl⟩)
  · exact .inr (.inr (.inl ⟨h, run h (by decide) rfl⟩))
  · exact .inr (.inr (.inr (.inl ⟨h, run h (by decide) rfl⟩)))
  · exact .inr (.inr (.inr (.inr (.inl ⟨h, run h (by decide) rfl⟩))))
  · exact .inr (.inr (.inr (.inr (.inr (.inl ⟨h, run h (by decide) rfl⟩)))))
  · exact .inr (.inr (.inr (.inr (.inr (.inr (.inl ⟨h, run h (by decide) rfl⟩))))))
  · refine .inr (.inr (.inr (.inr (.inr (.inr (.inr ?_))))))
    cases hl : s.bestLen with
    | none => exact .inl ⟨h, rfl, by simp [engineFetch, longMatch, h, hl, need, bind, Except.bind]⟩
    | some len =>
      have hf := engineFetch_emit h hl
      by_cases hlen : Config.minMatch ≤ len.toNat
      · exact .inr (.inr (.inl ⟨h, ⟨len, rfl, hlen⟩, by rw [hf, if_pos hlen]⟩))
      · exact .inr (.inl ⟨h, ⟨len, rfl, Nat.not_le.mp hlen⟩, by rw [hf, if_neg hlen]⟩)
  · exact .inr (.inr (.inr (.inr (.inr (.inr (.inr (.inr (.inr (.inr (.inl ⟨h, run h (by decide) rfl⟩))))))))))
  · exact .inr (.inr (.inr (.inr (.inr (.inr (.inr (.inr (.inr (.inr (.inr ⟨h, run h (by decide) rfl⟩))))))))))
  · exact .inl ⟨by simp [State.waiting, h], engineFetch_waiting (by simp [State.waiting, h])⟩
  · exact .inl ⟨by simp [State.waiting, h], engineFetch_waiting (by simp [State.waiting, h])⟩
  all_goals rw [h] at hp; exact absurd hp (by decide)

/-- The consumer's turn: nothing, an element in its place, or a stream that ends or does not begin (R136). -/
theorem consumerFetch_cases (s : State) :
    (consumerFetch s = goOn s ∧ (s.consumer.stage = .idle ∨ s.consumer.stage = .done)) ∨
      (s.consumer.stage = .header ∧
        ((∃ size, consumerFetch s = .run (.hdr size) s) ∨ consumerFetch s = stop .badMagic)) ∨
      (s.consumer.stage = .control ∧
        ((∃ c, consumerFetch s = .run (.ctrl c) s) ∨ consumerFetch s = stop .truncated)) ∨
      (s.consumer.stage = .token ∧
        ((∃ b, consumerFetch s = .run (.lit b) s) ∨ (∃ l d, consumerFetch s = .run (.ref l d) s) ∨
          consumerFetch s = stop .truncated)) := by
  unfold consumerFetch Consumer.selector
  cases hst : s.consumer.stage <;> dsimp only
  · exact .inl ⟨rfl, .inl rfl⟩
  · refine .inr (.inl ⟨rfl, ?_⟩)
    simp only [decode]
    unfold decodeHeader
    split
    · rename_i heq; split at heq
      · split at heq
        · cases heq; exact .inl ⟨_, rfl⟩
        · cases heq
      · cases heq
    · exact .inr rfl
    · rename_i hne heq; split at heq
      · split at heq
        · cases heq
        · cases heq; exact absurd rfl hne
      · cases heq; exact absurd rfl hne
  · refine .inr (.inr (.inl ⟨rfl, ?_⟩))
    cases s.consumer.stream.drop s.consumer.pos with
    | nil => exact .inr rfl
    | cons c cs => exact .inl ⟨c, rfl⟩
  · refine .inr (.inr (.inr ⟨rfl, ?_⟩))
    cases flagOf s.consumer.ctrl s.consumer.k.toNat
    · cases s.consumer.stream.drop s.consumer.pos with
      | nil => exact .inr (.inr rfl)
      | cons b bs => exact .inl ⟨b, rfl⟩
    · rcases s.consumer.stream.drop s.consumer.pos with _ | ⟨b0, _ | ⟨b1, bs⟩⟩
      · exact .inr (.inr rfl)
      · exact .inr (.inr rfl)
      · exact .inr (.inl ⟨_, _, rfl⟩)
  · exact .inl ⟨rfl, .inr rfl⟩

/-- A CMD write: one of the two commands, or no effect (R26, R69). -/
theorem commandWrite_cases (b : Byte) (s : State) :
    (b.getLsbD 0 = true ∧ (commandWrite b s = .run .startM0 s ∨ commandWrite b s = .run .startM1 s)) ∨
      (b.getLsbD 0 = false ∧ commandWrite b s = goOn s) := by
  unfold commandWrite
  simp only [decode, decodeCommand]
  cases b.getLsbD 0 <;> cases b.getLsbD 1 <;> simp

/-- A write to IN_LEN: taken if it fits, else the fault (R8, R27; log 9). -/
theorem inLenWrite_cases (v : Nat) (s : State) :
    (v < 2 ^ s.lenW ∧ inLenWrite v s = goOn { s with inLen := some v }) ∨
      (2 ^ s.lenW ≤ v ∧ inLenWrite v s = stop .doesNotFit) := by
  unfold inLenWrite
  split
  · exact .inl ⟨‹_›, rfl⟩
  · exact .inr ⟨Nat.not_lt.mp ‹_›, rfl⟩

end Sys2Proof.Machine
end

