-- ==== Sys2Proof/Tests/Slice0.lean ====
section
/-! SUPPORT. Tests: ill-formed terms refused, every constructor's word written out from spec/30_encoding.md, single steps
with the expected values of the spec's worked examples and of spec/95_test_vectors.md, and for every statement with
hypotheses a witness that meets them together. -/

namespace Sys2Proof.Tests

open Sys2Proof Sys2Proof.Machine

/-! ## WellFormed (R58, R63) -/

theorem test_wf_hdr_too_large : (Instr.hdr 0x1000000).wellFormed = false := by decide
theorem test_wf_ref_short : (Instr.ref 2 5).wellFormed = false := by decide
theorem test_wf_ref_long : (Instr.ref 19 5).wellFormed = false := by decide
theorem test_wf_ref_near : (Instr.ref 3 0).wellFormed = false := by decide
theorem test_wf_ref_far : (Instr.ref 3 4097).wellFormed = false := by decide

/-! ## Words (R58 to R70; V-S3, V-T1) -/

/-- V-S3: N = 0x123456 is `10 56 34 12`. -/
theorem test_word_hdr : decode .header [0b00010000#8, 0x56#8, 0x34#8, 0x12#8] = .ok (.hdr 0x123456, []) := by rfl
theorem test_word_ctrl : decode .control [0b00010000#8] = .ok (.ctrl 0x10#8, []) := by rfl
theorem test_word_lit : decode (.token false) [0b01000001#8] = .ok (.lit 0x41#8, []) := by rfl
/-- V-T1f: `60 02` is 9, 3; V-T1c: `0F FF` is 3, 4096. -/
theorem test_word_ref : decode (.token true) [0b01100000#8, 0b00000010#8] = .ok (.ref 9 3, []) ∧
    decode (.token true) [0x0F#8, 0xFF#8] = .ok (.ref 3 4096, []) := ⟨rfl, rfl⟩
/-- V-T1m, the other way round: 7, 257 is `41 00`. -/
theorem test_encode_ref : encode (.ref 7 257) = [0x41#8, 0x00#8] := by decide
theorem test_word_startM0 : decode .command [0b00000001#8] = .ok (.startM0, []) := by rfl
theorem test_word_startM1 : decode .command [0b00000011#8] = .ok (.startM1, []) := by rfl
theorem test_word_check : decode (.phase false) [0b0001#8] = .ok (.check, []) := by rfl
theorem test_word_alloc : decode (.phase false) [0b0010#8] = .ok (.alloc, []) := by rfl
theorem test_word_header : decode (.phase false) [0b0011#8] = .ok (.header, []) := by rfl
theorem test_word_loop : decode (.phase false) [0b0100#8] = .ok (.loop, []) := by rfl
theorem test_word_openGroup : decode (.phase false) [0b0101#8] = .ok (.openGroup, []) := by rfl
theorem test_word_search : decode (.phase false) [0b0110#8] = .ok (.search, []) := by rfl
theorem test_word_emitLit : decode (.phase false) [0b0111#8] = .ok (.emitLit, []) := by rfl
theorem test_word_emitRef : decode (.phase true) [0b0111#8] = .ok (.emitRef, []) := by rfl
theorem test_word_advance : decode (.phase false) [0b1000#8] = .ok (.advance, []) := by rfl
theorem test_word_finish : decode (.phase false) [0b1001#8] = .ok (.finish, []) := by rfl
/-- R68: IDLE, DONE and ERROR select nothing; R17: 12 to 15 are reserved. -/
theorem test_word_no_phase : decode (.phase false) [0x0A#8] = .error .waits ∧
    decode (.phase false) [0x0C#8] = .error .reservedPhase ∧ decode (.phase false) [0x0F#8] = .error .reservedPhase :=
  ⟨rfl, rfl, rfl⟩
/-- The table's HDR row, match 0x10000000. -/
theorem test_table_word_hdr : decodeTableWord 32 0x10000000 = some (.hdr 0) := by decide

/-! ## Small states -/

/-- The bytes as the cells from address `a` on. -/
def cells (a : Nat) : List Byte → Mem
  | [] => []
  | b :: bs => (a, b) :: cells (a + 1) bs

def abc : List Byte := [0x41#8, 0x42#8, 0x43#8, 0x41#8, 0x42#8, 0x43#8, 0x41#8, 0x42#8, 0x43#8, 0x41#8, 0x42#8, 0x43#8]
def aaaa : List Byte := [0x41#8, 0x41#8, 0x41#8, 0x41#8]

/-- After START with `xs` in IN. -/
def started (xs : List Byte) : State :=
  { State.reset with phase := Phase.check, inMem := cells 0 xs, inLen := some xs.length, n := some xs.length,
                     mode := some 0#1 }

/-- P1 after its step 18: before EMIT_REF. -/
def p1 : State :=
  { started abc with
    phase := Phase.emit, cursor := some 3#24, grp := some 3#3, ctrlIdx := some 4#32, outLen := 8#32,
    bestLen := some 9#5, bestDist := some 3#13, outCap := some 29,
    outMem := cells 0 [0x10#8, 0x0C#8, 0x00#8, 0x00#8, 0x00#8, 0x41#8, 0x42#8, 0x43#8] }

/-- The run of V-C2 at EMIT: one byte, no match. -/
def one : State :=
  { started [0x41#8] with
    phase := Phase.emit, cursor := some 0#24, grp := some 0#3, ctrlIdx := some 4#32, outLen := 5#32,
    bestLen := some 0#5, bestDist := some 0#13, outCap := some 7,
    outMem := cells 0 [0x10#8, 0x01#8, 0x00#8, 0x00#8, 0x00#8] }

/-- The run of V-C3a at DONE. -/
def finished : State :=
  { started aaaa with
    phase := Phase.done, cursor := some 4#24, grp := some 2#3, ctrlIdx := some 4#32, outLen := 8#32,
    bestLen := some 3#5, bestDist := some 1#13, outCap := some 13,
    outMem := cells 0 [0x10#8, 0x04#8, 0x00#8, 0x00#8, 0x40#8, 0x41#8, 0x00#8, 0x00#8] }

/-- A consumer that read V-D2's header, control byte and literal. -/
def reading : Consumer :=
  { stream := [0x10#8, 0x04#8, 0x00#8, 0x00#8, 0x40#8, 0x41#8, 0x00#8, 0x00#8], mode := 0#1, pos := 6, stage := .token,
    size := 4, ctrl := 0x40#8, k := 1#3, out := [0x41#8] }

/-- What of the next state is looked at; none where the machine stops. -/
def look {α : Type} (f : State → α) : Host.Outcome State Fault Refusal → Option α
  | .next s => some (f s)
  | .fault _ => none
  | .refused _ => none

/-! ## Single steps -/

/-- Worked example of R115: IN_LEN = 4 and CMD 0x03. -/
theorem test_start_m1 : look (fun t => (t.n, t.mode, t.err, t.outLen, t.phase))
    (exec .startM1 { State.reset with inLen := some 4 }) = some (some 4, some 1#1, 0#2, 0#32, 1#4) := by decide
/-- V-E5's start: out of ERROR with ERR = 2. -/
theorem test_start_m0_clears_err : look (fun t => (t.err, t.phase, t.mode))
    (exec .startM0 { State.reset with inLen := some 4, phase := Phase.error, err := 2#2 }) = some (0#2, 1#4, some 0#1) := by
  decide
/-- V-E6: START in BUSY. -/
theorem test_start_busy_ignored : look (fun t => (t.phase, t.mode, t.outLen)) (exec .startM1 p1) =
    some (7#4, some 0#1, 8#32) := by decide
/-- Worked example of R117, V-E1. -/
theorem test_check_oversized : look (fun t => (t.err, t.phase, t.statusByte.toOption))
    (exec .check { started [] with n := some 0x1000000 }) = some (1#2, 11#4, some 0x07#8) := by decide
/-- V-E2: the largest length passes. -/
theorem test_check_largest : look (fun t => (t.err, t.phase)) (exec .check { started [] with n := some 0xFFFFFF }) =
    some (0#2, 2#4) := by decide
/-- Worked example of R118: N = 4, a 13-byte OUT. -/
theorem test_alloc_granted : look (fun t => (t.outCap, t.phase)) (exec .alloc (started aaaa)) = some (some 13, 3#4) := by
  decide
/-- V-E3. -/
theorem test_alloc_refused : look (fun t => (t.err, t.phase, t.statusByte.toOption))
    (exec .alloc { started aaaa with alloc := .refused }) = some (2#2, 11#4, some 0x0B#8) := by decide
/-- V-S3: N = 0xFFFFFF. -/
theorem test_header : look (fun t => (t.outMem, t.outLen, t.cursor, t.grp, t.phase))
    (exec .header { started [] with n := some 0xFFFFFF, outCap := some 0x2000003 }) =
    some (cells 0 [0x10#8, 0xFF#8, 0xFF#8, 0xFF#8], 4#32, some 0#24, some 0#3, 4#4) := by rfl
/-- Worked example of R95: CURSOR = 8, N = 11, GRP = 0. -/
theorem test_loop_open : look (·.phase) (exec .loop { p1 with cursor := some 8#24, n := some 11, grp := some 0#3 }) =
    some 5#4 := by decide
/-- R95: at the end of the input no control byte is opened, even with GRP = 0. -/
theorem test_loop_end : look (·.phase) (exec .loop { p1 with cursor := some 12#24, grp := some 0#3 }) = some 9#4 := by
  decide
/-- Worked example of R96: OUT_LEN = 4. -/
theorem test_open : look (fun t => (t.ctrlIdx, Mem.read t.outMem 4, t.outLen, t.phase))
    (exec .openGroup { p1 with outLen := 4#32, outMem := [] }) = some (some 4#32, some 0x00#8, 5#32, 6#4) := by decide
/-- Worked example of R89, V-M2: (3, 1), past the cursor. -/
theorem test_search : look (fun t => (t.bestLen, t.bestDist, t.phase))
    (exec .search { started aaaa with cursor := some 1#24 }) = some (some 3#5, some 1#13, 7#4) := by decide
/-- V-M4: mode 1, cursor 2 gives (2, 2). -/
theorem test_search_mode1 : look (fun t => (t.bestLen, t.bestDist))
    (exec .search { started aaaa with cursor := some 2#24, mode := some 1#1 }) = some (some 2#5, some 2#13) := by decide
/-- V-M19: of two matches of length 2, at distances 6 and 3, the farthest wins. -/
theorem test_match_find_tie :
    matchFind [0x41#8, 0x42#8, 0x58#8, 0x41#8, 0x42#8, 0x59#8, 0x41#8, 0x42#8] 6 0 = (2, 6) := by decide
/-- Worked example of R98: IN = 41 42, CURSOR = 1, OUT_LEN = 6. -/
theorem test_emit_lit : look (fun t => (Mem.read t.outMem 6, t.outLen, t.cursor, t.phase))
    (exec .emitLit { one with inMem := cells 0 [0x41#8, 0x42#8], n := some 2, cursor := some 1#24, outLen := 6#32 }) =
    some (some 0x42#8, 7#32, some 2#24, 8#4) := by decide
/-- Worked example of R99, P1 step 19. -/
theorem test_emit_ref : look (fun t => (Mem.read t.outMem 8, Mem.read t.outMem 9, Mem.read t.outMem 4)) (exec .emitRef p1) =
    some (some 0x60#8, some 0x02#8, some 0x10#8) := by decide
/-- The same step: the registers. -/
theorem test_emit_ref_registers : look (fun t => (t.outLen, t.cursor, t.grp, t.phase)) (exec .emitRef p1) =
    some (10#32, some 12#24, some 3#3, 8#4) := by decide
/-- Worked example of R100: GRP = 7. -/
theorem test_advance_wraps : look (fun t => (t.grp, t.phase)) (exec .advance { p1 with grp := some 7#3 }) =
    some (some 0#3, 4#4) := by decide
/-- Worked example of R120: OUT_LEN = 8. -/
theorem test_finish : look (fun t => (t.outLen, t.phase)) (exec .finish p1) = some (8#32, 10#4) := by decide
/-- V-D1: an empty stream's header ends the decoding. -/
theorem test_hdr_empty : look (fun t => (t.consumer.stage, t.consumer.pos, t.consumer.out))
    (exec (.hdr 0) { State.reset with consumer := Consumer.fed [0x10#8, 0x00#8, 0x00#8, 0x00#8] 0#1 }) =
    some (.done, 4, []) := by decide
theorem test_ctrl : look (fun t => (t.consumer.ctrl, t.consumer.k, t.consumer.stage)) (exec (.ctrl 0x40#8) State.reset) =
    some (0x40#8, 0#3, .token) := by decide
/-- V-D5: the first byte of a stream of size 1 ends it. -/
theorem test_lit_last : look (fun t => (t.consumer.out, t.consumer.stage))
    (exec (.lit 0x41#8) { State.reset with consumer := { Consumer.empty with size := 1, stage := .token } }) =
    some ([0x41#8], .done) := by decide
/-- V-D2: a copy that reads what it wrote. -/
theorem test_ref_overlap : look (fun t => (t.consumer.out, t.consumer.pos, t.consumer.stage))
    (exec (.ref 3 1) { State.reset with consumer := reading }) = some (aaaa, 8, .done) := by decide
/-- V-D3, V-D11, V-D13: distance 1 for the 16-bit target, distance 2 with one byte decoded, a copy of 3 past size 3. -/
theorem test_ref_faults :
    exec (.ref 3 1) { State.reset with consumer := { reading with mode := 1#1 } } = .fault .badDistance ∧
    exec (.ref 3 2) { State.reset with consumer := reading } = .fault .badDistance ∧
    exec (.ref 3 1) { State.reset with consumer := { reading with size := 3 } } = .fault .overrun := ⟨rfl, rfl, rfl⟩
/-- V-C3a and V-C3b: the whole function on four equal bytes. -/
theorem test_compress : compressBytes aaaa 0#1 = [0x10#8, 0x04#8, 0x00#8, 0x00#8, 0x40#8, 0x41#8, 0x00#8, 0x00#8] ∧
    compressBytes aaaa 1#1 = [0x10#8, 0x04#8, 0x00#8, 0x00#8, 0x00#8, 0x41#8, 0x41#8, 0x41#8, 0x41#8] := by decide
/-- V-D2 and V-D4's mode rule on the reference decoder. -/
theorem test_decode : (decodeStream [0x10#8, 0x04#8, 0x00#8, 0x00#8, 0x40#8, 0x41#8, 0x00#8, 0x00#8] 0#1).toOption =
    some (aaaa, 8) := by decide
/-- A word placed at reset runs in the next step. -/
theorem test_placed_word_runs : look (·.phase) (step (State.reset.withFetchWord 8 0x01)) = some 2#4 ∧
    look (·.consumer.size) (step (State.reset.withFetchWord 32 0x10030000)) = some 3 := by decide

/-! ## Witnesses: states and operands that meet the hypotheses of the statements together -/

/-- DecodeOfEncodeIsTheInstruction, ReferenceFieldsAreTheLayout, at both ends of each field. -/
theorem test_witness_well_formed : (Instr.hdr 0).WellFormed ∧ (Instr.hdr 0xFFFFFF).WellFormed ∧
    (Instr.ref 3 1).WellFormed ∧ (Instr.ref 18 4096).WellFormed ∧ Instr.check.WellFormed := by decide
/-- DecodedInstructionReencodesToItsBytes, a stream's element and a command. -/
theorem test_witness_decoded : decode .header [0x10#8, 0xFF#8, 0xFF#8, 0xFF#8, 0x07#8] = .ok (.hdr 0xFFFFFF, [0x07#8]) ∧
    Selector.header ≠ .command ∧ decode .command [0xFF#8] = .ok (.startM1, []) := ⟨rfl, by decide, rfl⟩
/-- CommandByteUsesOnlyItsTwoLowBits, one byte for each clause. -/
theorem test_witness_command_byte : (0xFE#8).getLsbD 0 = false ∧ ((0xFD#8).getLsbD 0 = true ∧ (0xFD#8).getLsbD 1 = false) ∧
    ((0xFF#8).getLsbD 0 = true ∧ (0xFF#8).getLsbD 1 = true) := by decide
/-- StepRunsTheDecodedInstruction, the engine's clause, with EMIT's two forms. -/
theorem test_witness_step_engine : p1.phase.toNat < 12 ∧ p1.err ≠ Err.reserved ∧ p1.mover = .engine ∧
    longMatch p1 = .ok true ∧ decode (.phase true) [p1.phase.setWidth 8] = .ok (.emitRef, []) ∧
    longMatch one = .ok false ∧ one.mover = .engine := ⟨by decide, by decide, rfl, rfl, rfl, rfl, rfl⟩
/-- StepRunsTheDecodedInstruction, the host's clause. -/
theorem test_witness_step_host : ({ State.reset with moves := [.wrCmd 0xFD#8] }).mover = .host ∧
    State.reset.phase.toNat < 12 ∧ State.reset.err ≠ Err.reserved ∧ decode .command [0xFD#8] = .ok (.startM0, []) :=
  ⟨rfl, by decide, by decide, rfl⟩
/-- StepRunsTheDecodedInstruction, the consumer's clause. -/
theorem test_witness_step_consumer : ({ State.reset with consumer := reading }).mover = .consumer ∧
    reading.selector = some (.token true) ∧
    decode (.token true) (reading.stream.drop reading.pos) = .ok (.ref 3 1, []) := ⟨rfl, rfl, rfl⟩
/-- ReservedCodesStopEveryStep, where its clauses meet. -/
theorem test_witness_reserved : 12 ≤ ({ State.reset with phase := 12#4 }).phase.toNat ∧
    ({ State.reset with phase := 11#4, err := 3#2 }).phase.toNat < 12 ∧
    ({ State.reset with phase := 11#4, err := 3#2 }).err = Err.reserved := by decide
/-- Both reserved codes at once: PHASE's fault is named (the model's choice: log 21). -/
theorem test_both_reserved_codes : step { State.reset with phase := 12#4, err := 3#2 } = .fault .reservedPhase := by rfl
/-- EmitDispatchesOnBestLen, at lengths 2 and 3. -/
theorem test_witness_emit : p1.phase = Phase.emit ∧ p1.err ≠ Err.reserved ∧
    ({ p1 with bestLen := some 2#5 }).mover = .engine ∧ ({ p1 with bestLen := some 3#5 }).mover = .engine := by decide
/-- WaitingEndsOnlyByStartOrReset, the engine's turn in IDLE. -/
theorem test_witness_waiting : State.reset.phase = Phase.idle ∧ ({ State.reset with sched := [.engine] }).mover = .engine ∧
    step { State.reset with sched := [.engine] } = .next State.reset := ⟨rfl, rfl, rfl⟩
/-- WaitingEndsOnlyByStartOrReset, START leaving DONE and reset leaving ERROR. -/
theorem test_witness_waiting_ends :
    look (·.phase) (step { finished with moves := [.wrCmd 0x01#8] }) = some Phase.check ∧
    look (·.phase) (step { State.reset with phase := Phase.error, err := 1#2, moves := [.reset] }) = some Phase.idle := by
  decide
/-- StartLatchesItsArguments, with and without a length, in IDLE, DONE and ERROR. -/
theorem test_witness_start : (State.reset.phase = Phase.idle ∧ State.reset.inLen = none) ∧
    (finished.phase = Phase.done ∧ finished.inLen = some 4) ∧
    ({ finished with phase := Phase.error, inLen := none }).inLen = none := by decide
/-- StartDuringBusyHasNoEffect and HostDutiesAreRefused, in CHECK and FINISH. -/
theorem test_witness_busy : 1 ≤ (started aaaa).phase.toNat ∧ (started aaaa).phase.toNat ≤ 9 ∧
    ({ started aaaa with phase := Phase.finish }).phase.toNat = 9 ∧
    ({ started aaaa with sched := [.host], moves := [.wrIn 0 0x00#8] }).mover = .host ∧
    ({ started aaaa with sched := [.host], moves := [.wrOut 0 0x00#8] }).mover = .host ∧
    ({ started aaaa with sched := [.host], moves := [.feedResult 0#1] }).mover = .host ∧
    (started aaaa).err ≠ Err.reserved := by decide
/-- CheckTestsTheSize, where its clauses meet. -/
theorem test_witness_check : (started aaaa).n = some 4 ∧ ({ started [] with n := some 0xFFFFFF }).n = some 0xFFFFFF ∧
    ({ started [] with n := some 0x1000000 }).n = some 0x1000000 := by decide
/-- AllocTakesTheAnswer, both answers. -/
theorem test_witness_alloc : (started aaaa).n = some 4 ∧ (started aaaa).alloc = .granted 0 ∧
    ({ started aaaa with alloc := .refused }).alloc = .refused := by decide
/-- ErrorEntryChangesErrAndPhaseOnly. -/
theorem test_witness_error_entry : (started aaaa).phase ≠ Phase.error ∧
    exec .alloc { started aaaa with alloc := .refused } =
      .next { started aaaa with alloc := .refused, err := 2#2, phase := Phase.error } := ⟨by decide, rfl⟩
/-- HeaderWritesFourBytes, with room for four bytes exactly. -/
theorem test_witness_header : ({ started abc with outCap := some 4 }).n = some 12 ∧
    ({ started abc with outCap := some 4 }).outCap = some 4 := by decide
/-- LoopChoosesThePhase, its three outcomes. -/
theorem test_witness_loop : p1.cursor = some 3#24 ∧ p1.n = some 12 ∧ p1.grp = some 3#3 ∧ one.grp = some 0#3 ∧
    one.cursor = some 0#24 ∧ one.n = some 1 ∧ finished.cursor = some 4#24 ∧ finished.n = some 4 := by decide
/-- OpenPlacesAControlByte, at the last byte of the granted space. -/
theorem test_witness_open : ({ p1 with outCap := some 9 }).outCap = some 9 ∧ p1.outLen.toNat < 9 ∧
    p1.outLen.toNat + 1 < 2 ^ 32 := by decide
/-- SearchLatchesMatchFind, at the first and the last cursor. -/
theorem test_witness_search : (started aaaa).n = some 4 ∧ (started aaaa).mode = some 0#1 ∧ (3#24).toNat < 4 ∧
    inBytes (started aaaa).inMem 4 = .ok aaaa ∧ ({ started aaaa with cursor := some 3#24 }).cursor = some 3#24 :=
  ⟨rfl, rfl, by decide, rfl, rfl⟩
/-- SearchDependsOnlyOnItsArguments: V-M2 in two states that differ elsewhere. -/
theorem test_witness_search_twice :
    look (fun t => (t.bestLen, t.bestDist)) (exec .search { started aaaa with cursor := some 1#24 }) =
      some (some 3#5, some 1#13) ∧
    look (fun t => (t.bestLen, t.bestDist)) (exec .search { started aaaa with cursor := some 1#24, outLen := 9#32 }) =
      some (some 3#5, some 1#13) ∧ (started aaaa).n = some 4 := by decide
/-- EmitLitCopiesTheInputByte, at the input's last byte and the granted space's last one. -/
theorem test_witness_emit_lit : one.n = some 1 ∧ one.cursor = some 0#24 ∧ (0#24).toNat < 1 ∧
    Mem.read one.inMem 0 = some 0x41#8 ∧ ({ one with outCap := some 6 }).outCap = some 6 ∧ one.outLen.toNat < 6 ∧
    one.outLen.toNat + 1 < 2 ^ 32 ∧ (0#24).toNat + 1 < 2 ^ 24 := by decide
/-- EmitRefWritesTheReference, with the two bytes the last of the granted space. -/
theorem test_witness_emit_ref : p1.bestLen = some 9#5 ∧ p1.bestDist = some 3#13 ∧ p1.grp = some 3#3 ∧
    p1.ctrlIdx = some 4#32 ∧ p1.cursor = some 3#24 ∧ Mem.read p1.outMem 4 = some 0x00#8 ∧ (4#32).toNat < p1.outLen.toNat ∧
    ({ p1 with outCap := some 10 }).outCap = some 10 ∧ p1.outLen.toNat + 1 < 10 ∧ p1.outLen.toNat + 2 < 2 ^ 32 ∧
    (3#24).toNat + (9#5).toNat < 2 ^ 24 := by decide
/-- The same at the ends of the fields: lengths 3 and 18, distances 1 and 4096. -/
theorem test_witness_emit_ref_ends : 3 ≤ (3#5).toNat ∧ (18#5).toNat ≤ 18 ∧ 1 ≤ (1#13).toNat ∧ (4096#13).toNat ≤ 4096 := by
  decide
/-- AdvanceCountsModuloEight, at the last token of a group. -/
theorem test_witness_advance : ({ p1 with grp := some 7#3 }).grp = some 7#3 := by decide
/-- RegistersWithoutValueFault: the state after reset. -/
theorem test_witness_no_value : State.reset.n = none ∧ State.reset.cursor = none ∧ State.reset.bestLen = none ∧
    State.reset.grp = none := by decide
/-- MatchLengthIsTheLargest: V-M18's match of 2 bytes below the cap of 3. -/
theorem test_witness_match_length :
    matchLen [0x41#8, 0x42#8, 0x43#8, 0x41#8, 0x42#8, 0x44#8] 0 3 3 = 2 := by decide
/-- MatchFindClosedForm: V-M1 without a candidate, V-M2 with one. -/
theorem test_witness_closed_form : 0 < aaaa.length ∧ matchFind aaaa 0 0 = (0, 0) ∧ matchFind aaaa 1 0 = (3, 1) ∧
    matchLen aaaa (1 - 1) 1 (min (aaaa.length - 1) 18) = 3 ∧ 0 + 1 ≤ 1 ∧ 1 ≤ min 1 4096 := by decide
/-- LitAppendsItsByte, at the last byte and at the last token of a group. -/
theorem test_witness_lit : ({ reading with size := 2 }).out.length < ({ reading with size := 2 }).size ∧
    ({ reading with k := 7#3 }).k = 7#3 ∧ reading.out.length < reading.size := by decide
/-- RefCopiesByteByByte: the farthest distance there is, up to `size`. -/
theorem test_witness_ref : 1 ≤ 1 ∧ 1 ≤ reading.out.length ∧ (reading.mode = 1#1 → 1 ≠ 1) ∧
    reading.out.length + 3 ≤ reading.size := by decide
/-- DecoderFaultsOnIllegalTokens, each clause. -/
theorem test_witness_illegal : reading.out.length < 2 ∧ ({ reading with mode := 1#1 }).mode = 1#1 ∧
    ({ reading with size := 3 }).size < reading.out.length + 3 ∧ ({ reading with size := 1 }).size ≤ reading.out.length := by
  decide
/-- BadStreamsStopTheConsumer: V-D6, V-D7, V-D8 and V-D10. -/
theorem test_witness_bad_streams :
    (Consumer.fed [0x10#8, 0x00#8, 0x00#8] 0#1).stream.length < 4 ∧
    (Consumer.fed [0x11#8, 0x00#8, 0x00#8, 0x00#8] 0#1).stream[0]? ≠ some 0x10#8 ∧
    (Consumer.fed [] 0#1).stage = .header ∧ (Consumer.fed [] 0#1).pos = 0 ∧
    ({ reading with stream := reading.stream.take 4, pos := 4, stage := .control }).stream.length ≤ 4 ∧
    reading.ctrl.getLsbD (7 - reading.k.toNat) = true ∧
    ({ reading with stream := reading.stream.take 7 }).stream.length < reading.pos + 2 ∧
    ({ State.reset with consumer := reading }).mover = .consumer := by decide
/-- StatusShowsStateAndErr, HostRegisterAccesses: the host's turn with each move. -/
theorem test_witness_host_moves : State.reset.phase.toNat < 12 ∧ State.reset.err ≠ Err.reserved ∧
    ({ State.reset with moves := [.wrStatus 0xFF#8] }).mover = .host ∧
    ({ State.reset with moves := [.rdStatus] }).mover = .host ∧ State.reset.statusByte.toOption = some 0x00#8 ∧ ({ State.reset with moves := [.rdOutLen] }).mover = .host ∧
    ({ State.reset with moves := [.wrOutLen 1#32] }).mover = .host ∧ ({ State.reset with moves := [.wrInLen 4] }).mover = .host ∧
    ({ State.reset with moves := [.wrInLen 0xFFFFFFFF] }).mover = .host ∧ 0xFFFFFFFF < 2 ^ State.reset.lenW ∧
    ({ State.reset with moves := [.wrInLen 0x100000000] }).mover = .host ∧ 2 ^ State.reset.lenW ≤ 0x100000000 ∧
    ({ State.reset with moves := [.rdInLen] }).mover = .host ∧ State.reset.inLen = none ∧ finished.inLen = some 4 ∧
    ({ finished with moves := [.rdInLen] }).mover = .host ∧ ({ State.reset with moves := [.rdCmd] }).mover = .host ∧
    ({ State.reset with moves := [.wrCmd 0xFE#8] }).mover = .host ∧ (0xFE#8).getLsbD 0 = false := by decide
/-- HostReadsOutOnlyAtDone: the last byte of the result, the first past it, and a byte before DONE. -/
theorem test_witness_host_reads : finished.phase = Phase.done ∧ finished.outCap = some 13 ∧ 7 < finished.outLen.toNat ∧
    Mem.read finished.outMem 7 = some 0x00#8 ∧ finished.outLen.toNat ≤ 8 ∧ 8 < 13 ∧ p1.phase ≠ Phase.done ∧
    p1.outCap = some 29 ∧ ({ finished with moves := [.rdOut 7] }).mover = .host ∧
    ({ p1 with sched := [.host], moves := [.rdOut 0] }).mover = .host := by decide
/-- ResetLeavesTheGivenValues: reset in BUSY. -/
theorem test_witness_reset : ({ p1 with sched := [.host], moves := [.reset] }).mover = .host ∧ p1.phase.toNat < 12 ∧
    p1.err ≠ Err.reserved ∧ look (·.phase) (step { p1 with sched := [.host], moves := [.reset] }) = some Phase.idle := by decide
/-- LatchedArgumentsStayDuringARun: V-E6's START and an IN_LEN write. -/
theorem test_witness_latched : 1 ≤ p1.phase.toNat ∧ p1.phase.toNat ≤ 9 ∧
    look (fun t => (t.n, t.mode)) (step { p1 with sched := [.host], moves := [.wrCmd 0x03#8] }) = some (some 12, some 0#1) ∧
    look (fun t => (t.n, t.inLen)) (step { p1 with sched := [.host], moves := [.wrInLen 0] }) = some (some 12, some 0) := by
  decide
/-- ResultStaysUntilStart: V-E7's write of 0x00 to CMD at DONE. -/
theorem test_witness_result_stays : finished.phase = Phase.done ∧
    look (fun t => (t.phase, t.outLen)) (step { finished with moves := [.wrCmd 0x00#8] }) = some (Phase.done, 8#32) := by decide

/-- The invariant holds at EMIT in the run of V-C2. -/
theorem one_inv : Inv one where
  in_wf := rfl
  out_wf := rfl
  len_width := by decide
  len_fits v h := by cases h; decide
  phase_legal := by decide
  err_none _ := rfl
  at_error h := absurd h (by decide)
  out_zero h := absurd h (by decide)
  at_check h := absurd h (by decide)
  at_alloc h := absurd h (by decide)
  at_header h := absurd h (by decide)
  at_loop h := absurd h (by decide)
  at_open h := absurd h (by decide)
  at_search h := absurd h (by decide)
  at_emit _ := by
    refine ⟨⟨⟨⟨rfl, rfl⟩, by decide, ⟨7, rfl, by decide⟩, rfl, rfl, by decide, by decide, ?_, fun h => absurd h (by decide)⟩,
      by decide, ⟨rfl, by decide, by decide⟩, ?_⟩,
      ⟨rfl, rfl, by decide, by decide, fun h => absurd h (by decide), by decide⟩, by decide⟩
    · unfold Written; decide
    · unfold OutBound; decide
  at_advance h := absurd h (by decide)
  at_end h := absurd h (by decide)
  consumer := ⟨fun h => absurd h (by decide), fun h => absurd h (by decide)⟩

/-- StepKeepsTheInvariant, StepKeepsMemoryCanonical, InvariantGivesTheBounds, EngineNeverFaults, EngineOnlyReadsTheInput,
EngineWritesOnlyNewBytesAndTheControlByte. -/
theorem test_witness_invariant : Inv one ∧ one.mover = .engine ∧ InputSupplied one ∧ 3 ≤ one.phase.toNat ∧
    one.phase = Phase.emit ∧ Mem.wf one.inMem = true ∧ Mem.wf one.outMem = true ∧
    look (fun t => (t.phase, Mem.read t.outMem 5)) (step one) = some (Phase.advance, some 0x41#8) :=
  ⟨one_inv, rfl, ⟨[0x41#8], rfl⟩, by decide, rfl, rfl, rfl, by decide⟩
/-- EngineNeverFaults without the input: the byte one's EMIT copies is not there (R172; log 3). -/
theorem test_witness_no_input : Inv { one with inMem := [] } ∧ ({ one with inMem := [] }).mover = .engine ∧
    step { one with inMem := [] } = .fault .inNoValue :=
  ⟨{ one_inv with in_wf := rfl }, rfl, rfl⟩
/-- The invariant holds at DONE in the run of V-C3a: the last clause of InvariantGivesTheBounds. -/
theorem finished_inv : Inv finished where
  in_wf := rfl
  out_wf := rfl
  len_width := by decide
  len_fits v h := by cases h; decide
  phase_legal := by decide
  err_none _ := rfl
  at_error h := absurd h (by decide)
  out_zero h := absurd h (by decide)
  at_check h := absurd h (by decide)
  at_alloc h := absurd h (by decide)
  at_header h := absurd h (by decide)
  at_loop h := absurd h (by decide)
  at_open h := absurd h (by decide)
  at_search h := absurd h (by decide)
  at_emit h := absurd h (by decide)
  at_advance h := absurd h (by decide)
  at_end _ := by
    refine ⟨⟨⟨rfl, rfl⟩, by decide, ⟨13, rfl, by decide⟩, rfl, rfl, by decide, by decide, ?_, fun _ => ⟨⟨rfl, by decide, by decide⟩,
      rfl, rfl, by decide, by decide, ?_, by decide⟩⟩, by decide, by decide⟩
    · unfold Written; decide
    · intro _ m h; cases h; decide
  consumer := ⟨fun h => absurd h (by decide), fun h => absurd h (by decide)⟩

/-- QuiescentStatesShowTheirOutcome: `finished_inv` at DONE, and ERROR after V-E1. -/
theorem error_inv : Inv { State.reset with phase := Phase.error, err := 1#2 } where
  in_wf := rfl
  out_wf := rfl
  len_width := by decide
  len_fits v h := by cases h
  phase_legal := by decide
  err_none h := absurd rfl h
  at_error _ := ⟨.inl rfl, rfl⟩
  out_zero _ := rfl
  at_check h := absurd h (by decide)
  at_alloc h := absurd h (by decide)
  at_header h := absurd h (by decide)
  at_loop h := absurd h (by decide)
  at_open h := absurd h (by decide)
  at_search h := absurd h (by decide)
  at_emit h := absurd h (by decide)
  at_advance h := absurd h (by decide)
  at_end h := absurd h (by decide)
  consumer := ⟨fun h => absurd h (by decide), fun h => absurd h (by decide)⟩

/-- The invariant holds right after START. -/
theorem started_inv : Inv (started aaaa) where
  in_wf := rfl
  out_wf := rfl
  len_width := by decide
  len_fits v h := by cases h; decide
  phase_legal := by decide
  err_none _ := rfl
  at_error h := absurd h (by decide)
  out_zero _ := rfl
  at_check _ := ⟨rfl, rfl⟩
  at_alloc h := absurd h (by decide)
  at_header h := absurd h (by decide)
  at_loop h := absurd h (by decide)
  at_open h := absurd h (by decide)
  at_search h := absurd h (by decide)
  at_emit h := absurd h (by decide)
  at_advance h := absurd h (by decide)
  at_end h := absurd h (by decide)
  consumer := ⟨fun h => absurd h (by decide), fun h => absurd h (by decide)⟩

/-- RunProducesTheCompressedStream, EveryRunEnds. -/
theorem test_witness_run : Inv (started aaaa) ∧ (started aaaa).phase = Phase.check ∧ (started aaaa).err = Err.none ∧
    (started aaaa).sched = [] ∧ (started aaaa).n = some aaaa.length ∧ (started aaaa).mode = some 0#1 ∧
    (started aaaa).alloc = .granted 0 ∧ aaaa.length ≤ 0xFFFFFF ∧ inBytes (started aaaa).inMem aaaa.length = .ok aaaa ∧
    InputSupplied (started aaaa) :=
  ⟨started_inv, rfl, rfl, rfl, rfl, rfl, rfl, by decide, rfl, aaaa, rfl⟩
/-- RunProducesTheCompressedStream and EveryRunEnds with a host turn in the run: V-S1 with a poll after CHECK. -/
def polled : State := { started [] with sched := [.engine, .host], moves := [.poll] }
theorem test_witness_interleaved : busyThrough 5 polled ∧ look (·.phase) (Sys2Proof.core.run 5 polled) = some Phase.finish ∧
    look (fun t => (t.phase, t.outLen, t.moves)) (Sys2Proof.core.run 6 polled) = some (Phase.done, 4#32, [.poll]) ∧
    engineTurns 6 polled = 5 :=
  ⟨⟨rfl, _, rfl, rfl, _, rfl, rfl, _, rfl, rfl, _, rfl, rfl, _, rfl, rfl⟩, by decide, by decide, by decide⟩
/-- FailedRunsEndInError: V-E1 and V-E3. -/
theorem test_witness_failed_run : ({ started [] with n := some 0x1000000 }).phase = Phase.check ∧ 0xFFFFFF < 0x1000000 ∧
    ({ started aaaa with alloc := .refused }).sched = [] ∧ ({ started aaaa with alloc := .refused }).err = Err.none ∧
    ({ started aaaa with alloc := .refused }).alloc = .refused ∧ 4 ≤ 0xFFFFFF := by decide
/-- DecodeInvertsCompress, OutputSizeBounds, ModesDifferOnlyByDistanceOne, TokensAreLegal: V-C3a's parse has a literal and
a reference of distance 1, and V-C10's bytes with distinct values have literals alone. -/
theorem test_witness_parse : aaaa.length ≤ 0xFFFFFF ∧ aaaa ≠ [] ∧ (0, Instr.lit 0x41#8) ∈ parse aaaa 0#1 ∧
    (1, Instr.ref 3 1) ∈ parse aaaa 0#1 ∧ parse [0x41#8, 0x42#8] 0#1 = [(0, .lit 0x41#8), (1, .lit 0x42#8)] := by decide
/-- ControlByteFlagsTheReferences, at the first and the last token. -/
theorem test_witness_control_byte : 0 < 8 ∧ 7 < 8 ∧ groupControl 0 [.lit 0x41#8, .ref 3 1] = 0x40#8 := by decide
/-- ConsumerRunsTheReferenceDecoder: V-D2 decodes, V-D12 faults. -/
theorem test_witness_consumer_run :
    ({ State.reset with consumer := Consumer.fed [0x10#8, 0x03#8, 0x00#8, 0x00#8, 0x80#8, 0x00#8, 0x00#8] 0#1 }).phase =
      Phase.idle ∧ State.reset.sched = [] ∧ State.reset.moves = [] ∧ State.reset.err ≠ Err.reserved ∧
    decodeStream reading.stream 0#1 = .ok (aaaa, 8) ∧
    decodeStream [0x10#8, 0x03#8, 0x00#8, 0x00#8, 0x80#8, 0x00#8, 0x00#8] 0#1 = .error .badDistance :=
  ⟨rfl, rfl, rfl, by decide, rfl, rfl⟩

end Sys2Proof.Tests
end

/-! The invariant is kept by every step (StepKeepsTheInvariant): what PHASE alone asks of a state, one lemma for each
micro-operation, and one for each agent's turn. -/

namespace Sys2Proof.Machine

/-! ## Registers as numbers -/

theorem cursorVal_of_some {s : State} {v : BitVec 24} (h : s.cursor = some v) : s.cursorVal = v.toNat := by
  simp [State.cursorVal, h]

theorem nVal_of_some {s : State} {v : Nat} (h : s.n = some v) : s.nVal = v := by
  simp [State.nVal, h]

theorem grpVal_of_some {s : State} {v : BitVec 3} (h : s.grp = some v) : s.grpVal = v.toNat := by
  simp [State.grpVal, h]

theorem bestLenVal_of_some {s : State} {v : BitVec 5} (h : s.bestLen = some v) : s.bestLenVal = v.toNat := by
  simp [State.bestLenVal, h]

/-! ## Bytes written -/

/-- An address a write of the list names holds a value after the writes. -/
theorem Mem.isSome_read_writeAll_of_mem {m : Mem} {ws : List (Nat × Byte)} {b : Nat} (h : ∃ w ∈ ws, w.1 = b) :
    (Mem.read (Mem.writeAll m ws) b).isSome := by
  obtain ⟨w, hw, rfl⟩ := h
  induction ws generalizing m with
  | nil => cases hw
  | cons w' ws ih =>
    rcases List.mem_cons.mp hw with rfl | hw
    · exact Mem.isSome_read_writeAll ws (by simp)
    · exact ih hw

/-- After writes that name the next `k` addresses, every byte below OUT_LEN + `k` is written. -/
theorem Written.writeAll {s : State} (hs : Written s) {ws : List (Nat × Byte)} {k : Nat}
    (hws : ∀ i, i < k → ∃ w ∈ ws, w.1 = s.outLen.toNat + i) {j : Nat} (hj : j < s.outLen.toNat + k) :
    (Mem.read (Mem.writeAll s.outMem ws) j).isSome := by
  by_cases hlt : j < s.outLen.toNat
  · exact Mem.isSome_read_writeAll ws (hs j hlt)
  · obtain ⟨w, hw, hw'⟩ := hws (j - s.outLen.toNat) (by omega)
    exact Mem.isSome_read_writeAll_of_mem ⟨w, hw, by omega⟩

/-- A number below the register's range is the register's content. -/
theorem toNat_ofNat_of_fits {w v : Nat} (h : v < 2 ^ w) : (BitVec.ofNat w v).toNat = v :=
  fit_toNat (fit_eq_ok.mpr ⟨h, rfl⟩)

/-! ## The invariant by PHASE -/

/-- The clauses of the invariant that hold in every PHASE. -/
structure PhaseFree (s : State) : Prop where
  in_wf : Mem.wf s.inMem = true
  out_wf : Mem.wf s.outMem = true
  len_width : 25 ≤ s.lenW
  len_fits : ∀ v, s.inLen = some v → v < 2 ^ s.lenW
  consumer : ConsumerInv s.consumer

/-- The clauses of the invariant that speak of PHASE, one constructor for each code the machine has. -/
inductive AtPhase (s : State) : Prop where
  | idle (hp : s.phase = Phase.idle) (he : s.err = Err.none) (ho : s.outLen = 0#32)
  | check (hp : s.phase = Phase.check) (he : s.err = Err.none) (ho : s.outLen = 0#32) (h : Latched s)
  | alloc (hp : s.phase = Phase.alloc) (he : s.err = Err.none) (ho : s.outLen = 0#32)
      (h : Latched s ∧ s.nVal ≤ Config.maxIn)
  | header (hp : s.phase = Phase.header) (he : s.err = Err.none) (ho : s.outLen = 0#32)
      (h : Latched s ∧ s.nVal ≤ Config.maxIn ∧ Granted s)
  | loop (hp : s.phase = Phase.loop) (he : s.err = Err.none) (h : AtLoop s)
  | openGroup (hp : s.phase = Phase.openGroup) (he : s.err = Err.none)
      (h : Streaming s ∧ s.cursorVal < s.nVal ∧ s.grpVal = 0 ∧ OutBound s 8)
  | search (hp : s.phase = Phase.search) (he : s.err = Err.none) (h : AtToken s)
  | emit (hp : s.phase = Phase.emit) (he : s.err = Err.none) (h : AtToken s ∧ MatchBound s)
  | advance (hp : s.phase = Phase.advance) (he : s.err = Err.none)
      (h : Streaming s ∧ GroupOpen s ∧ OutBound s (s.grpVal + 1))
  | finish (hp : s.phase = Phase.finish) (he : s.err = Err.none)
      (h : Streaming s ∧ s.cursorVal = s.nVal ∧ 8 * s.outLen.toNat ≤ 9 * s.nVal + 39)
  | done (hp : s.phase = Phase.done) (he : s.err = Err.none)
      (h : Streaming s ∧ s.cursorVal = s.nVal ∧ 8 * s.outLen.toNat ≤ 9 * s.nVal + 39)
  | error (hp : s.phase = Phase.error) (he : s.err = Err.oversizedInput ∨ s.err = Err.allocationFailure)
      (ho : s.outLen = 0#32)

theorem Inv.phaseFree {s : State} (h : Inv s) : PhaseFree s :=
  ⟨h.in_wf, h.out_wf, h.len_width, h.len_fits, h.consumer⟩

/-- The clauses for the PHASE a state is in give all of the invariant's: those for the other codes are empty. -/
theorem Inv.of_atPhase {s : State} (hf : PhaseFree s) (h : AtPhase s) : Inv s := by
  cases h <;>
    refine ⟨hf.in_wf, hf.out_wf, hf.len_width, hf.len_fits, ?_, ?_, ?_, ?_, ?_, ?_, ?_, ?_, ?_, ?_, ?_, ?_, ?_,
      hf.consumer⟩ <;> simp +decide [*]

/-- A state that meets the invariant and has LEN_W `w`. -/
def InvWith (w : Nat) (t : State) : Prop := Inv t ∧ t.lenW = w

/-! ## The engine's micro-operations -/

/-- What EMIT leaves for a token with the writes `ws`: OUT_LEN moved on by its `k` bytes and CURSOR by the `adv` input
bytes it stands for (R98, R99). -/
def State.emitted (s : State) (ws : List (Nat × Byte)) (k adv : Nat) : State :=
  { s with
    outMem := Mem.writeAll s.outMem ws, outLen := BitVec.ofNat 32 (s.outLen.toNat + k),
    cursor := some (BitVec.ofNat 24 (s.cursorVal + adv)), phase := Phase.advance }

section MicroOperations

variable {s t : State}

theorem execCheck_keeps (h : Inv s) (hp : s.phase = Phase.check) (ht : execCheck s = .next t) : InvWith s.lenW t := by
  have he : s.err = Err.none := h.err_none (by rw [hp]; decide)
  have ho : s.outLen = 0#32 := h.out_zero (by rw [hp]; decide)
  obtain ⟨n, hn, rfl⟩ := execCheck_next.mp ht
  split
  · exact ⟨.of_atPhase { h.phaseFree with } (.error rfl (.inl rfl) ho), rfl⟩
  · refine ⟨.of_atPhase { h.phaseFree with } (.alloc rfl he ho ⟨h.at_check hp, ?_⟩), rfl⟩
    change s.nVal ≤ _
    rw [nVal_of_some hn]; omega

theorem execAlloc_keeps (h : Inv s) (hp : s.phase = Phase.alloc) (ht : execAlloc s = .next t) : InvWith s.lenW t := by
  have he : s.err = Err.none := h.err_none (by rw [hp]; decide)
  have ho : s.outLen = 0#32 := h.out_zero (by rw [hp]; decide)
  obtain ⟨hlatched, hmax⟩ := h.at_alloc hp
  obtain ⟨n, hn, ⟨-, rfl⟩ | ⟨extra, -, rfl⟩⟩ := execAlloc_next.mp ht
  · exact ⟨.of_atPhase { h.phaseFree with } (.error rfl (.inr rfl) ho), rfl⟩
  · refine ⟨.of_atPhase { h.phaseFree with out_wf := rfl } (.header rfl he ho ⟨hlatched, hmax, _, rfl, ?_⟩), rfl⟩
    change Config.reqCap s.nVal ≤ _
    rw [nVal_of_some hn]; omega

theorem execHeader_keeps (h : Inv s) (hp : s.phase = Phase.header) (ht : execHeader s = .next t) :
    InvWith s.lenW t := by
  have he : s.err = Err.none := h.err_none (by rw [hp]; decide)
  have ho : s.outLen.toNat = 0 := by rw [h.out_zero (by rw [hp]; decide)]; rfl
  have hwritten : Written s := fun j hj => by omega
  obtain ⟨hlatched, hmax, hgranted⟩ := h.at_header hp
  obtain ⟨n, -, -, rfl⟩ := execHeader_next.mp ht
  refine ⟨.of_atPhase { h.phaseFree with out_wf := Mem.wf_writeAll _ h.out_wf } (.loop rfl he
    ⟨⟨hlatched, hmax, hgranted, rfl, rfl, Nat.zero_le _, Nat.le_refl 4, fun j hj => ?_, fun hc => ?_⟩,
      .inl ⟨rfl, Nat.le_refl 40⟩⟩), rfl⟩
  · refine hwritten.writeAll (k := 4) (fun i hi => ?_) (by rw [ho]; exact hj)
    rw [ho]
    interval_cases i <;> simp [headerWrites]
  · exact absurd hc (Nat.not_succ_le_zero 0)

theorem execLoop_keeps (h : Inv s) (hp : s.phase = Phase.loop) (ht : execLoop s = .next t) : InvWith s.lenW t := by
  have he : s.err = Err.none := h.err_none (by rw [hp]; decide)
  obtain ⟨hs, hgroup⟩ := h.at_loop hp
  have hle : s.cursorVal ≤ s.nVal := by obtain ⟨-, -, -, -, -, hle, -⟩ := hs; exact hle
  obtain ⟨cur, n, hcur, hn, ⟨heq, rfl⟩ | ⟨hne, g, hg, rfl⟩⟩ := execLoop_next.mp ht
  · have hend : s.cursorVal = s.nVal := by rw [cursorVal_of_some hcur, nVal_of_some hn, heq]
    refine ⟨.of_atPhase { h.phaseFree with } (.finish rfl he ⟨hs, hend, ?_⟩), rfl⟩
    change 8 * s.outLen.toNat ≤ 9 * s.nVal + 39
    rcases hgroup with ⟨-, hb⟩ | ⟨hg, -, hb⟩ <;> unfold OutBound at hb <;> omega
  · have hlt : s.cursorVal < s.nVal := by rw [← cursorVal_of_some hcur, ← nVal_of_some hn] at hne; omega
    have hgrp := grpVal_of_some hg
    split
    · rename_i h0
      have hg0 : s.grpVal = 0 := by rw [hgrp, h0]; rfl
      rcases hgroup with ⟨-, hb⟩ | ⟨hg1, -, -⟩
      · exact ⟨.of_atPhase { h.phaseFree with } (.openGroup rfl he ⟨hs, hlt, hg0, hb⟩), rfl⟩
      · omega
    · rename_i h0
      rcases hgroup with ⟨hg0, -⟩ | ⟨-, hopen, hb⟩
      · exact absurd (BitVec.eq_of_toNat_eq (y := 0#3) (hgrp.symm.trans hg0)) h0
      · exact ⟨.of_atPhase { h.phaseFree with } (.search rfl he ⟨hs, hlt, hopen, hb⟩), rfl⟩

theorem execOpenGroup_keeps (h : Inv s) (hp : s.phase = Phase.openGroup) (ht : execOpenGroup s = .next t) :
    InvWith s.lenW t := by
  have he : s.err = Err.none := h.err_none (by rw [hp]; decide)
  obtain ⟨⟨hlatched, hmax, hgranted, hcur, hgrp, hle, hhdr, hwritten, hrun⟩, hlt, hg0, hb⟩ := h.at_open hp
  obtain ⟨-, hfit, ht⟩ := execOpenGroup_next.mp ht
  have hlen : t.outLen.toNat = s.outLen.toNat + 1 := by rw [ht]; exact toNat_ofNat_of_fits hfit
  have hopen : GroupOpen t := by
    have hlt : s.outLen.toNat < t.outLen.toNat := by omega
    subst ht
    exact ⟨rfl, hhdr, hlt⟩
  subst ht
  refine ⟨.of_atPhase { h.phaseFree with out_wf := Mem.wf_write _ _ h.out_wf } (.search rfl he
    ⟨⟨hlatched, hmax, hgranted, hcur, hgrp, hle, by omega, fun j hj => ?_,
      fun h1 => ⟨hopen, (hrun h1).2⟩⟩, hlt, hopen, ?_⟩), rfl⟩
  · exact hwritten.writeAll (ws := [(s.outLen.toNat, 0x00#8)]) (k := 1)
      (fun i hi => ⟨_, List.mem_cons_self, by dsimp only; omega⟩) (by rwa [← hlen])
  · unfold OutBound at hb ⊢
    rw [hlen]
    change _ + s.grpVal ≤ 9 * s.cursorVal + 40
    omega

theorem execSearch_keeps (h : Inv s) (hp : s.phase = Phase.search) (ht : execSearch s = .next t) :
    InvWith s.lenW t := by
  have he : s.err = Err.none := h.err_none (by rw [hp]; decide)
  obtain ⟨⟨hlatched, hmax, hgranted, hsome, hgrp, hle, hhdr, hwritten, hrun⟩, hlt, hopen, hb⟩ := h.at_search hp
  obtain ⟨n, cur, mode, xs, len, dist, hn, hcur, hmode, -, hxs, hlen, hdist, rfl⟩ := execSearch_next.mp ht
  obtain ⟨hmaxLen, hzero, hmin, hwindow⟩ := matchFind_bounds xs cur.toNat (Config.minDist mode)
  rw [(inBytes_eq_ok.mp hxs).1, ← nVal_of_some hn, ← fit_toNat hlen] at hmaxLen
  rw [← fit_toNat hlen, ← fit_toNat hdist] at hzero hmin
  rw [← fit_toNat hdist] at hwindow
  rw [← cursorVal_of_some hcur] at hmaxLen hwindow
  have hbest : BestBound { s with bestLen := some len, bestDist := some dist, phase := Phase.emit } :=
    ⟨rfl, rfl, (Nat.le_min.mp hmaxLen).1, hzero,
      fun h1 m hm => by obtain rfl := Option.some.inj (hmode.symm.trans hm); exact hmin h1, hwindow⟩
  exact ⟨.of_atPhase { h.phaseFree with } (.emit rfl he
    ⟨⟨⟨hlatched, hmax, hgranted, hsome, hgrp, hle, hhdr, hwritten, fun h1 => ⟨(hrun h1).1, hbest⟩⟩, hlt, hopen, hb⟩,
      hbest, (Nat.le_min.mp hmaxLen).2⟩), rfl⟩

/-- EMIT keeps the invariant if its writes fill the `k` bytes and the token, its control bit counted as an eighth of a
byte, takes at most nine eighths of a byte for each input byte (R33, R104). -/
theorem emitted_keeps (h : Inv s) (hp : s.phase = Phase.emit) {ws : List (Nat × Byte)} {k adv : Nat}
    (hws : ∀ i, i < k → ∃ w ∈ ws, w.1 = s.outLen.toNat + i) (hlen : s.outLen.toNat + k < 2 ^ 32)
    (hcur : s.cursorVal + adv < 2 ^ 24) (hend : s.cursorVal + adv ≤ s.nVal) (hk : 8 * k + 1 ≤ 9 * adv) :
    InvWith s.lenW (s.emitted ws k adv) := by
  have he : s.err = Err.none := h.err_none (by rw [hp]; decide)
  obtain ⟨⟨⟨hlatched, hmax, hgranted, -, hgrp, -, hhdr, hwritten, -⟩, -, ⟨hctrl, hctrlMin, hctrlMax⟩, hb⟩,
    ⟨hbl, hbd, hblMax, hzero, hmin, hwindow⟩, -⟩ := h.at_emit hp
  have hlen' : (s.emitted ws k adv).outLen.toNat = s.outLen.toNat + k := toNat_ofNat_of_fits hlen
  have hcur' : (s.emitted ws k adv).cursorVal = s.cursorVal + adv := toNat_ofNat_of_fits hcur
  have hopen : GroupOpen (s.emitted ws k adv) := ⟨hctrl, hctrlMin, lt_of_lt_of_le hctrlMax (by omega)⟩
  have hbest : BestBound (s.emitted ws k adv) :=
    ⟨hbl, hbd, hblMax, hzero, hmin, le_trans hwindow (by omega)⟩
  refine ⟨.of_atPhase { h.phaseFree with out_wf := Mem.wf_writeAll _ h.out_wf } (.advance rfl he
    ⟨⟨hlatched, hmax, hgranted, rfl, hgrp, ?_, by omega, fun j hj => ?_, fun _ => ⟨hopen, hbest⟩⟩, hopen, ?_⟩), rfl⟩
  · exact hcur'.trans_le hend
  · exact hwritten.writeAll hws (by rwa [← hlen'])
  · unfold OutBound at hb ⊢
    rw [hlen', hcur']
    change _ + (s.grpVal + 1) ≤ _
    omega

theorem execEmitLit_keeps (h : Inv s) (hp : s.phase = Phase.emit) (ht : execEmitLit s = .next t) :
    InvWith s.lenW t := by
  obtain ⟨cur, n, b, hcur, hn, hlt, -, -, hlen, hfit, rfl⟩ := execEmitLit_next.mp ht
  rw [← cursorVal_of_some hcur] at hlt hfit ⊢
  exact emitted_keeps h hp (ws := [(s.outLen.toNat, b)]) (fun i hi => ⟨_, List.mem_cons_self, by dsimp only; omega⟩)
    hlen hfit (by rw [nVal_of_some hn]; omega) (by decide)

theorem execEmitRef_keeps (h : Inv s) (hp : s.phase = Phase.emit) (ht : execEmitRef s = .next t) :
    InvWith s.lenW t := by
  obtain ⟨⟨-, hlt, -⟩, -, hmatch⟩ := h.at_emit hp
  obtain ⟨len, dist, g, ci, cur, old, hbl, -, -, -, hcur, hwf, -, -, hlen, hfit, rfl⟩ := execEmitRef_next.mp ht
  obtain ⟨hmin, -⟩ := ref_wellFormed_iff.mp hwf
  rw [bestLenVal_of_some hbl] at hmatch
  rw [← cursorVal_of_some hcur] at hfit ⊢
  refine emitted_keeps h hp (fun i hi => ?_) hlen hfit (by omega) (by omega)
  interval_cases i <;> simp [refWrites]

theorem execAdvance_keeps (h : Inv s) (hp : s.phase = Phase.advance) (ht : execAdvance s = .next t) :
    InvWith s.lenW t := by
  have he : s.err = Err.none := h.err_none (by rw [hp]; decide)
  obtain ⟨⟨hlatched, hmax, hgranted, hcur, -, hle, hhdr, hwritten, hrun⟩, hopen, hb⟩ := h.at_advance hp
  obtain ⟨g, hg, rfl⟩ := execAdvance_next.mp ht
  refine ⟨.of_atPhase { h.phaseFree with } (.loop rfl he
    ⟨⟨hlatched, hmax, hgranted, hcur, rfl, hle, hhdr, hwritten, hrun⟩, ?_⟩), rfl⟩
  have hnext : (g + 1#3).toNat = (g.toNat + 1) % 8 := by simp
  rw [grpVal_of_some hg] at hb
  change ((g + 1#3).toNat = 0 ∧ OutBound s 8) ∨ (1 ≤ (g + 1#3).toNat ∧ GroupOpen s ∧ OutBound s (g + 1#3).toNat)
  rw [hnext]
  by_cases h7 : g.toNat = 7
  · rw [h7] at hb ⊢
    exact .inl ⟨rfl, hb⟩
  · rw [Nat.mod_eq_of_lt (by have := g.isLt; omega)]
    exact .inr ⟨Nat.succ_pos _, hopen, hb⟩

theorem execFinish_keeps (h : Inv s) (hp : s.phase = Phase.finish) (ht : execFinish s = .next t) :
    InvWith s.lenW t := by
  obtain rfl := execFinish_next.mp ht
  exact ⟨.of_atPhase { h.phaseFree with } (.done rfl (h.err_none (by rw [hp]; decide)) (h.at_end (.inl hp))), rfl⟩

end MicroOperations

/-! ## The agents' turns -/

/-- Whatever next state comes of what was fetched meets the invariant, with LEN_W `w`. -/
def Fetched.Keeps (w : Nat) : Fetched → Prop
  | .run i u => ∀ t, exec i u = .next t → InvWith w t
  | .settled o => ∀ t, o = .next t → InvWith w t

theorem keeps_goOn {w : Nat} {s : State} (h : InvWith w s) : (goOn s).Keeps w := by
  rintro t ⟨⟩; exact h

theorem keeps_stop (w : Nat) (f : Fault) : (stop f).Keeps w := by
  rintro t ⟨⟩

theorem keeps_refused (w : Nat) (r : Refusal) : (Fetched.settled (.refused r)).Keeps w := by
  rintro t ⟨⟩

section Turns

variable {s : State}

theorem engineFetch_keeps (h : Inv s) : (engineFetch s).Keeps s.lenW := by
  rcases engineFetch_cases h.phase_legal with ⟨-, hf⟩ | ⟨hp, hf⟩ | ⟨hp, hf⟩ | ⟨hp, hf⟩ | ⟨hp, hf⟩ | ⟨hp, hf⟩ |
    ⟨hp, hf⟩ | ⟨-, -, hf⟩ | ⟨hp, -, hf⟩ | ⟨hp, -, hf⟩ | ⟨hp, hf⟩ | ⟨hp, hf⟩ <;> rw [hf]
  · exact keeps_goOn ⟨h, rfl⟩
  · exact fun t => execCheck_keeps h hp
  · exact fun t => execAlloc_keeps h hp
  · exact fun t => execHeader_keeps h hp
  · exact fun t => execLoop_keeps h hp
  · exact fun t => execOpenGroup_keeps h hp
  · exact fun t => execSearch_keeps h hp
  · exact keeps_stop _ _
  · exact fun t => execEmitLit_keeps h hp
  · exact fun t => execEmitRef_keeps h hp
  · exact fun t => execAdvance_keeps h hp
  · exact fun t => execFinish_keeps h hp

/-- START, with either mode (R115, R116). -/
theorem startRun_keeps (h : Inv s) {mode : BitVec 1} {t : State} (ht : ofExcept (startRun mode s) = .next t) :
    InvWith s.lenW t := by
  obtain ⟨-, rfl⟩ | ⟨-, -, len, -, rfl⟩ := startRun_eq_ok.mp (ofExcept_next.mp ht)
  · exact ⟨h, rfl⟩
  · exact ⟨.of_atPhase { h.phaseFree with } (.check rfl rfl rfl ⟨rfl, rfl⟩), rfl⟩

theorem commandWrite_keeps (h : Inv s) (b : Byte) : (commandWrite b s).Keeps s.lenW := by
  rcases commandWrite_cases b s with ⟨-, hf | hf⟩ | ⟨-, hf⟩ <;> rw [hf]
  · exact fun t => startRun_keeps h
  · exact fun t => startRun_keeps h
  · exact keeps_goOn ⟨h, rfl⟩

theorem statusRead_keeps (h : Inv s) : (statusRead s).Keeps s.lenW := by
  unfold statusRead
  split
  · exact keeps_goOn ⟨{ h with }, rfl⟩
  · exact keeps_stop _ _

theorem pollTurn_keeps (h : Inv s) : (pollTurn s).Keeps s.lenW := by
  unfold pollTurn
  split
  · exact statusRead_keeps h
  · exact statusRead_keeps (s := s.popMove) { h with }

theorem inLenWrite_keeps (h : Inv s) (v : Nat) : (inLenWrite v s).Keeps s.lenW := by
  rcases inLenWrite_cases v s with ⟨hv, hf⟩ | ⟨-, hf⟩ <;> rw [hf]
  · exact keeps_goOn ⟨{ h with len_fits := by rintro _ ⟨⟩; exact hv }, rfl⟩
  · exact keeps_stop _ _

theorem inLenRead_keeps (h : Inv s) : (inLenRead s).Keeps s.lenW := by
  unfold inLenRead
  split
  · exact keeps_goOn ⟨{ h with }, rfl⟩
  · exact keeps_stop _ _

theorem inWrite_keeps (h : Inv s) (i : Nat) (b : Byte) : (inWrite i b s).Keeps s.lenW := by
  unfold inWrite
  split
  · exact keeps_refused _ _
  · exact keeps_goOn ⟨{ h with in_wf := Mem.wf_write i b h.in_wf }, rfl⟩

/-- Outside a run the host may write OUT: no byte of a result loses its value (R55). -/
theorem Inv.hostWrite (h : Inv s) (hbusy : s.busy = false) (j : Nat) (b : Byte) :
    Inv { s with outMem := Mem.write s.outMem j b } := by
  have hf : PhaseFree { s with outMem := Mem.write s.outMem j b } :=
    { h.phaseFree with out_wf := Mem.wf_write j b h.out_wf }
  have hp : s.phase = Phase.idle ∨ s.phase = Phase.done ∨ s.phase = Phase.error := by
    have hlegal := h.phase_legal
    simp only [State.busy, Bool.and_eq_false_iff, decide_eq_false_iff_not] at hbusy
    generalize s.phase = p at hlegal hbusy ⊢
    revert p; decide
  rcases hp with hp | hp | hp
  · exact .of_atPhase hf (.idle hp (h.err_none (by rw [hp]; decide)) (h.out_zero (by rw [hp]; decide)))
  · obtain ⟨⟨hlatched, hmax, hgranted, hcur, hgrp, hle, hhdr, hwritten, hrun⟩, hend⟩ := h.at_end (.inr hp)
    exact .of_atPhase hf (.done hp (h.err_none (by rw [hp]; decide))
      ⟨⟨hlatched, hmax, hgranted, hcur, hgrp, hle, hhdr, fun i hi => Mem.isSome_read_write _ j i b (hwritten i hi),
        hrun⟩, hend⟩)
  · obtain ⟨he, ho⟩ := h.at_error hp
    exact .of_atPhase hf (.error hp he ho)

theorem hostOutWrite_keeps (h : Inv s) (j : Nat) (b : Byte) : (hostOutWrite j b s).Keeps s.lenW := by
  unfold hostOutWrite
  split
  · exact keeps_refused _ _
  · split
    · exact keeps_goOn ⟨h.hostWrite (Bool.eq_false_of_not_eq_true ‹_›) j b, rfl⟩
    · exact keeps_stop _ _

theorem hostOutRead_keeps (h : Inv s) (j : Nat) : (hostOutRead j s).Keeps s.lenW := by
  unfold hostOutRead
  split
  · split
    · split
      · exact keeps_goOn ⟨{ h with }, rfl⟩
      · exact keeps_stop _ _
    · exact keeps_goOn ⟨{ h with }, rfl⟩
  · exact keeps_stop _ _

/-- A consumer that is given a stream waits for its header. -/
theorem consumerInv_fed (bytes : List Byte) (mode : BitVec 1) : ConsumerInv (Consumer.fed bytes mode) :=
  ⟨nofun, nofun⟩

theorem resultFeed_keeps (h : Inv s) (mode : BitVec 1) : (resultFeed mode s).Keeps s.lenW := by
  unfold resultFeed
  split
  · split
    · exact keeps_goOn ⟨{ h with consumer := consumerInv_fed _ mode }, rfl⟩
    · exact keeps_stop _ _
  · exact keeps_refused _ _

theorem Inv.resetBlock (h : Inv s) : Inv (resetBlock s) :=
  .of_atPhase { h.phaseFree with len_fits := nofun } (.idle rfl rfl rfl)

theorem hostMove_keeps (h : Inv s) (m : HostMove) : (hostMove m s).Keeps s.lenW := by
  have hpop : Inv s.popMove := { h with }
  cases m with
  | wrCmd b => exact commandWrite_keeps hpop b
  | wrInLen v => exact inLenWrite_keeps hpop v
  | wrStatus b => exact keeps_goOn ⟨hpop, rfl⟩
  | wrOutLen v => exact keeps_goOn ⟨hpop, rfl⟩
  | rdCmd => exact keeps_stop _ _
  | rdInLen => exact inLenRead_keeps hpop
  | rdStatus => exact statusRead_keeps hpop
  | rdOutLen => exact keeps_goOn ⟨{ hpop with }, rfl⟩
  | poll => exact pollTurn_keeps h
  | wrIn i b => exact inWrite_keeps hpop i b
  | wrOut j b => exact hostOutWrite_keeps hpop j b
  | rdOut j => exact hostOutRead_keeps hpop j
  | answer a => exact keeps_goOn ⟨{ hpop with }, rfl⟩
  | reset => exact keeps_goOn ⟨hpop.resetBlock, rfl⟩
  | feed bytes mode => exact keeps_goOn ⟨{ hpop with consumer := consumerInv_fed bytes mode }, rfl⟩
  | feedResult mode => exact resultFeed_keeps hpop mode

theorem hostFetch_keeps (h : Inv s) : (hostFetch s).Keeps s.lenW := by
  unfold hostFetch
  split
  · exact hostMove_keeps h _
  · exact keeps_goOn ⟨h, rfl⟩

/-- A back-reference copies at most `length` bytes. -/
theorem length_copyBack_le (d k : Nat) (o : List Byte) : (copyBack d k o).length ≤ o.length + k := by
  induction k generalizing o with
  | zero => exact Nat.le_refl _
  | succ k ih =>
    have hone : (o[o.length - d]?).toList.length ≤ 1 := by cases o[o.length - d]? <;> simp
    have hrest := ih (o ++ (o[o.length - d]?).toList)
    rw [List.length_append] at hrest
    rw [copyBack]
    omega

/-- After a token the consumer has stopped exactly where `size` bytes are there (R138). -/
theorem consumerInv_nextToken {c : Consumer} (h : c.out.length ≤ c.size) : ConsumerInv c.nextToken := by
  unfold ConsumerInv Consumer.nextToken
  by_cases heq : c.out.length = c.size
  · simp [heq]
  · have hlt : c.out.length < c.size := by omega
    by_cases h7 : c.k = 7#3 <;> simp [heq, h7, hlt]

theorem consumerFetch_keeps (h : Inv s) : (consumerFetch s).Keeps s.lenW := by
  obtain ⟨hshort, -⟩ := h.consumer
  rcases consumerFetch_cases s with ⟨hf, -⟩ | ⟨-, ⟨size, hf⟩ | hf⟩ | ⟨hst, ⟨c, hf⟩ | hf⟩ |
    ⟨-, ⟨b, hf⟩ | ⟨l, d, hf⟩ | hf⟩ <;> rw [hf]
  · exact keeps_goOn ⟨h, rfl⟩
  · intro t ht
    obtain rfl := execHdr_next.mp ht
    refine ⟨{ h with consumer := ?_ }, rfl⟩
    by_cases h0 : size = 0
    · simp [ConsumerInv, h0]
    · simp [ConsumerInv, h0, Nat.pos_of_ne_zero h0]
  · exact keeps_stop _ _
  · intro t ht
    obtain rfl := execCtrl_next.mp ht
    exact ⟨{ h with consumer := ⟨fun _ => hshort (.inl hst), nofun⟩ }, rfl⟩
  · exact keeps_stop _ _
  · intro t ht
    obtain ⟨hle, rfl⟩ := execLit_next.mp ht
    exact ⟨{ h with consumer := consumerInv_nextToken (by simpa using hle) }, rfl⟩
  · intro t ht
    obtain ⟨-, hle, rfl⟩ := execRef_next.mp ht
    exact ⟨{ h with consumer := consumerInv_nextToken ((length_copyBack_le d l _).trans hle) }, rfl⟩
  · exact keeps_stop _ _

theorem fetch_keeps (h : Inv s) : (fetch s).Keeps s.lenW := by
  have hpop : Inv s.popTurn := { h with }
  rcases fetch_cases s with ⟨-, hf⟩ | ⟨-, hf⟩ | ⟨-, -, ⟨-, hf⟩ | ⟨-, hf⟩ | ⟨-, hf⟩⟩ <;> rw [hf]
  · exact keeps_stop _ _
  · exact keeps_stop _ _
  · exact engineFetch_keeps hpop
  · exact hostFetch_keeps hpop
  · exact consumerFetch_keeps hpop

end Turns

/-- Settles O41: each agent's turn keeps the invariant, by PHASE for the engine and by the move for the host. -/
theorem stepKeepsTheInvariant : Obligations.StepKeepsTheInvariant := by
  intro s t h ht
  have hkeeps := fetch_keeps h
  rcases step_next.mp ht with ⟨i, u, hf, hexec⟩ | hf <;> rw [hf] at hkeeps
  · exact hkeeps t hexec
  · exact hkeeps t rfl

end Sys2Proof.Machine

/-! The bounds the invariant gives (InvariantGivesTheBounds), and what a turn of each agent gives as one step, with the
host's accesses to the registers and STATUS. -/

namespace Sys2Proof.Machine

/-! ## The invariant from LOOP to DONE (R33) -/

section Bounds

variable {s : State}

/-- From LOOP to DONE the run's registers hold values, OUT_LEN is at most the header, one byte for each input byte and one
control byte for each group begun, and from SEARCH to ADVANCE a group is open. -/
theorem Inv.streaming (h : Inv s) (hlo : 4 ≤ s.phase.toNat) (hhi : s.phase.toNat ≤ 10) :
    Streaming s ∧ 8 * s.outLen.toNat ≤ 9 * s.cursorVal + 40 ∧
      (6 ≤ s.phase.toNat → s.phase.toNat ≤ 8 → GroupOpen s) := by
  have bound : ∀ {used}, OutBound s used → 8 * s.outLen.toNat ≤ 9 * s.cursorVal + 40 := Nat.le_of_add_right_le
  have hp : s.phase = 4#4 ∨ s.phase = 5#4 ∨ s.phase = 6#4 ∨ s.phase = 7#4 ∨ s.phase = 8#4 ∨ s.phase = 9#4 ∨
      s.phase = 10#4 := by
    generalize s.phase = p at hlo hhi
    revert p; decide
  rcases hp with hp | hp | hp | hp | hp | hp | hp
  · obtain ⟨hs, ⟨-, hb⟩ | ⟨-, -, hb⟩⟩ := h.at_loop hp <;> exact ⟨hs, bound hb, by simp [hp]⟩
  · obtain ⟨hs, -, -, hb⟩ := h.at_open hp
    exact ⟨hs, bound hb, by simp [hp]⟩
  · obtain ⟨hs, -, hopen, hb⟩ := h.at_search hp
    exact ⟨hs, bound hb, fun _ _ => hopen⟩
  · obtain ⟨⟨hs, -, hopen, hb⟩, -⟩ := h.at_emit hp
    exact ⟨hs, bound hb, fun _ _ => hopen⟩
  · obtain ⟨hs, hopen, hb⟩ := h.at_advance hp
    exact ⟨hs, bound hb, fun _ _ => hopen⟩
  · obtain ⟨hs, hend, hb⟩ := h.at_end (.inl hp)
    exact ⟨hs, by omega, by simp [hp]⟩
  · obtain ⟨hs, hend, hb⟩ := h.at_end (.inr hp)
    exact ⟨hs, by omega, by simp [hp]⟩

/-- From SEARCH of the run's first token on, its control byte lies below OUT_LEN. -/
theorem Inv.groupOpen (h : Inv s) (hlo : 4 ≤ s.phase.toNat) (hhi : s.phase.toNat ≤ 10)
    (htoken : 1 ≤ s.cursorVal ∨ (6 ≤ s.phase.toNat ∧ s.phase.toNat ≤ 8)) : GroupOpen s := by
  obtain ⟨⟨-, -, -, -, -, -, -, -, hrun⟩, -, hgroup⟩ := h.streaming hlo hhi
  rcases htoken with hcur | ⟨h6, h8⟩
  · exact (hrun hcur).1
  · exact hgroup h6 h8

/-- From EMIT of the run's first token on, the match finder's result is within its bounds. -/
theorem Inv.bestBound (h : Inv s) (hlo : 4 ≤ s.phase.toNat) (hhi : s.phase.toNat ≤ 10)
    (htoken : 1 ≤ s.cursorVal ∨ s.phase = Phase.emit) : BestBound s := by
  obtain ⟨⟨-, -, -, -, -, -, -, -, hrun⟩, -, -⟩ := h.streaming hlo hhi
  rcases htoken with hcur | hp
  · exact (hrun hcur).2
  · exact (h.at_emit hp).2.1

end Bounds

/-- Settles O43: each bound is a clause of the invariant, or OUT_LEN's in eighths of a byte, rounded. -/
theorem invariantGivesTheBounds : Obligations.InvariantGivesTheBounds := by
  refine fun s h => ⟨fun hlo hhi => ?_, fun hp => ?_, fun hp => ?_⟩
  · obtain ⟨⟨-, hmax, -, -, -, hle, hhdr, -, -⟩, hb, -⟩ := h.streaming hlo hhi
    refine ⟨hle, hmax, hhdr, by omega, fun htoken => ?_, fun htoken => ?_⟩
    · obtain ⟨hsome, -, hlt⟩ := h.groupOpen hlo hhi htoken
      exact ⟨hsome, hlt⟩
    · obtain ⟨hlen, hdist, hmaxLen, hzero, hmin, hwindow⟩ := h.bestBound hlo hhi htoken
      exact ⟨hlen, hdist, hmaxLen, hzero, fun h1 m hm => ⟨hmin h1 m hm, hwindow⟩⟩
  · obtain ⟨-, ⟨-, -, hmaxLen, -⟩, hleft⟩ := h.at_emit hp
    exact Nat.le_min.mpr ⟨hmaxLen, hleft⟩
  · obtain ⟨-, -, hb⟩ := h.at_end (.inr hp)
    omega

/-- Settles O40: after reset PHASE is IDLE, and what its clauses ask for are the reset values. -/
theorem resetMeetsTheInvariant : Obligations.ResetMeetsTheInvariant :=
  .of_atPhase ⟨rfl, rfl, by decide, nofun, nofun, nofun⟩ (.idle rfl rfl rfl)

/-! ## One step from what is fetched -/

/-- The outcome of the step that fetched this. -/
def Fetched.outcome : Fetched → Host.Outcome State Fault Refusal
  | .run i u => exec i u
  | .settled o => o

theorem step_eq_outcome (s : State) : step s = (fetch s).outcome := by
  unfold step
  cases fetch s <;> rfl

@[simp] theorem outcome_run (i : Instr) (u : State) : (Fetched.run i u).outcome = exec i u := rfl
@[simp] theorem outcome_goOn (u : State) : (goOn u).outcome = .next u := rfl
@[simp] theorem outcome_stop (f : Fault) : (stop f).outcome = .fault f := rfl

theorem step_of_reservedPhase {s : State} (hp : 12 ≤ s.phase.toNat) : step s = .fault .reservedPhase := by
  rw [step_eq_outcome, fetch, if_pos hp, outcome_stop]

theorem step_of_reservedErr {s : State} (hp : s.phase.toNat < 12) (he : s.err = Err.reserved) :
    step s = .fault .reservedErr := by
  rw [step_eq_outcome, fetch, if_neg (Nat.not_le.mpr hp), if_pos he, outcome_stop]

/-- Settles O7. -/
theorem reservedCodesStopEveryStep : Obligations.ReservedCodesStopEveryStep :=
  fun _ => ⟨step_of_reservedPhase, step_of_reservedErr⟩

section Turn

variable {s : State} (hp : s.phase.toNat < 12) (he : s.err ≠ Err.reserved)
include hp he

theorem step_of_engine (hm : s.mover = .engine) : step s = (engineFetch s.popTurn).outcome := by
  rw [step_eq_outcome, fetch, if_neg (Nat.not_le.mpr hp), if_neg he, hm]

theorem step_of_consumer (hm : s.mover = .consumer) : step s = (consumerFetch s.popTurn).outcome := by
  rw [step_eq_outcome, fetch, if_neg (Nat.not_le.mpr hp), if_neg he, hm]

/-- The host's turn is its first move. -/
theorem step_of_host (hm : s.mover = .host) {m : HostMove} {ms : List HostMove} (hmoves : s.moves = m :: ms) :
    step s = (hostMove m s.popTurn).outcome := by
  rw [step_eq_outcome, fetch, if_neg (Nat.not_le.mpr hp), if_neg he, hm]
  simp only [hostFetch, popTurn_moves, hmoves]

end Turn

/-- The state a host's turn leaves when nothing but the turn and its move is taken. -/
theorem popTurn_popMove {s : State} {m : HostMove} {ms : List HostMove} (hmoves : s.moves = m :: ms) :
    s.popTurn.popMove = { s with sched := s.sched.tail, moves := ms } := by
  simp [State.popMove, State.popTurn, hmoves]

/-! ## Each agent runs the instruction it decodes -/

section Decoded

variable {s : State} {i : Instr} {rest : List Byte}

theorem engineFetch_of_decode {long : Bool} (hlong : longMatch s = .ok long)
    (hi : decode (.phase long) [s.phase.setWidth 8] = .ok (i, rest)) : engineFetch s = .run i s := by
  simp only [engineFetch, hlong, hi]

theorem commandWrite_of_decode {b : Byte} (hi : decode .command [b] = .ok (i, rest)) :
    commandWrite b s = .run i s := by
  simp only [commandWrite, hi]

theorem consumerFetch_of_decode {sel : Selector} (hsel : s.consumer.selector = some sel)
    (hi : decode sel (s.consumer.stream.drop s.consumer.pos) = .ok (i, rest)) : consumerFetch s = .run i s := by
  simp only [consumerFetch, hsel, hi]

end Decoded

/-- Settles O6: each agent's fetch in the state with the turn taken, which changes nothing it decodes from. -/
theorem stepRunsTheDecodedInstruction : Obligations.StepRunsTheDecodedInstruction := by
  refine fun s i rest hp he => ⟨fun long hm hlong hi => ?_, fun b ms hm hmoves hi => ?_, fun sel hm hsel hi => ?_⟩
  · have hf : engineFetch s.popTurn = .run i s.popTurn := engineFetch_of_decode hlong hi
    rw [step_of_engine hp he hm, hf, outcome_run]; rfl
  · rw [step_of_host hp he hm hmoves, hostMove, commandWrite_of_decode hi, outcome_run, popTurn_popMove hmoves]
  · have hf : consumerFetch s.popTurn = .run i s.popTurn := consumerFetch_of_decode hsel hi
    rw [step_of_consumer hp he hm, hf, outcome_run]; rfl

/-! ## A register that holds no value (R34) -/

/-- A meaning that reads a register first faults where it holds no value. -/
theorem ofExcept_need_bind_of_none {α : Type} {r : Reg} {o : Option α} {f : α → Except Fault State} (h : o = none) :
    ofExcept (need r o >>= f) = .fault (.noValue r) := by
  subst h; rfl

/-- Settles O24: each of these meanings begins by reading the register. -/
theorem registersWithoutValueFault : Obligations.RegistersWithoutValueFault := by
  refine fun s => ⟨fun h => ⟨?_, ?_, ?_, ?_⟩, fun h => ⟨?_, ?_⟩, fun h => ?_, fun h => ?_⟩ <;>
    exact ofExcept_need_bind_of_none h

/-! ## The host's accesses to the registers -/

theorem inLenWrite_of_lt {v : Nat} {s : State} (h : v < 2 ^ s.lenW) :
    inLenWrite v s = goOn { s with inLen := some v } := if_pos h

theorem inLenWrite_of_le {v : Nat} {s : State} (h : 2 ^ s.lenW ≤ v) : inLenWrite v s = stop .doesNotFit :=
  if_neg (Nat.not_lt.mpr h)

theorem inLenRead_of_some {v : Nat} {s : State} (h : s.inLen = some v) :
    inLenRead s = goOn (s.record (.inLen v)) := by
  simp only [inLenRead, h]

theorem inLenRead_of_none {s : State} (h : s.inLen = none) : inLenRead s = stop .inLenNoValue := by
  simp only [inLenRead, h]

theorem commandWrite_of_noCommand {b : Byte} {s : State} (h : b.getLsbD 0 = false) : commandWrite b s = goOn s := by
  rcases commandWrite_cases b s with ⟨hstart, -⟩ | ⟨-, hf⟩
  · rw [h] at hstart; cases hstart
  · exact hf

/-- Settles O34: the host's first move is the access, made in the state with the turn and the move taken. -/
theorem hostRegisterAccesses : Obligations.HostRegisterAccesses := by
  intro s ms hp he hm
  have turn : ∀ {m}, s.moves = m :: ms → step s = (hostMove m s.popTurn).outcome := step_of_host hp he hm
  refine ⟨fun h => ?_, fun v h => ?_, fun v h hv => ?_, fun v h hv => ?_, fun v h hv => ?_, fun h hv => ?_, fun h => ?_,
    fun b h hb => ?_⟩ <;> rw [turn h, hostMove]
  · rw [outcome_goOn, popTurn_popMove h]; rfl
  · rw [outcome_goOn, popTurn_popMove h]
  · rw [inLenWrite_of_lt (s := s.popTurn.popMove) hv, outcome_goOn, popTurn_popMove h]
  · rw [inLenWrite_of_le (s := s.popTurn.popMove) hv, outcome_stop]
  · rw [inLenRead_of_some (s := s.popTurn.popMove) hv, outcome_goOn, popTurn_popMove h]; rfl
  · rw [inLenRead_of_none (s := s.popTurn.popMove) hv, outcome_stop]
  · rw [outcome_stop]
  · rw [commandWrite_of_noCommand hb, outcome_goOn, popTurn_popMove h]

/-! ## STATUS (R28) -/

theorem busy_iff {s : State} : s.busy = true ↔ 1 ≤ s.phase.toNat ∧ s.phase.toNat ≤ 9 := by
  simp [State.busy]

/-- STATUS.STATE in a PHASE the machine has: what is none of IDLE, DONE and ERROR is BUSY. -/
theorem stateField_of_legal {s : State} (hp : s.phase.toNat < 12) :
    s.stateField = .ok (if s.phase = Phase.idle then 0#2 else if s.phase = Phase.done then 2#2
      else if s.phase = Phase.error then 3#2 else 1#2) := by
  unfold State.stateField
  by_cases hbusy : s.busy = true
  · have hne : s.phase ≠ Phase.idle ∧ s.phase ≠ Phase.done ∧ s.phase ≠ Phase.error := by
      have hrange := busy_iff.mp hbusy
      refine ⟨?_, ?_, ?_⟩ <;> intro h <;> rw [h] at hrange <;> exact absurd hrange (by decide)
    obtain ⟨hidle, hdone, herror⟩ := hne
    simp only [hidle, hdone, herror, hbusy, if_true, if_false]
  · have hwait : s.phase = Phase.idle ∨ s.phase = Phase.done ∨ s.phase = Phase.error := by
      rw [busy_iff] at hbusy
      generalize s.phase = p at hp hbusy ⊢
      revert p; decide
    rcases hwait with h | h | h <;> simp +decide [h, hbusy]

theorem statusByte_of_stateField {s : State} {st : BitVec 2} (hst : s.stateField = .ok st) (he : s.err ≠ Err.reserved) :
    s.statusByte = .ok (st.setWidth 8 ||| (s.err.setWidth 8 <<< 2)) := by
  simp only [State.statusByte, hst, bind, Except.bind, if_neg he]

/-- The two fields of STATUS do not overlap. -/
theorem toNat_statusFields (st err : BitVec 2) :
    (st.setWidth 8 ||| (err.setWidth 8 <<< 2)).toNat = 4 * err.toNat + st.toNat := by
  revert st err; decide

theorem statusRead_of_ok {s : State} {b : Byte} (h : s.statusByte = .ok b) :
    statusRead s = goOn (s.record (.status b)) := by
  simp only [statusRead, h]

/-- Settles O33: the byte from its two fields, and the host's accesses as moves. -/
theorem statusShowsStateAndErr : Obligations.StatusShowsStateAndErr := by
  refine ⟨fun s hp he => ?_, rfl, fun s b ms hp he hm hmoves hb => ?_, fun s v ms hp he hm hmoves => ?_⟩
  · refine ⟨_, statusByte_of_stateField (stateField_of_legal hp) he, ?_⟩
    rw [toNat_statusFields]
    split_ifs <;> rfl
  · rw [step_of_host hp he hm hmoves, hostMove, statusRead_of_ok (s := s.popTurn.popMove) hb, outcome_goOn,
      popTurn_popMove hmoves]; rfl
  · rw [step_of_host hp he hm hmoves, hostMove, outcome_goOn, popTurn_popMove hmoves]

end Sys2Proof.Machine

/-! The memory statements: what an instruction writes and leaves, what a fetch leaves, and the engine's turn as one step
(StepKeepsMemoryCanonical, EngineOnlyReadsTheInput, EngineWritesOnlyNewBytesAndTheControlByte), with the host's read of
OUT (HostReadsOutOnlyAtDone). -/

namespace Sys2Proof.Machine

/-! ## What an instruction writes and leaves -/

/-- What belongs to the host: IN and IN_LEN, its moves and readings, its answer, and the count of free values. -/
def State.hostSide (s : State) : Mem × Option Nat × List HostMove × List Reading × AllocAnswer × Nat :=
  (s.inMem, s.inLen, s.moves, s.readings, s.alloc, s.draws)

/-- The PHASE code that selects a micro-operation (R68); the commands and the stream elements have none. -/
def microPhase : Instr → Option (BitVec 4)
  | .check => some Phase.check
  | .alloc => some Phase.alloc
  | .header => some Phase.header
  | .loop => some Phase.loop
  | .openGroup => some Phase.openGroup
  | .search => some Phase.search
  | .emitLit | .emitRef => some Phase.emit
  | .advance => some Phase.advance
  | .finish => some Phase.finish
  | _ => none

/-- An address that reads differently after writes is one of those written. -/
theorem Mem.exists_mem_of_read_writeAll_ne {m : Mem} {ws : List (Nat × Byte)} {a : Nat}
    (h : Mem.read (Mem.writeAll m ws) a ≠ Mem.read m a) : ∃ w ∈ ws, w.1 = a := by
  by_contra hnone
  exact h (Mem.read_writeAll_ne fun w hw heq => hnone ⟨w, hw, heq⟩)

section Instructions

variable {i : Instr} {s t : State}

/-- START, with either mode, touches no memory and nothing outside the block. -/
theorem startRun_frame {mode : BitVec 1} (ht : ofExcept (startRun mode s) = .next t) :
    t.hostSide = s.hostSide ∧ t.consumer = s.consumer ∧ t.outMem = s.outMem := by
  obtain ⟨-, rfl⟩ | ⟨-, -, len, -, rfl⟩ := startRun_eq_ok.mp (ofExcept_next.mp ht) <;> exact ⟨rfl, rfl, rfl⟩

/-- No instruction changes anything of the host's, and no micro-operation anything of the consumer's. -/
theorem exec_frame (ht : exec i s = .next t) :
    t.hostSide = s.hostSide ∧ ((microPhase i).isSome → t.consumer = s.consumer) := by
  cases i with
  | hdr size => obtain rfl := execHdr_next.mp ht; exact ⟨rfl, nofun⟩
  | ctrl flags => obtain rfl := execCtrl_next.mp ht; exact ⟨rfl, nofun⟩
  | lit value => obtain ⟨-, rfl⟩ := execLit_next.mp ht; exact ⟨rfl, nofun⟩
  | ref length distance => obtain ⟨-, -, rfl⟩ := execRef_next.mp ht; exact ⟨rfl, nofun⟩
  | startM0 => obtain ⟨hhost, -, -⟩ := startRun_frame ht; exact ⟨hhost, nofun⟩
  | startM1 => obtain ⟨hhost, -, -⟩ := startRun_frame ht; exact ⟨hhost, nofun⟩
  | check => obtain ⟨n, -, rfl⟩ := execCheck_next.mp ht; split <;> exact ⟨rfl, fun _ => rfl⟩
  | alloc => obtain ⟨n, -, ⟨-, rfl⟩ | ⟨extra, -, rfl⟩⟩ := execAlloc_next.mp ht <;> exact ⟨rfl, fun _ => rfl⟩
  | header => obtain ⟨n, -, -, rfl⟩ := execHeader_next.mp ht; exact ⟨rfl, fun _ => rfl⟩
  | loop =>
    obtain ⟨cur, n, -, -, ⟨-, rfl⟩ | ⟨-, g, -, rfl⟩⟩ := execLoop_next.mp ht
    · exact ⟨rfl, fun _ => rfl⟩
    · split <;> exact ⟨rfl, fun _ => rfl⟩
  | openGroup => obtain ⟨-, -, rfl⟩ := execOpenGroup_next.mp ht; exact ⟨rfl, fun _ => rfl⟩
  | search =>
    obtain ⟨n, cur, mode, xs, len, dist, -, -, -, -, -, -, -, rfl⟩ := execSearch_next.mp ht
    exact ⟨rfl, fun _ => rfl⟩
  | emitLit =>
    obtain ⟨cur, n, b, -, -, -, -, -, -, -, rfl⟩ := execEmitLit_next.mp ht
    exact ⟨rfl, fun _ => rfl⟩
  | emitRef =>
    obtain ⟨len, dist, g, ci, cur, old, -, -, -, -, -, -, -, -, -, -, rfl⟩ := execEmitRef_next.mp ht
    exact ⟨rfl, fun _ => rfl⟩
  | advance => obtain ⟨g, -, rfl⟩ := execAdvance_next.mp ht; exact ⟨rfl, fun _ => rfl⟩
  | finish => obtain rfl := execFinish_next.mp ht; exact ⟨rfl, fun _ => rfl⟩

/-- OUT after `i` is as before but for writes below the OUT_LEN it leaves, which begin at the OUT_LEN it found unless
`i` is HEADER, and EMIT_REF's to the control byte (R9, R35). -/
def WritesForward (i : Instr) (s t : State) : Prop :=
  ∃ ws, t.outMem = Mem.writeAll s.outMem ws ∧ ∀ w ∈ ws,
    (w.1 < t.outLen.toNat ∧ (s.outLen.toNat ≤ w.1 ∨ i = .header)) ∨
      (i = .emitRef ∧ w.1 = s.ctrlVal ∧ s.outLen.toNat ≤ t.outLen.toNat)

theorem writesForward_of_unwritten (h : t.outMem = s.outMem) : WritesForward i s t := ⟨[], h, nofun⟩

/-- One byte at OUT_LEN, which moves on by one. -/
theorem writesForward_of_append {b : Byte} (hmem : t.outMem = Mem.write s.outMem s.outLen.toNat b)
    (hlen : t.outLen.toNat = s.outLen.toNat + 1) : WritesForward i s t := by
  refine ⟨[(s.outLen.toNat, b)], hmem, fun w hw => .inl ?_⟩
  obtain rfl := List.mem_singleton.mp hw
  exact ⟨by rw [hlen]; exact Nat.lt_succ_self _, .inl (Nat.le_refl _)⟩

theorem lt_hdrLen_of_mem_headerWrites {n : Nat} {w : Nat × Byte} (h : w ∈ headerWrites n) : w.1 < Config.hdrLen := by
  simp only [headerWrites, List.mem_cons, List.not_mem_nil, or_false] at h
  rcases h with rfl | rfl | rfl | rfl <;> simp [Config.hdrLen]

/-- OUT after an instruction: fresh from ALLOC, else written forward. -/
theorem exec_outMem (ht : exec i s = .next t) : (i = .alloc ∧ t.outMem = []) ∨ WritesForward i s t := by
  cases i with
  | hdr size => obtain rfl := execHdr_next.mp ht; exact .inr (writesForward_of_unwritten rfl)
  | ctrl flags => obtain rfl := execCtrl_next.mp ht; exact .inr (writesForward_of_unwritten rfl)
  | lit value => obtain ⟨-, rfl⟩ := execLit_next.mp ht; exact .inr (writesForward_of_unwritten rfl)
  | ref length distance => obtain ⟨-, -, rfl⟩ := execRef_next.mp ht; exact .inr (writesForward_of_unwritten rfl)
  | startM0 => obtain ⟨-, -, hout⟩ := startRun_frame ht; exact .inr (writesForward_of_unwritten hout)
  | startM1 => obtain ⟨-, -, hout⟩ := startRun_frame ht; exact .inr (writesForward_of_unwritten hout)
  | check => obtain ⟨n, -, rfl⟩ := execCheck_next.mp ht; exact .inr (writesForward_of_unwritten (by split <;> rfl))
  | alloc =>
    obtain ⟨n, -, ⟨-, rfl⟩ | ⟨extra, -, rfl⟩⟩ := execAlloc_next.mp ht
    · exact .inr (writesForward_of_unwritten rfl)
    · exact .inl ⟨rfl, rfl⟩
  | header =>
    obtain ⟨n, -, -, rfl⟩ := execHeader_next.mp ht
    exact .inr ⟨headerWrites n, rfl, fun w hw => .inl ⟨lt_hdrLen_of_mem_headerWrites hw, .inr rfl⟩⟩
  | loop =>
    obtain ⟨cur, n, -, -, ⟨-, rfl⟩ | ⟨-, g, -, rfl⟩⟩ := execLoop_next.mp ht
    · exact .inr (writesForward_of_unwritten rfl)
    · exact .inr (writesForward_of_unwritten (by split <;> rfl))
  | openGroup =>
    obtain ⟨-, hfit, rfl⟩ := execOpenGroup_next.mp ht
    exact .inr (writesForward_of_append rfl (toNat_ofNat_of_fits hfit))
  | search =>
    obtain ⟨n, cur, mode, xs, len, dist, -, -, -, -, -, -, -, rfl⟩ := execSearch_next.mp ht
    exact .inr (writesForward_of_unwritten rfl)
  | emitLit =>
    obtain ⟨cur, n, b, -, -, -, -, -, hfit, -, rfl⟩ := execEmitLit_next.mp ht
    exact .inr (writesForward_of_append rfl (toNat_ofNat_of_fits hfit))
  | emitRef =>
    obtain ⟨len, dist, g, ci, cur, old, -, -, -, hci, -, -, -, -, hfit, -, rfl⟩ := execEmitRef_next.mp ht
    refine .inr ⟨_, rfl, fun w hw => ?_⟩
    have hctrl : s.ctrlVal = ci.toNat := by simp [State.ctrlVal, hci]
    simp only [refWrites, List.mem_cons, List.not_mem_nil, or_false] at hw
    dsimp only
    rw [toNat_ofNat_of_fits hfit]
    rcases hw with rfl | rfl | rfl
    · exact .inl ⟨by dsimp only; omega, .inl (Nat.le_refl _)⟩
    · exact .inl ⟨by dsimp only; omega, .inl (Nat.le_succ _)⟩
    · exact .inr ⟨rfl, hctrl.symm, by omega⟩
  | advance => obtain ⟨g, -, rfl⟩ := execAdvance_next.mp ht; exact .inr (writesForward_of_unwritten rfl)
  | finish => obtain rfl := execFinish_next.mp ht; exact .inr (writesForward_of_unwritten rfl)

end Instructions

/-! ## The canonical form -/

/-- Both byte spaces are in canonical form. -/
def MemCanonical (s : State) : Prop := Mem.wf s.inMem = true ∧ Mem.wf s.outMem = true

theorem exec_keepsMemCanonical {i : Instr} {s t : State} (h : MemCanonical s) (ht : exec i s = .next t) :
    MemCanonical t := by
  obtain ⟨hin, hout⟩ := h
  have hmem : t.inMem = s.inMem := congrArg Prod.fst (exec_frame ht).1
  refine ⟨by rw [hmem]; exact hin, ?_⟩
  rcases exec_outMem ht with ⟨-, hfresh⟩ | ⟨ws, hws, -⟩
  · rw [hfresh]; rfl
  · rw [hws]; exact Mem.wf_writeAll ws hout

/-- `P` holds in the state a fetch leaves: the one its instruction runs in, or the next state where none runs. -/
def Fetched.Leaves (P : State → Prop) : Fetched → Prop
  | .run _ u => P u
  | .settled (.next u) => P u
  | .settled _ => True

section Fetches

variable {P : State → Prop} {s : State}

theorem engineFetch_leaves (h : P s) : (engineFetch s).Leaves P := by
  unfold engineFetch
  split
  · trivial
  · split
    · exact h
    · exact h
    · trivial

theorem consumerFetch_leaves (h : P s) : (consumerFetch s).Leaves P := by
  unfold consumerFetch
  split
  · exact h
  · split
    · exact h
    · trivial
    · trivial

theorem commandWrite_leaves (h : P s) (b : Byte) : (commandWrite b s).Leaves P := by
  rcases commandWrite_cases b s with ⟨-, hf | hf⟩ | ⟨-, hf⟩ <;> rw [hf] <;> exact h

theorem statusRead_leaves (h : ∀ b, P (s.record (.status b))) : (statusRead s).Leaves P := by
  unfold statusRead
  split
  · exact h _
  · trivial

theorem pollTurn_leaves (hstays : ∀ b, P (s.record (.status b))) (htaken : ∀ b, P (s.popMove.record (.status b))) :
    (pollTurn s).Leaves P := by
  unfold pollTurn
  split
  · exact statusRead_leaves hstays
  · exact statusRead_leaves htaken

theorem inLenWrite_leaves {v : Nat} (h : P { s with inLen := some v }) : (inLenWrite v s).Leaves P := by
  rcases inLenWrite_cases v s with ⟨-, hf⟩ | ⟨-, hf⟩ <;> rw [hf]
  · exact h
  · trivial

theorem inLenRead_leaves (h : ∀ v, P (s.record (.inLen v))) : (inLenRead s).Leaves P := by
  unfold inLenRead
  split
  · exact h _
  · trivial

theorem inWrite_leaves {i : Nat} {b : Byte} (h : P { s with inMem := Mem.write s.inMem i b }) :
    (inWrite i b s).Leaves P := by
  unfold inWrite
  split
  · trivial
  · exact h

theorem hostOutWrite_leaves {j : Nat} {b : Byte} (h : P { s with outMem := Mem.write s.outMem j b }) :
    (hostOutWrite j b s).Leaves P := by
  unfold hostOutWrite
  split
  · trivial
  · split
    · exact h
    · trivial

theorem hostOutRead_leaves {j : Nat} (hbyte : ∀ b, P (s.record (.out j b)))
    (hfree : P { s.record (.out j (Config.freeByte s.draws)) with draws := s.draws + 1 }) :
    (hostOutRead j s).Leaves P := by
  unfold hostOutRead
  split
  · split
    · split
      · exact hbyte _
      · trivial
    · exact hfree
  · trivial

theorem resultFeed_leaves {mode : BitVec 1} (h : ∀ bytes, P { s with consumer := Consumer.fed bytes mode }) :
    (resultFeed mode s).Leaves P := by
  unfold resultFeed
  split
  · split
    · exact h _
    · trivial
  · trivial

/-- Of the host's moves only its writes to IN and OUT touch a memory, by one byte each. -/
theorem hostMove_leaves_memCanonical (h : MemCanonical s) (m : HostMove) : (hostMove m s).Leaves MemCanonical := by
  obtain ⟨hin, hout⟩ := h
  cases m with
  | wrCmd b => exact commandWrite_leaves ⟨hin, hout⟩ b
  | wrInLen v => exact inLenWrite_leaves ⟨hin, hout⟩
  | wrStatus b => exact ⟨hin, hout⟩
  | wrOutLen v => exact ⟨hin, hout⟩
  | rdCmd => trivial
  | rdInLen => exact inLenRead_leaves fun _ => ⟨hin, hout⟩
  | rdStatus => exact statusRead_leaves fun _ => ⟨hin, hout⟩
  | rdOutLen => exact ⟨hin, hout⟩
  | poll => exact pollTurn_leaves (fun _ => ⟨hin, hout⟩) fun _ => ⟨hin, hout⟩
  | wrIn i b => exact inWrite_leaves ⟨Mem.wf_write i b hin, hout⟩
  | wrOut j b => exact hostOutWrite_leaves ⟨hin, Mem.wf_write j b hout⟩
  | rdOut j => exact hostOutRead_leaves (fun _ => ⟨hin, hout⟩) ⟨hin, hout⟩
  | answer a => exact ⟨hin, hout⟩
  | reset => exact ⟨hin, hout⟩
  | feed bytes mode => exact ⟨hin, hout⟩
  | feedResult mode => exact resultFeed_leaves fun _ => ⟨hin, hout⟩

theorem hostFetch_leaves_memCanonical (h : MemCanonical s) : (hostFetch s).Leaves MemCanonical := by
  unfold hostFetch
  split
  · exact hostMove_leaves_memCanonical h _
  · exact h

theorem fetch_leaves_memCanonical (h : MemCanonical s) : (fetch s).Leaves MemCanonical := by
  have hpop : MemCanonical s.popTurn := h
  rcases fetch_cases s with ⟨-, hf⟩ | ⟨-, hf⟩ | ⟨-, -, ⟨-, hf⟩ | ⟨-, hf⟩ | ⟨-, hf⟩⟩ <;> rw [hf]
  · trivial
  · trivial
  · exact engineFetch_leaves hpop
  · exact hostFetch_leaves_memCanonical hpop
  · exact consumerFetch_leaves hpop

end Fetches

/-- Settles O42: fetching leaves both memories canonical, and so does the instruction fetched. -/
theorem stepKeepsMemoryCanonical : Obligations.StepKeepsMemoryCanonical := by
  intro s t ht hin hout
  have hleft := fetch_leaves_memCanonical ⟨hin, hout⟩
  rcases step_next.mp ht with ⟨i, u, hf, hexec⟩ | hf <;> rw [hf] at hleft
  · exact exec_keepsMemCanonical hleft hexec
  · exact hleft

/-! ## The engine's turn -/

section EngineTurn

variable {s t : State}

/-- A step answers only in a state whose PHASE and ERR are the machine's. -/
theorem legal_of_step_next (ht : step s = .next t) : s.phase.toNat < 12 ∧ s.err ≠ Err.reserved := by
  have hp : s.phase.toNat < 12 := by
    by_contra hp
    rw [step_of_reservedPhase (Nat.not_lt.mp hp)] at ht
    cases ht
  refine ⟨hp, fun he => ?_⟩
  rw [step_of_reservedErr hp he] at ht
  cases ht

/-- The engine's turn takes the turn and no more, or runs a micro-operation of its PHASE (R68). -/
theorem step_engine_cases (hm : s.mover = .engine) (ht : step s = .next t) :
    t = s.popTurn ∨ ∃ i, microPhase i = some s.phase ∧ exec i s.popTurn = .next t := by
  obtain ⟨hlegal, he⟩ := legal_of_step_next ht
  have run : ∀ {p : BitVec 4} (i : Instr), s.popTurn.phase = p → microPhase i = some p → exec i s.popTurn = .next t →
      ∃ i, microPhase i = some s.phase ∧ exec i s.popTurn = .next t :=
    fun i hp hi hexec => ⟨i, by rw [hi, ← hp]; rfl, hexec⟩
  rw [step_of_engine hlegal he hm] at ht
  rcases engineFetch_cases (s := s.popTurn) hlegal with ⟨-, hf⟩ | ⟨hp, hf⟩ | ⟨hp, hf⟩ | ⟨hp, hf⟩ | ⟨hp, hf⟩ |
    ⟨hp, hf⟩ | ⟨hp, hf⟩ | ⟨-, -, hf⟩ | ⟨hp, -, hf⟩ | ⟨hp, -, hf⟩ | ⟨hp, hf⟩ | ⟨hp, hf⟩ <;> rw [hf] at ht
  · cases ht; exact .inl rfl
  · exact .inr (run .check hp rfl ht)
  · exact .inr (run .alloc hp rfl ht)
  · exact .inr (run .header hp rfl ht)
  · exact .inr (run .loop hp rfl ht)
  · exact .inr (run .openGroup hp rfl ht)
  · exact .inr (run .search hp rfl ht)
  · cases ht
  · exact .inr (run .emitLit hp rfl ht)
  · exact .inr (run .emitRef hp rfl ht)
  · exact .inr (run .advance hp rfl ht)
  · exact .inr (run .finish hp rfl ht)

/-- The engine's turn leaves alone what is the host's and the consumer's. -/
theorem step_engine_frame (hm : s.mover = .engine) (ht : step s = .next t) :
    t.hostSide = s.hostSide ∧ t.consumer = s.consumer := by
  rcases step_engine_cases hm ht with rfl | ⟨i, hi, hexec⟩
  · exact ⟨rfl, rfl⟩
  · obtain ⟨hhost, hconsumer⟩ := exec_frame hexec
    exact ⟨hhost, hconsumer (by rw [hi]; rfl)⟩

end EngineTurn

/-- Settles O46. -/
theorem engineOnlyReadsTheInput : Obligations.EngineOnlyReadsTheInput := by
  intro s t hm ht
  obtain ⟨hhost, hconsumer⟩ := step_engine_frame hm ht
  simp only [State.hostSide, Prod.mk.injEq] at hhost
  obtain ⟨hin, hlen, hmoves, hreadings, halloc, hdraws⟩ := hhost
  exact ⟨hin, hlen, hmoves, hreadings, hconsumer, halloc, hdraws⟩

/-- Settles O47: of the micro-operations from HEADER on, HEADER starts from OUT_LEN = 0, and where EMIT_REF writes the
control byte its group is open, so CTRL_IDX is below OUT_LEN. -/
theorem engineWritesOnlyNewBytesAndTheControlByte : Obligations.EngineWritesOnlyNewBytesAndTheControlByte := by
  intro s t h hm hlo ht a hne
  rcases step_engine_cases hm ht with rfl | ⟨i, hi, hexec⟩
  · exact absurd rfl hne
  · rcases exec_outMem hexec with ⟨rfl, -⟩ | ⟨ws, hws, hnew⟩
    · have hp : Phase.alloc = s.phase := Option.some.inj hi
      rw [← hp] at hlo
      exact absurd hlo (by decide)
    · rw [hws] at hne
      obtain ⟨w, hw, rfl⟩ := Mem.exists_mem_of_read_writeAll_ne hne
      rcases hnew w hw with ⟨hlt, hle | rfl⟩ | ⟨rfl, hctrl, hgrows⟩
      · exact ⟨hlt, .inl hle⟩
      · have hp : Phase.header = s.phase := Option.some.inj hi
        have hzero : s.outLen = 0#32 := h.out_zero (by rw [← hp]; decide)
        exact ⟨hlt, .inl (by rw [hzero]; exact Nat.zero_le _)⟩
      · have hp : Phase.emit = s.phase := Option.some.inj hi
        obtain ⟨⟨-, -, ⟨-, -, hbelow⟩, -⟩, -⟩ := h.at_emit hp.symm
        exact ⟨by rw [hctrl]; exact lt_of_lt_of_le hbelow hgrows, .inr hctrl⟩

/-! ## The host's read of OUT (R44, R52) -/

section HostOutRead

variable {s : State} {j cap : Nat} (hcap : s.outCap = some cap) (hj : j < cap)
include hcap hj

theorem outExists_of_lt : outExists s j = true := by
  simp only [outExists, hcap, hj, decide_true]

theorem hostOutRead_of_result {b : Byte} (hp : s.phase = Phase.done) (hlt : j < s.outLen.toNat)
    (hb : Mem.read s.outMem j = some b) : hostOutRead j s = goOn (s.record (.out j b)) := by
  rw [hostOutRead, if_pos (outExists_of_lt hcap hj), if_pos ⟨hp, hlt⟩, outRead_eq_ok.mpr hb]

theorem hostOutRead_of_free (h : s.phase ≠ Phase.done ∨ s.outLen.toNat ≤ j) :
    hostOutRead j s = goOn { s.record (.out j (Config.freeByte s.draws)) with draws := s.draws + 1 } := by
  have hno : ¬(s.phase = Phase.done ∧ j < s.outLen.toNat) := fun ⟨hp, hlt⟩ =>
    h.elim (fun hne => hne hp) fun hle => absurd hlt (Nat.not_lt.mpr hle)
  rw [hostOutRead, if_pos (outExists_of_lt hcap hj), if_neg hno]

end HostOutRead

/-- Settles O35. -/
theorem hostReadsOutOnlyAtDone : Obligations.HostReadsOutOnlyAtDone := by
  intro s ms j cap hp he hm hmoves hcap hj
  rw [step_of_host hp he hm hmoves, hostMove]
  refine ⟨fun b hdone hlt hb => ?_, fun hfree => ?_⟩
  · rw [hostOutRead_of_result (s := s.popTurn.popMove) hcap hj hdone hlt hb, outcome_goOn, popTurn_popMove hmoves]; rfl
  · rw [hostOutRead_of_free (s := s.popTurn.popMove) hcap hj hfree, outcome_goOn, popTurn_popMove hmoves]; rfl

end Sys2Proof.Machine

/-! The encodings (spec/30_encoding.md R56 to R70): each field as a number, encode and decode inverse to each other, and what
each context reads. -/

namespace Sys2Proof.Machine

/-! ## Fields as numbers -/

/-- Two fields side by side: the number whose low `v` bits are `lo`. -/
theorem toNat_shiftLeft_or {w v : Nat} (hi : BitVec w) (lo : BitVec v) :
    (hi.setWidth (w + v) <<< v ||| lo.setWidth (w + v)).toNat = hi.toNat * 2 ^ v + lo.toNat := by
  have hhi : hi.toNat * 2 ^ v < 2 ^ (w + v) := by
    rw [Nat.pow_add]; exact Nat.mul_lt_mul_of_pos_right hi.isLt (Nat.two_pow_pos v)
  rw [BitVec.toNat_or, BitVec.toNat_shiftLeft, BitVec.toNat_setWidth_of_le (Nat.le_add_right w v),
    BitVec.toNat_setWidth_of_le (Nat.le_add_left v w), Nat.shiftLeft_eq, Nat.mod_eq_of_lt hhi, Nat.mul_comm,
    Nat.two_pow_add_eq_or_of_lt lo.isLt]

theorem toNat_byteOf (v k : Nat) : (byteOf v k).toNat = v / 2 ^ (8 * k) % 256 := by
  rw [byteOf, BitVec.toNat_ofNat, Nat.shiftRight_eq_div_pow]

theorem sizeField_byteOf {size : Nat} (h : size ≤ Config.maxIn) :
    sizeField (byteOf size 0) (byteOf size 1) (byteOf size 2) = size := by
  change size ≤ 0xFFFFFF at h
  simp only [sizeField, toNat_byteOf, Nat.reduceMul]
  omega

theorem sizeField_le (s0 s1 s2 : Byte) : sizeField s0 s1 s2 ≤ Config.maxIn := by
  have h0 := s0.isLt
  have h1 := s1.isLt
  have h2 := s2.isLt
  change sizeField s0 s1 s2 ≤ 0xFFFFFF
  unfold sizeField
  omega

/-- A header's size has exactly the three bytes it was read from (R58). -/
theorem byteOf_sizeField (s0 s1 s2 : Byte) :
    byteOf (sizeField s0 s1 s2) 0 = s0 ∧ byteOf (sizeField s0 s1 s2) 1 = s1 ∧ byteOf (sizeField s0 s1 s2) 2 = s2 := by
  have h0 := s0.isLt
  have h1 := s1.isLt
  have h2 := s2.isLt
  refine ⟨?_, ?_, ?_⟩ <;> apply BitVec.eq_of_toNat_eq <;> rw [toNat_byteOf, sizeField] <;> omega

theorem refLength_eq (b0 : Byte) : refLength b0 = b0.toNat / 16 + 3 := by
  have h := b0.isLt
  simp only [refLength, BitVec.extractLsb'_toNat, Nat.shiftRight_eq_div_pow]
  omega

theorem refDistance_eq (b0 b1 : Byte) : refDistance b0 b1 = b0.toNat % 16 * 256 + b1.toNat + 1 := by
  rw [refDistance, toNat_shiftLeft_or (w := 4) (v := 8)]
  simp only [BitVec.extractLsb'_toNat, Nat.shiftRight_zero, Nat.reducePow]

/-- The layout `LLLLDDDD dddddddd` (R63, R65), first byte. -/
theorem toNat_refByte0 {length distance : Nat} (hl : length ≤ Config.maxLen) (hd : distance ≤ Config.window) :
    (refByte0 length distance).toNat = 16 * (length - 3) + (distance - 1) / 256 := by
  rw [refByte0, toNat_shiftLeft_or (w := 4) (v := 4)]
  simp only [BitVec.extractLsb'_toNat, BitVec.toNat_ofNat, Nat.shiftRight_eq_div_pow, Nat.reducePow]
  change length ≤ 18 at hl
  change distance ≤ 4096 at hd
  omega

/-- The layout `LLLLDDDD dddddddd` (R63, R65), second byte. -/
theorem toNat_refByte1 (distance : Nat) : (refByte1 distance).toNat = (distance - 1) % 256 := by
  simp only [refByte1, BitVec.extractLsb'_toNat, BitVec.toNat_ofNat, Nat.shiftRight_zero]
  omega

/-- Settles O4. -/
theorem referenceFieldsAreTheLayout : Obligations.ReferenceFieldsAreTheLayout := by
  intro length distance h
  obtain ⟨-, hl, -, hd⟩ := ref_wellFormed_iff.mp h
  exact ⟨_, _, rfl, toNat_refByte0 hl hd, toNat_refByte1 distance⟩

theorem ref_of_refBytes {length distance : Nat} (h : (Instr.ref length distance).WellFormed) :
    refLength (refByte0 length distance) = length ∧
      refDistance (refByte0 length distance) (refByte1 distance) = distance := by
  obtain ⟨hl, hl', hd, hd'⟩ := ref_wellFormed_iff.mp h
  rw [refLength_eq, refDistance_eq, toNat_refByte0 hl' hd', toNat_refByte1]
  omega

/-- Every pair of bytes is the encoding of a back-reference (R64, R67). -/
theorem refBytes_of_ref (b0 b1 : Byte) :
    (Instr.ref (refLength b0) (refDistance b0 b1)).WellFormed ∧
      refByte0 (refLength b0) (refDistance b0 b1) = b0 ∧ refByte1 (refDistance b0 b1) = b1 := by
  have h0 := b0.isLt
  have h1 := b1.isLt
  have hl : refLength b0 ≤ 18 := by rw [refLength_eq]; omega
  have hd : refDistance b0 b1 ≤ 4096 := by rw [refDistance_eq]; omega
  refine ⟨ref_wellFormed_iff.mpr ⟨Nat.le_add_left _ _, hl, Nat.le_add_left _ _, hd⟩, ?_, ?_⟩ <;>
    apply BitVec.eq_of_toNat_eq
  · rw [toNat_refByte0 hl hd, refLength_eq, refDistance_eq]; omega
  · rw [toNat_refByte1, refDistance_eq]; omega

/-- Settles O1: only HDR and REF have fields narrower than their operands; every other encoding computes. -/
theorem decodeOfEncodeIsTheInstruction : Obligations.DecodeOfEncodeIsTheInstruction := by
  intro i rest h
  cases i with
  | hdr size =>
    have hsize : size ≤ Config.maxIn := of_decide_eq_true h
    simp [Instr.selector, encode, decode, decodeHeader, sizeField_byteOf hsize]
  | ref length distance =>
    obtain ⟨hl, hd⟩ := ref_of_refBytes h
    simp [Instr.selector, encode, decode, decodeReference, hl, hd]
  | ctrl flags => rfl
  | lit value => rfl
  | startM0 => rfl
  | startM1 => rfl
  | check => rfl
  | alloc => rfl
  | header => rfl
  | loop => rfl
  | openGroup => rfl
  | search => rfl
  | emitLit => rfl
  | emitRef => rfl
  | advance => rfl
  | finish => rfl

/-- Settles O5: each word is the encoding of its instruction. -/
theorem specWordsDecodeAsWritten : Obligations.SpecWordsDecodeAsWritten :=
  have h := decodeOfEncodeIsTheInstruction
  ⟨h (.hdr 4099) [] rfl, h (.ctrl 0x7F#8) [] rfl, h (.lit 0xAA#8) [] rfl, h (.ref 7 257) [] rfl,
    h (.ref 18 4096) [] rfl, h .startM1 [] rfl, h .emitLit [] rfl, h .emitRef [] rfl, h .finish [] rfl⟩

/-! ## What the decoder reads -/

theorem decodeCommand_of_noStart {b : Byte} (h : b.getLsbD 0 = false) (rest : List Byte) :
    decodeCommand (b :: rest) = .error .noCommand := by
  simp only [decodeCommand, h, Bool.false_eq_true, if_false]

theorem decodeCommand_of_start {b : Byte} (h : b.getLsbD 0 = true) (rest : List Byte) :
    decodeCommand (b :: rest) = .ok (if b.getLsbD 1 then .startM1 else .startM0, rest) := by
  simp only [decodeCommand, h, if_true]
  split <;> rfl

/-- Settles O3. -/
theorem commandByteUsesOnlyItsTwoLowBits : Obligations.CommandByteUsesOnlyItsTwoLowBits := by
  refine ⟨fun b rest => ⟨fun h0 => decodeCommand_of_noStart h0 rest, fun h0 h1 => ?_, fun h0 h1 => ?_⟩, ?_, ?_, ?_⟩
  · rw [decode, decodeCommand_of_start h0, h1]; rfl
  · rw [decode, decodeCommand_of_start h0, h1]; rfl
  · exact decodeCommand_of_start (b := 0x01#8) (by decide) []
  · exact decodeCommand_of_start (b := 0x03#8) (by decide) []
  · exact decodeCommand_of_start (b := 0xFD#8) (by decide) []

section Decoded

variable {bs rest : List Byte} {i : Instr}

theorem decodeHeader_eq_ok : decodeHeader bs = .ok (i, rest) ↔
    ∃ s0 s1 s2, bs = Config.magic :: s0 :: s1 :: s2 :: rest ∧ i = .hdr (sizeField s0 s1 s2) := by
  constructor
  · intro h
    unfold decodeHeader at h
    split at h
    · split at h
      · next hm => cases h; exact ⟨_, _, _, by rw [hm], rfl⟩
      · cases h
    · cases h
  · rintro ⟨s0, s1, s2, rfl, rfl⟩
    rfl

theorem decodeControl_eq_ok : decodeControl bs = .ok (i, rest) ↔ ∃ c, bs = c :: rest ∧ i = .ctrl c := by
  cases bs <;> grind [decodeControl]

theorem decodeLiteral_eq_ok : decodeLiteral bs = .ok (i, rest) ↔ ∃ b, bs = b :: rest ∧ i = .lit b := by
  cases bs <;> grind [decodeLiteral]

theorem decodeReference_eq_ok : decodeReference bs = .ok (i, rest) ↔
    ∃ b0 b1, bs = b0 :: b1 :: rest ∧ i = .ref (refLength b0) (refDistance b0 b1) := by
  rcases bs with _ | ⟨b0, _ | ⟨b1, bs⟩⟩ <;> grind [decodeReference]

/-- The micro-operation map (R68) reads each code as the one instruction encoded by it. -/
theorem encode_of_phaseInstr {code : BitVec 4} {longMatch : Bool} (h : phaseInstr code longMatch = .ok i) :
    i.WellFormed ∧ encode i = [code.setWidth 8] := by
  rcases phase_cases code with
    rfl | rfl | rfl | rfl | rfl | rfl | rfl | rfl | rfl | rfl | rfl | rfl | rfl | rfl | rfl | rfl <;>
    cases longMatch <;> cases h
  all_goals exact ⟨rfl, rfl⟩

theorem decodePhase_eq_ok {longMatch : Bool} : decodePhase longMatch bs = .ok (i, rest) ↔
    ∃ b : Byte, bs = b :: rest ∧ b.toNat < 16 ∧ phaseInstr (b.setWidth 4) longMatch = .ok i := by
  cases bs with
  | nil => simp [decodePhase]
  | cons b bs =>
    by_cases hb : b.toNat < 16
    · cases hi : phaseInstr (b.setWidth 4) longMatch <;> simp [decodePhase, hb, hi, and_comm]
    · simp [decodePhase, hb]

theorem decodeCommand_eq_ok : decodeCommand bs = .ok (i, rest) ↔
    ∃ b, bs = b :: rest ∧ b.getLsbD 0 = true ∧ i = if b.getLsbD 1 then .startM1 else .startM0 := by
  cases bs <;> grind [decodeCommand]

end Decoded

/-- Settles O2. -/
theorem decodedInstructionReencodesToItsBytes : Obligations.DecodedInstructionReencodesToItsBytes := by
  intro sel bs i rest h
  cases sel with
  | header =>
    obtain ⟨s0, s1, s2, rfl, rfl⟩ := decodeHeader_eq_ok.mp h
    obtain ⟨h0, h1, h2⟩ := byteOf_sizeField s0 s1 s2
    refine ⟨decide_eq_true (sizeField_le s0 s1 s2), fun _ => ?_⟩
    rw [encode, h0, h1, h2]; rfl
  | control =>
    obtain ⟨c, rfl, rfl⟩ := decodeControl_eq_ok.mp h
    exact ⟨rfl, fun _ => rfl⟩
  | token isRef =>
    cases isRef with
    | false =>
      obtain ⟨b, rfl, rfl⟩ := decodeLiteral_eq_ok.mp h
      exact ⟨rfl, fun _ => rfl⟩
    | true =>
      obtain ⟨b0, b1, rfl, rfl⟩ := decodeReference_eq_ok.mp h
      obtain ⟨hwf, h0, h1⟩ := refBytes_of_ref b0 b1
      refine ⟨hwf, fun _ => ?_⟩
      rw [encode, h0, h1]; rfl
  | command =>
    obtain ⟨b, -, -, rfl⟩ := decodeCommand_eq_ok.mp h
    exact ⟨by split <;> rfl, fun hne => absurd rfl hne⟩
  | phase longMatch =>
    obtain ⟨b, rfl, hb, hi⟩ := decodePhase_eq_ok.mp h
    obtain ⟨hwf, henc⟩ := encode_of_phaseInstr hi
    have hback : (b.setWidth 4).setWidth 8 = b := by
      apply BitVec.eq_of_toNat_eq
      rw [BitVec.toNat_setWidth, BitVec.toNat_setWidth]
      omega
    exact ⟨hwf, fun _ => by rw [henc, hback]; rfl⟩

end Sys2Proof.Machine

/-! The output as the grammar's groups (spec/30_encoding.md R57, R60, R72): the control byte's bits, the loop of Compress as
tokens placed one by one, and tokens placed as groups. -/

namespace Sys2Proof.Machine

/-! ## Control bytes (R60, R61) -/

/-- The mask of place `g` has bit `7 - g` alone, and none where `g` is no place of a group. -/
theorem getLsbD_flagMask {g k : Nat} (hk : k < 8) : (flagMask g).getLsbD (7 - k) = decide (g = k) := by
  have h : (0x80#8).getLsbD (g + (7 - k)) = decide (g + (7 - k) = 7) := by
    rw [show 0x80#8 = BitVec.twoPow 8 7 from rfl, BitVec.getLsbD_twoPow]
    simp [eq_comm]
  rw [flagMask, BitVec.getLsbD_ushiftRight, h, decide_eq_decide]
  omega

/-- The control byte of tokens from place `j` on: a bit below `j` is 0, as is one past the last token. -/
theorem getLsbD_groupControl (ts : List Instr) {j k : Nat} (hk : k < 8) :
    (groupControl j ts).getLsbD (7 - k) = (decide (j ≤ k) && (ts[k - j]?).any isRef) := by
  induction ts generalizing j with
  | nil => simp [groupControl]
  | cons t ts ih =>
    have hflag : (if isRef t then flagMask j else 0x00#8).getLsbD (7 - k) = (isRef t && decide (j = k)) := by
      cases isRef t
      · simp
      · simp [getLsbD_flagMask hk]
    rw [groupControl, BitVec.getLsbD_or, hflag, ih]
    rcases Nat.lt_trichotomy j k with h | rfl | h
    · rw [show k - j = k - (j + 1) + 1 by omega, List.getElem?_cons_succ]
      simp [h.ne, h.le, Nat.succ_le_of_lt h]
    · simp
    · simp [h.ne', Nat.not_le.mpr h, Nat.not_le.mpr (Nat.lt_succ_of_lt h)]

/-- Settles O59. -/
theorem controlByteFlagsTheReferences : Obligations.ControlByteFlagsTheReferences := by
  intro ts k hk
  rw [getLsbD_groupControl ts hk]
  cases ts[k]? <;> simp

/-! ## The loop of Compress as tokens placed one by one (R98, R99, R103) -/

/-- What EMIT does to the output for a token in place `g` of the group whose control byte stands at `ci`: its bytes
are appended, and a reference's bit is set. -/
def placeToken (g ci : Nat) (t : Instr) (out : List Byte) : List Byte :=
  (out ++ encode t).modify ci fun c => if isRef t then setFlag c g else c

/-- A token list placed from place `g` on, a fresh control byte before each token in place 0. -/
def placeTokens : List Instr → (g ci : Nat) → List Byte → List Byte
  | [], _, _, out => out
  | t :: ts, g, ci, out =>
    placeTokens ts ((g + 1) % 8) (if g = 0 then out.length else ci)
      (placeToken g (if g = 0 then out.length else ci) t (if g = 0 then out ++ [0x00#8] else out))

theorem placeTokens_cons_zero (t : Instr) (ts : List Instr) (ci : Nat) (out : List Byte) :
    placeTokens (t :: ts) 0 ci out = placeTokens ts 1 out.length (placeToken 0 out.length t (out ++ [0x00#8])) := rfl

theorem placeTokens_cons_of_ne {g : Nat} (hg : g ≠ 0) (t : Instr) (ts : List Instr) (ci : Nat) (out : List Byte) :
    placeTokens (t :: ts) g ci out = placeTokens ts ((g + 1) % 8) ci (placeToken g ci t out) := by
  simp only [placeTokens, if_neg hg]

theorem placeToken_lit (g ci : Nat) (b : Byte) (out : List Byte) : placeToken g ci (.lit b) out = out ++ [b] :=
  List.modify_id ci (out ++ [b])

theorem placeToken_ref (g ci length distance : Nat) (out : List Byte) :
    placeToken g ci (.ref length distance) out =
      (out ++ [refByte0 length distance, refByte1 distance]).modify ci fun c => setFlag c g := rfl

/-- The loop places the tokens of the greedy parse. -/
theorem compressLoop_eq_placeTokens (xs : List Byte) (md fuel cur g ci : Nat) (out : List Byte) :
    compressLoop xs md fuel cur g ci out = placeTokens ((parseFrom xs md fuel cur).map Prod.snd) g ci out := by
  induction fuel generalizing cur g ci out with
  | zero => rfl
  | succ fuel ih =>
    by_cases hcur : cur < xs.length
    · have hx : (xs[cur]?).toList = [xs[cur]] := by rw [List.getElem?_eq_getElem hcur]; rfl
      by_cases hm : (matchFind xs cur md).1 < Config.minMatch
      · simp only [compressLoop, parseFrom, if_pos hcur, if_pos hm, hx, ih, List.map_cons, List.map_nil,
          List.singleton_append, placeTokens, placeToken_lit]
      · simp only [compressLoop, parseFrom, if_pos hcur, if_neg hm, ih, List.map_cons, placeTokens, placeToken_ref]
    · simp only [compressLoop, parseFrom, if_neg hcur, List.map_nil, placeTokens]

/-! ## Tokens placed one by one as groups (R57, R72) -/

/-- A token placed in a group whose control byte stands after `pre`. -/
theorem placeToken_open (g : Nat) (t : Instr) (pre body : List Byte) (c : Byte) :
    placeToken g pre.length t (pre ++ c :: body) =
      pre ++ (c ||| if isRef t then flagMask g else 0x00#8) :: (body ++ encode t) := by
  have hc : (if isRef t then setFlag c g else c) = c ||| if isRef t then flagMask g else 0x00#8 := by
    cases isRef t
    · exact BitVec.or_zero.symm
    · rfl
  rw [placeToken, List.modify_eq_take_drop]
  simp [hc]

/-- The next tokens fill the group of which `used` tokens are placed, and those after them form groups of their own.
Where none is open `used` is 8: the next token begins a group, whatever bytes stand before it. -/
theorem placeTokens_eq_groups {ts : List Instr} {fuel used : Nat} (hf : ts.length ≤ fuel) (h1 : 1 ≤ used)
    (h8 : used ≤ 8) (pre body : List Byte) (c : Byte) :
    placeTokens ts (used % 8) pre.length (pre ++ c :: body) =
      pre ++ (c ||| groupControl used (ts.take (8 - used))) :: (body ++ (ts.take (8 - used)).flatMap encode) ++
        groupsBytes fuel (ts.drop (8 - used)) := by
  induction ts generalizing fuel used pre body c with
  | nil => cases fuel <;> simp [placeTokens, groupControl, groupsBytes]
  | cons t ts ih =>
    rw [List.length_cons] at hf
    rcases Nat.lt_or_eq_of_le h8 with hlt | rfl
    · have hnext : 8 - used = 8 - (used + 1) + 1 := by omega
      rw [Nat.mod_eq_of_lt hlt, placeTokens_cons_of_ne (by omega), placeToken_open,
        ih (fuel := fuel) (by omega) (by omega) hlt, hnext]
      simp [groupControl, BitVec.or_assoc]
    · obtain ⟨fuel, rfl⟩ : ∃ k, fuel = k + 1 := ⟨fuel - 1, by omega⟩
      rw [Nat.mod_self, placeTokens_cons_zero, placeToken_open,
        ih (used := 1) (fuel := fuel) (by omega) (by omega) (by omega)]
      simp [groupControl, groupsBytes, groupBytes, encode]

/-- Settles O52: the header is followed by the tokens, placed with no group open. -/
theorem outputIsHeaderAndGroups : Obligations.OutputIsHeaderAndGroups := by
  intro xs mode
  have h := placeTokens_eq_groups (ts := (parse xs mode).map Prod.snd) (used := 8) (Nat.le_refl _) (by decide)
    (Nat.le_refl 8) [] [byteOf xs.length 0, byteOf xs.length 1, byteOf xs.length 2] Config.magic
  rw [compressBytes, compressLoop_eq_placeTokens]
  refine h.trans ?_
  simp [groupControl, streamBytes, encode]

end Sys2Proof.Machine

/-! The match finder (spec/40_match_finder.md R80 to R91): the count of equal bytes, the scan's result as the first of the
longest candidates, and SEARCH as that function of its arguments. -/

namespace Sys2Proof.Machine

/-! ## A candidate's match (R83) -/

section MatchLength

variable {xs : List Byte} {p c k j : Nat}

/-- The bytes of a match agree. -/
theorem getElem?_eq_of_lt_matchLen (hj : j < matchLen xs p c k) : xs[p + j]? = xs[c + j]? := by
  induction k generalizing p c j with
  | zero => exact absurd hj (Nat.not_lt_zero j)
  | succ k ih =>
    rw [matchLen] at hj
    split_ifs at hj with heq
    · cases j with
      | zero => exact heq
      | succ j => simpa only [Nat.add_assoc, Nat.add_comm 1 j] using ih (Nat.lt_of_succ_lt_succ hj)
    · exact absurd hj (Nat.not_lt_zero j)

/-- A match below its cap ends at a mismatch. -/
theorem getElem?_ne_at_matchLen (hlt : matchLen xs p c k < k) :
    xs[p + matchLen xs p c k]? ≠ xs[c + matchLen xs p c k]? := by
  induction k generalizing p c with
  | zero => exact absurd hlt (Nat.not_lt_zero _)
  | succ k ih =>
    rw [matchLen] at hlt ⊢
    split_ifs at hlt ⊢ with heq
    · simpa only [Nat.add_assoc, Nat.add_comm 1] using ih (Nat.lt_of_succ_lt_succ hlt)
    · exact heq

end MatchLength

/-- Settles O25. -/
theorem matchLengthIsTheLargest : Obligations.MatchLengthIsTheLargest :=
  fun xs p c k => ⟨matchLen_le xs p c k, fun _ => getElem?_eq_of_lt_matchLen, getElem?_ne_at_matchLen⟩

/-! ## The scan (R84 to R86) -/

section Scan

variable {xs : List Byte} {cur maxlen k p : Nat} {best : Nat × Nat}

/-- No candidate, and not the best the scan was given, is longer than what it returns: the early exit leaves out
candidates that cannot improve on the cap (R86). -/
theorem le_scanFrom : best.1 ≤ (scanFrom xs cur maxlen k p best).1 ∧
    ∀ q, p ≤ q → q < p + k → matchLen xs q cur maxlen ≤ (scanFrom xs cur maxlen k p best).1 := by
  induction k generalizing p best with
  | zero => exact ⟨Nat.le_refl _, fun q hq hq' => absurd hq' (Nat.not_lt.mpr hq)⟩
  | succ k ih =>
    have hextend {r : Nat} (hp : matchLen xs p cur maxlen ≤ r)
        (h : ∀ q, p + 1 ≤ q → q < p + 1 + k → matchLen xs q cur maxlen ≤ r)
        (q : Nat) (hq : p ≤ q) (hq' : q < p + (k + 1)) : matchLen xs q cur maxlen ≤ r := by
      rcases Nat.eq_or_lt_of_le hq with rfl | hq
      · exact hp
      · exact h q hq (by omega)
    rw [scanFrom]
    split_ifs with hlt hmax
    · exact ⟨hmax ▸ hlt.le, fun q _ _ => matchLen_le xs q cur maxlen⟩
    · obtain ⟨hbest, hcand⟩ := ih (p := p + 1) (best := (matchLen xs p cur maxlen, cur - p))
      exact ⟨hlt.le.trans hbest, hextend hbest hcand⟩
    · obtain ⟨hbest, hcand⟩ := ih (p := p + 1) (best := best)
      exact ⟨hbest, hextend ((Nat.not_lt.mp hlt).trans hbest) hcand⟩

/-- A candidate the scan returns is longer than the best it was given and than every candidate before it: the tie-break
of R85. -/
theorem scanFrom_first : scanFrom xs cur maxlen k p best = best ∨
    ∃ q, p ≤ q ∧ q < p + k ∧ best.1 < matchLen xs q cur maxlen ∧
      (∀ q', p ≤ q' → q' < q → matchLen xs q' cur maxlen < matchLen xs q cur maxlen) ∧
      scanFrom xs cur maxlen k p best = (matchLen xs q cur maxlen, cur - q) := by
  induction k generalizing p best with
  | zero => exact .inl rfl
  | succ k ih =>
    have hnone (q' : Nat) (hq : p ≤ q') (hq' : q' < p) : matchLen xs q' cur maxlen < matchLen xs p cur maxlen :=
      absurd hq' (Nat.not_lt.mpr hq)
    /- A later candidate longer than `p` and than those from `p + 1` on is longer than those from `p` on. -/
    have hextend {q : Nat} (hp : matchLen xs p cur maxlen < matchLen xs q cur maxlen)
        (h : ∀ q', p + 1 ≤ q' → q' < q → matchLen xs q' cur maxlen < matchLen xs q cur maxlen)
        (q' : Nat) (hq : p ≤ q') (hq' : q' < q) : matchLen xs q' cur maxlen < matchLen xs q cur maxlen := by
      rcases Nat.eq_or_lt_of_le hq with rfl | hq
      · exact hp
      · exact h q' hq hq'
    rw [scanFrom]
    split_ifs with hlt hmax
    · exact .inr ⟨p, Nat.le_refl p, by omega, hlt, hnone, by rw [hmax]⟩
    · rcases ih (p := p + 1) (best := (matchLen xs p cur maxlen, cur - p)) with h | ⟨q, hq, hq', hbest, hfirst, h⟩
      · exact .inr ⟨p, Nat.le_refl p, by omega, hlt, hnone, h⟩
      · exact .inr ⟨q, by omega, by omega, hlt.trans hbest, hextend hbest hfirst, h⟩
    · rcases ih (p := p + 1) (best := best) with h | ⟨q, hq, hq', hbest, hfirst, h⟩
      · exact .inl h
      · exact .inr ⟨q, by omega, by omega, hbest, hextend ((Nat.not_lt.mp hlt).trans_lt hbest) hfirst, h⟩

end Scan

/-! ## MatchFind by distances (R81, R87, R88) -/

/-- No eligible distance has a longer match than MatchFind's. -/
theorem matchLen_le_matchFind {xs : List Byte} {cur md d : Nat} (hd : md + 1 ≤ d) (hd' : d ≤ windowLen cur) :
    matchLen xs (cur - d) cur (maxMatch xs.length cur) ≤ (matchFind xs cur md).1 := by
  have hw : windowLen cur ≤ cur := Nat.min_le_left _ _
  exact le_scanFrom.2 (cur - d) (by omega) (by omega)

/-- MatchFind's result: nothing, or an eligible distance with its match, longer than that of every larger one. -/
theorem matchFind_farthest (xs : List Byte) (cur md : Nat) : matchFind xs cur md = (0, 0) ∨
    ∃ d, md + 1 ≤ d ∧ d ≤ windowLen cur ∧
      (∀ d', d < d' → d' ≤ windowLen cur →
        matchLen xs (cur - d') cur (maxMatch xs.length cur) < matchLen xs (cur - d) cur (maxMatch xs.length cur)) ∧
      1 ≤ matchLen xs (cur - d) cur (maxMatch xs.length cur) ∧
      matchFind xs cur md = (matchLen xs (cur - d) cur (maxMatch xs.length cur), d) := by
  have hw : windowLen cur ≤ cur := Nat.min_le_left _ _
  rcases scanFrom_first (xs := xs) (cur := cur) (maxlen := maxMatch xs.length cur) (k := windowLen cur - md)
    (p := cur - windowLen cur) (best := (0, 0)) with h | ⟨q, hq, hq', hpos, hfirst, h⟩
  · exact .inl h
  · have hback : cur - (cur - q) = q := by omega
    refine .inr ⟨cur - q, by omega, by omega, fun d' hd hd' => ?_, ?_, ?_⟩ <;> rw [hback]
    · exact hfirst (cur - d') (by omega) (by omega)
    · exact hpos
    · exact h

/-- Settles O26: a distance above the one found would have a strictly shorter match. -/
theorem matchFindClosedForm : Obligations.MatchFindClosedForm := by
  intro xs cur md _
  obtain ⟨-, hzero, -, -⟩ := matchFind_bounds xs cur md
  refine ⟨fun d => matchLen_le_matchFind, hzero, fun hpos => ?_⟩
  rcases matchFind_farthest xs cur md with h | ⟨d, hd, hd', hfar, -, h⟩
  · rw [h] at hpos
    exact absurd hpos (by decide)
  · rw [h]
    refine ⟨hd, hd', rfl, fun d' _ hw heq => ?_⟩
    by_contra hlt
    exact (hfar d' (Nat.not_le.mp hlt) hw).ne heq

/-! ## SEARCH (R89, R91) -/

theorem matchFind_fits (xs : List Byte) (cur md : Nat) :
    (matchFind xs cur md).1 < 2 ^ 5 ∧ (matchFind xs cur md).2 < 2 ^ 13 := by
  obtain ⟨hlen, -, -, hdist⟩ := matchFind_bounds xs cur md
  exact ⟨(Nat.le_min.mp hlen).1.trans_lt (by decide), (Nat.le_min.mp hdist).2.trans_lt (by decide)⟩

/-- Settles O18. -/
theorem searchLatchesMatchFind : Obligations.SearchLatchesMatchFind := by
  intro s n cur mode xs hn hcur hmode hlt hxs
  obtain ⟨hlen, hdist⟩ := matchFind_fits xs cur.toNat (Config.minDist mode)
  exact ⟨_, _,
    execSearch_next.mpr
      ⟨n, cur, mode, xs, _, _, hn, hcur, hmode, hlt, hxs, fit_eq_ok.mpr ⟨hlen, rfl⟩, fit_eq_ok.mpr ⟨hdist, rfl⟩, rfl⟩,
    Prod.ext (toNat_ofNat_of_fits hlen) (toNat_ofNat_of_fits hdist)⟩

/-- The input bytes depend on the byte space below N alone. -/
theorem inBytes_ok_congr {m m' : Mem} {n : Nat} {xs : List Byte} (h : inBytes m n = .ok xs)
    (hm : ∀ i, i < n → Mem.read m i = Mem.read m' i) : inBytes m' n = .ok xs := by
  obtain ⟨hlen, hread⟩ := inBytes_eq_ok.mp h
  exact inBytes_eq_ok.mpr ⟨hlen, fun j hj => (hm j hj).symm.trans (hread j hj)⟩

/-- Settles O19: a SEARCH that answers has latched a function of CURSOR, MODE and the input bytes. -/
theorem searchDependsOnlyOnItsArguments : Obligations.SearchDependsOnlyOnItsArguments := by
  intro s t s' t' n ht ht' hn hn' hcur hmode hin
  obtain ⟨n₁, cur, mode, xs, len, dist, hn₁, hc, hm, -, hxs, hlen, hdist, rfl⟩ := execSearch_next.mp ht
  obtain ⟨n₂, cur', mode', xs', len', dist', hn₂, hc', hm', -, hxs', hlen', hdist', rfl⟩ := execSearch_next.mp ht'
  obtain rfl := Option.some.inj (hn.symm.trans hn₁)
  obtain rfl := Option.some.inj (hn'.symm.trans hn₂)
  obtain rfl := Option.some.inj (hc.symm.trans (hcur.trans hc'))
  obtain rfl := Option.some.inj (hm.symm.trans (hmode.trans hm'))
  obtain rfl := Except.ok.inj ((inBytes_ok_congr hxs hin).symm.trans hxs')
  obtain rfl := Except.ok.inj (hlen.symm.trans hlen')
  obtain rfl := Except.ok.inj (hdist.symm.trans hdist')
  exact ⟨rfl, rfl⟩

end Sys2Proof.Machine

/-! The token encoder (spec/41_token_encoder.md R95 to R104): its micro-operations one by one, then the greedy parse and
the length of the stream it gives. -/

namespace Sys2Proof.Machine

/-! ## LOOP, ADVANCE and the choice at EMIT (R95, R97, R100) -/

/-- Settles O16. -/
theorem loopChoosesThePhase : Obligations.LoopChoosesThePhase := by
  intro s cur n g hcur hn hg
  by_cases hend : cur.toNat = n
  · exact execLoop_next.mpr ⟨cur, n, hcur, hn, .inl ⟨hend, by rw [if_pos hend]⟩⟩
  · refine execLoop_next.mpr ⟨cur, n, hcur, hn, .inr ⟨hend, g, hg, ?_⟩⟩
    rw [if_neg hend]
    split <;> rfl

/-- Settles O22. -/
theorem advanceCountsModuloEight : Obligations.AdvanceCountsModuloEight :=
  fun _ g hg => ⟨g + 1#3, execAdvance_next.mpr ⟨g, hg, rfl⟩, BitVec.toNat_add g 1#3⟩

/-- Settles O8: EMIT is a PHASE the machine has, and taking the turn leaves BEST_LEN as it is. -/
theorem emitDispatchesOnBestLen : Obligations.EmitDispatchesOnBestLen := by
  intro s len hp he hm hlen
  have hf : engineFetch s.popTurn = .run (if 3 ≤ len.toNat then .emitRef else .emitLit) s.popTurn :=
    engineFetch_emit hp hlen
  rw [step_of_engine (by rw [hp]; decide) he hm, hf, outcome_run]
  simp only [← Nat.not_lt, ite_not]
  rfl

/-! ## OPEN and EMIT (R96, R98, R99) -/

/-- A register that takes its own content plus a number is added to. -/
theorem ofNat_toNat_add {w : Nat} (v : BitVec w) (k : Nat) : BitVec.ofNat w (v.toNat + k) = v + BitVec.ofNat w k := by
  rw [BitVec.ofNat_add, BitVec.ofNat_toNat, BitVec.setWidth_eq]

/-- Settles O17. -/
theorem openPlacesAControlByte : Obligations.OpenPlacesAControlByte := by
  intro s cap hcap hroom hfits
  refine ⟨_, execOpenGroup_next.mpr ⟨⟨cap, hcap, hroom⟩, hfits, rfl⟩, ?_, toNat_ofNat_of_fits hfits,
    Mem.read_write_same _ _ _, fun a ha => Mem.read_write_ne _ _ ha.symm⟩
  rw [ofNat_toNat_add]

/-- Settles O20. -/
theorem emitLitCopiesTheInputByte : Obligations.EmitLitCopiesTheInputByte := by
  intro s n cap cur b hn hcur hlt hb hcap hroom hfits hfits'
  refine ⟨_, execEmitLit_next.mpr ⟨cur, n, b, hcur, hn, hlt, hb, ⟨cap, hcap, hroom⟩, hfits, hfits', rfl⟩, ?_,
    Mem.read_write_same _ _ _, fun a ha => Mem.read_write_ne _ _ ha.symm⟩
  rw [ofNat_toNat_add, ofNat_toNat_add]

/-- Setting the flag of place `g` sets bit `7 - g` and no other (R60, R99). -/
theorem getLsbD_setFlag (c : Byte) {g k : Nat} (hg : g < 8) (hk : k < 8) :
    (setFlag c g).getLsbD k = (c.getLsbD k || decide (k = 7 - g)) := by
  have hmask : (flagMask g).getLsbD k = decide (k = 7 - g) := by
    have h := getLsbD_flagMask (g := g) (k := 7 - k) (by omega)
    rw [show 7 - (7 - k) = k by omega] at h
    rw [h, decide_eq_decide]
    omega
  rw [setFlag, BitVec.getLsbD_or, hmask]

/-- What EMIT_REF's writes leave to be read where the control byte stands before them. -/
theorem Mem.read_writeAll_refWrites (m : Mem) {outLen ci : Nat} (hci : ci < outLen) (g : Nat) (b0 b1 old : Byte) :
    Mem.read (Mem.writeAll m (refWrites outLen ci g b0 b1 old)) outLen = some b0 ∧
      Mem.read (Mem.writeAll m (refWrites outLen ci g b0 b1 old)) (outLen + 1) = some b1 ∧
      Mem.read (Mem.writeAll m (refWrites outLen ci g b0 b1 old)) ci = some (setFlag old g) := by
  have h1 : ci ≠ outLen + 1 := by omega
  simp [refWrites, Mem.writeAll, Mem.read_write, hci.ne, h1]

/-- Settles O21. -/
theorem emitRefWritesTheReference : Obligations.EmitRefWritesTheReference := by
  intro s cap len dist g ci cur old hlen hdist hg hci hcur hl hl' hd hd' hold hlt hcap hroom hfits hfits'
  have hroom' : ∀ w ∈ refWrites s.outLen.toNat ci.toNat g.toNat (refByte0 len.toNat dist.toNat)
      (refByte1 dist.toNat) old, ∃ c, s.outCap = some c ∧ w.1 < c := by
    simp only [refWrites, List.forall_mem_cons]
    exact ⟨⟨cap, hcap, by omega⟩, ⟨cap, hcap, hroom⟩, ⟨cap, hcap, by omega⟩, nofun⟩
  obtain ⟨hread0, hread1, hreadCtrl⟩ := Mem.read_writeAll_refWrites s.outMem hlt g.toNat
    (refByte0 len.toNat dist.toNat) (refByte1 dist.toNat) old
  refine ⟨_, execEmitRef_next.mpr ⟨len, dist, g, ci, cur, old, hlen, hdist, hg, hci, hcur,
    ref_wellFormed_iff.mpr ⟨hl, hl', hd, hd'⟩, hold, hroom', hfits, hfits', rfl⟩, ?_, ?_, ?_,
    ⟨_, hreadCtrl, fun k hk => getLsbD_setFlag old g.isLt hk⟩, fun a ha0 ha1 hac => Mem.read_writeAll_ne ?_⟩
  · rw [ofNat_toNat_add, ofNat_toNat_add, BitVec.ofNat_toNat]
  · rw [← toNat_refByte0 hl' hd', BitVec.ofNat_toNat, BitVec.setWidth_eq]
    exact hread0
  · rw [← toNat_refByte1, BitVec.ofNat_toNat, BitVec.setWidth_eq]
    exact hread1
  · simp only [refWrites, List.forall_mem_cons]
    exact ⟨ha0.symm, ha1.symm, hac.symm, nofun⟩

/-! ## The greedy parse (R97, R102, R103) -/

/-- The token emitted with CURSOR at `cur`: a literal of the byte there below the least match length, else MatchFind's
reference. -/
def TokenAt (xs : List Byte) (md cur : Nat) (t : Instr) : Prop :=
  ((matchFind xs cur md).1 < Config.minMatch ∧ ∃ b, xs[cur]? = some b ∧ t = .lit b) ∨
    (Config.minMatch ≤ (matchFind xs cur md).1 ∧ t = .ref (matchFind xs cur md).1 (matchFind xs cur md).2)

/-- How far a token moves CURSOR (R98, R99). -/
def tokenAdvance (t : Instr) : Nat :=
  match t with
  | .ref length _ => length
  | _ => 1

section Parse

variable {xs : List Byte} {md cur : Nat}

theorem parseFrom_of_le (h : xs.length ≤ cur) (fuel : Nat) : parseFrom xs md fuel cur = [] := by
  cases fuel with
  | zero => rfl
  | succ fuel => rw [parseFrom, if_neg (Nat.not_lt.mpr h)]

/-- While input is left, the parse emits the token at the cursor and goes on past it. -/
theorem parseFrom_succ (h : cur < xs.length) (fuel : Nat) : ∃ t, TokenAt xs md cur t ∧
    parseFrom xs md (fuel + 1) cur = (cur, t) :: parseFrom xs md fuel (cur + tokenAdvance t) := by
  have hx : xs[cur]? = some xs[cur] := List.getElem?_eq_getElem h
  by_cases hm : (matchFind xs cur md).1 < Config.minMatch
  · refine ⟨.lit xs[cur], .inl ⟨hm, _, hx, rfl⟩, ?_⟩
    simp only [parseFrom, if_pos h, if_pos hm, hx]
    rfl
  · refine ⟨_, .inr ⟨Nat.not_lt.mp hm, rfl⟩, ?_⟩
    simp only [parseFrom, if_pos h, if_neg hm]
    rfl

/-- A token covers at least one byte, and only bytes of the input. -/
theorem TokenAt.advance_bounds {t : Instr} (ht : TokenAt xs md cur t) (h : cur < xs.length) :
    1 ≤ tokenAdvance t ∧ cur + tokenAdvance t ≤ xs.length := by
  rcases ht with ⟨-, b, -, rfl⟩ | ⟨hmin, rfl⟩
  · exact ⟨Nat.le_refl 1, h⟩
  · have hmax := Nat.le_min.mp (matchFind_bounds xs cur md).1
    change 3 ≤ (matchFind xs cur md).1 at hmin
    change 1 ≤ (matchFind xs cur md).1 ∧ cur + (matchFind xs cur md).1 ≤ xs.length
    omega

/-- Every entry of the parse is the token emitted at its cursor, inside the input. -/
theorem tokenAt_of_mem_parseFrom {fuel c : Nat} {t : Instr} (ht : (c, t) ∈ parseFrom xs md fuel cur) :
    c < xs.length ∧ TokenAt xs md c t := by
  induction fuel generalizing cur with
  | zero => cases ht
  | succ fuel ih =>
    by_cases hcur : cur < xs.length
    · obtain ⟨t', ht', heq⟩ := parseFrom_succ hcur fuel
      rw [heq] at ht
      rcases List.mem_cons.mp ht with h | h
      · cases h
        exact ⟨hcur, ht'⟩
      · exact ih h
    · rw [parseFrom_of_le (Nat.not_lt.mp hcur)] at ht
      cases ht

theorem length_parseFrom_le (fuel : Nat) : (parseFrom xs md fuel cur).length ≤ fuel := by
  induction fuel generalizing cur with
  | zero => exact Nat.le_refl 0
  | succ fuel ih =>
    by_cases hcur : cur < xs.length
    · obtain ⟨t, -, heq⟩ := parseFrom_succ (md := md) hcur fuel
      rw [heq]
      exact Nat.succ_le_succ ih
    · rw [parseFrom_of_le (Nat.not_lt.mp hcur)]
      exact Nat.zero_le _

/-- With fuel for one token a byte, the tokens cover what is left of the input. -/
theorem sum_advance_parseFrom {fuel : Nat} (hfuel : xs.length ≤ cur + fuel) :
    ((parseFrom xs md fuel cur).map fun t => tokenAdvance t.2).sum = xs.length - cur := by
  induction fuel generalizing cur with
  | zero => exact (Nat.sub_eq_zero_of_le hfuel).symm
  | succ fuel ih =>
    by_cases hcur : cur < xs.length
    · obtain ⟨t, ht, heq⟩ := parseFrom_succ (md := md) hcur fuel
      obtain ⟨hpos, hle⟩ := ht.advance_bounds hcur
      have hrest := ih (cur := cur + tokenAdvance t) (by omega)
      simp only [heq, List.map_cons, List.sum_cons, hrest]
      omega
    · rw [parseFrom_of_le (Nat.not_lt.mp hcur)]
      exact (Nat.sub_eq_zero_of_le (Nat.not_lt.mp hcur)).symm

end Parse

/-- Settles O54. -/
theorem tokensCoverTheInput : Obligations.TokensCoverTheInput :=
  fun _ _ => ⟨length_parseFrom_le _, sum_advance_parseFrom (Nat.le_add_left _ _)⟩

/-! ## The length of the output (R104) -/

/-- Groups are as long as the bytes of their tokens and one control byte for every eight tokens begun. -/
theorem length_groupsBytes {fuel : Nat} {ts : List Instr} (hfuel : ts.length ≤ fuel) :
    (groupsBytes fuel ts).length = (ts.length + 7) / 8 + (ts.flatMap encode).length := by
  induction fuel generalizing ts with
  | zero =>
    obtain rfl := List.length_eq_zero_iff.mp (Nat.le_zero.mp hfuel)
    rfl
  | succ fuel ih =>
    cases ts with
    | nil => rfl
    | cons t ts =>
      have hsplit : ((t :: ts).flatMap encode).length =
          (((t :: ts).take 8).flatMap encode).length + (((t :: ts).drop 8).flatMap encode).length := by
        rw [← List.length_append, ← List.flatMap_append, List.take_append_drop]
      have hctrl (c : Byte) : (encode (.ctrl c)).length = 1 := rfl
      have hdrop : ((t :: ts).drop 8).length = ts.length - 7 := by simp
      rw [List.length_cons] at hfuel
      simp only [groupsBytes, List.isEmpty_cons, Bool.false_eq_true, if_false, groupBytes, List.length_append, hctrl,
        ih (ts := (t :: ts).drop 8) (by omega), hsplit, hdrop, List.length_cons]
      omega

/-- Tokens are as long as their literals and twice their references. -/
theorem length_flatMap_encode {ts : List (Nat × Instr)}
    (h : ∀ t ∈ ts, (encode t.2).length = if isRef t.2 then 2 else 1) :
    ((ts.map Prod.snd).flatMap encode).length =
      (ts.countP fun t => !isRef t.2) + 2 * ts.countP fun t => isRef t.2 := by
  induction ts with
  | nil => rfl
  | cons t ts ih =>
    obtain ⟨ht, hts⟩ := List.forall_mem_cons.mp h
    rw [List.map_cons, List.flatMap_cons, List.length_append, ih hts, ht, List.countP_cons, List.countP_cons]
    cases isRef t.2 <;> simp <;> omega

theorem TokenAt.length_encode {xs : List Byte} {md cur : Nat} {t : Instr} (ht : TokenAt xs md cur t) :
    (encode t).length = if isRef t then 2 else 1 := by
  rcases ht with ⟨-, b, -, rfl⟩ | ⟨-, rfl⟩ <;> rfl

/-- Settles O56: the output as header and groups, each counted. -/
theorem outputLengthFormula : Obligations.OutputLengthFormula := by
  intro xs mode
  have htokens := length_flatMap_encode (ts := parse xs mode) fun t ht => (tokenAt_of_mem_parseFrom ht).2.length_encode
  have hhdr : (encode (.hdr xs.length)).length = 4 := rfl
  rw [outputIsHeaderAndGroups xs mode, streamBytes, List.length_append, length_groupsBytes (Nat.le_refl _), htokens,
    hhdr, List.length_map]
  omega

end Sys2Proof.Machine

/-! The container serializer (spec/42_container.md R115 to R122): START and its micro-operations one by one, and what
the two states a run ends in show. -/

namespace Sys2Proof.Machine

/-! ## START (R115, R116) -/

section Start

variable {s : State} {mode : BitVec 1}

theorem waiting_of_phase (h : s.phase = Phase.idle ∨ s.phase = Phase.done ∨ s.phase = Phase.error) :
    s.busy = false ∧ s.waiting = true := by
  rcases h with h | h | h <;> simp [State.busy, State.waiting, h]

theorem startRun_of_inLen (h : s.phase = Phase.idle ∨ s.phase = Phase.done ∨ s.phase = Phase.error) {len : Nat}
    (hlen : s.inLen = some len) : ofExcept (startRun mode s) =
      .next { s with n := some len, mode := some mode, err := Err.none, outLen := 0#32, phase := Phase.check } := by
  obtain ⟨hbusy, hwaiting⟩ := waiting_of_phase h
  exact ofExcept_next.mpr (startRun_eq_ok.mpr (.inr ⟨hbusy, hwaiting, len, hlen, rfl⟩))

theorem startRun_of_noLength (h : s.phase = Phase.idle ∨ s.phase = Phase.done ∨ s.phase = Phase.error)
    (hlen : s.inLen = none) : ofExcept (startRun mode s) = .fault .startNoLength := by
  obtain ⟨hbusy, hwaiting⟩ := waiting_of_phase h
  simp [startRun, hbusy, hwaiting, hlen, ofExcept]

theorem startRun_of_busy (h : s.busy = true) : ofExcept (startRun mode s) = .next s :=
  ofExcept_next.mpr (startRun_eq_ok.mpr (.inl ⟨h, rfl⟩))

end Start

/-- Settles O10. -/
theorem startLatchesItsArguments : Obligations.StartLatchesItsArguments :=
  fun _ h => ⟨fun _ hlen => ⟨startRun_of_inLen h hlen, startRun_of_inLen h hlen⟩,
    fun hlen => ⟨startRun_of_noLength h hlen, startRun_of_noLength h hlen⟩⟩

/-- Settles O11. -/
theorem startDuringBusyHasNoEffect : Obligations.StartDuringBusyHasNoEffect :=
  fun _ hlo hhi => ⟨startRun_of_busy (busy_iff.mpr ⟨hlo, hhi⟩), startRun_of_busy (busy_iff.mpr ⟨hlo, hhi⟩)⟩

/-! ## CHECK, ALLOC, HEADER and FINISH (R117 to R120) -/

/-- Settles O12. -/
theorem checkTestsTheSize : Obligations.CheckTestsTheSize :=
  fun _ n hn => ⟨fun hle => execCheck_next.mpr ⟨n, hn, (if_neg (Nat.not_lt.mpr hle)).symm⟩,
    fun hlt => execCheck_next.mpr ⟨n, hn, (if_pos hlt).symm⟩⟩

/-- Settles O13: the fresh OUT lists no byte. -/
theorem allocTakesTheAnswer : Obligations.AllocTakesTheAnswer :=
  fun _ n hn => ⟨fun extra hextra => ⟨_, execAlloc_next.mpr ⟨n, hn, .inr ⟨extra, hextra, rfl⟩⟩, rfl, fun _ => rfl⟩,
    fun hrefused => execAlloc_next.mpr ⟨n, hn, .inl ⟨hrefused, rfl⟩⟩⟩

/-- A granted space of at least four bytes takes the header. -/
theorem headerWrites_lt {n cap : Nat} (h : Config.hdrLen ≤ cap) {o : Option Nat} (ho : o = some cap) :
    ∀ w ∈ headerWrites n, ∃ c, o = some c ∧ w.1 < c :=
  fun _ hw => ⟨cap, ho, (lt_hdrLen_of_mem_headerWrites hw).trans_le h⟩

theorem byteOf_eq_ofNat_div (v k : Nat) : byteOf v k = BitVec.ofNat 8 (v / 2 ^ (8 * k)) := by
  rw [byteOf, Nat.shiftRight_eq_div_pow]

/-- What HEADER's writes leave to be read at their four addresses. -/
theorem Mem.read_writeAll_headerWrites (m : Mem) (n : Nat) :
    Mem.read (Mem.writeAll m (headerWrites n)) 0 = some Config.magic ∧
      Mem.read (Mem.writeAll m (headerWrites n)) 1 = some (byteOf n 0) ∧
      Mem.read (Mem.writeAll m (headerWrites n)) 2 = some (byteOf n 1) ∧
      Mem.read (Mem.writeAll m (headerWrites n)) 3 = some (byteOf n 2) := by
  simp [headerWrites, Mem.writeAll, Mem.read_write]

/-- Settles O15. -/
theorem headerWritesFourBytes : Obligations.HeaderWritesFourBytes := by
  intro s n cap hn hcap hroom
  obtain ⟨hmagic, hbyte0, hbyte1, hbyte2⟩ := Mem.read_writeAll_headerWrites s.outMem n
  rw [byteOf_eq_ofNat_div] at hbyte0 hbyte1 hbyte2
  refine ⟨_, execHeader_next.mpr ⟨n, hn, headerWrites_lt hroom hcap, rfl⟩, rfl, hmagic, ?_, hbyte1, hbyte2,
    fun a ha => Mem.read_writeAll_ne fun w hw => ((lt_hdrLen_of_mem_headerWrites hw).trans_le ha).ne⟩
  simpa using hbyte0

/-- Settles O23. -/
theorem finishGoesToDone : Obligations.FinishGoesToDone := fun _ => execFinish_next.mpr rfl

/-! ## What DONE and ERROR show (R121, R122) -/

/-- Bytes that all hold a value are a slice. -/
theorem Mem.exists_slice {m : Mem} {a k : Nat} (h : ∀ j, j < k → (Mem.read m (a + j)).isSome) :
    ∃ xs, Mem.slice m a k = some xs := by
  induction k generalizing a with
  | zero => exact ⟨[], rfl⟩
  | succ k ih =>
    obtain ⟨b, hb⟩ := Option.isSome_iff_exists.mp (h 0 (Nat.succ_pos k))
    obtain ⟨bs, hbs⟩ := ih (a := a + 1) fun j hj => by
      rw [Nat.add_assoc, Nat.add_comm 1 j]; exact h (j + 1) (Nat.succ_lt_succ hj)
    exact ⟨b :: bs, by rw [Nat.add_zero] at hb; simp only [Mem.slice, hb, hbs]⟩

theorem resultBytes_eq_ok {s : State} {bytes : List Byte} :
    resultBytes s = .ok bytes ↔ Mem.slice s.outMem 0 s.outLen.toNat = some bytes := by
  unfold resultBytes
  cases Mem.slice s.outMem 0 s.outLen.toNat <;> simp

/-- The result is as long as OUT_LEN says. -/
theorem length_of_resultBytes {s : State} {bytes : List Byte} (h : resultBytes s = .ok bytes) :
    bytes.length = s.outLen.toNat := (Mem.slice_eq_some.mp (resultBytes_eq_ok.mp h)).1

/-- STATUS in a PHASE and with an ERR the machine has, as its two fields. -/
theorem statusByte_of_legal {s : State} (hp : s.phase.toNat < 12) (he : s.err ≠ Err.reserved) :
    s.statusByte = .ok ((if s.phase = Phase.idle then 0#2 else if s.phase = Phase.done then 2#2
      else if s.phase = Phase.error then 3#2 else 1#2).setWidth 8 ||| (s.err.setWidth 8 <<< 2)) :=
  statusByte_of_stateField (stateField_of_legal hp) he

/-- Settles O45. -/
theorem quiescentStatesShowTheirOutcome : Obligations.QuiescentStatesShowTheirOutcome := by
  refine fun s h => ⟨fun hp => ?_, fun hp => ?_⟩
  · have he : s.err = Err.none := h.err_none (by rw [hp]; decide)
    obtain ⟨⟨-, -, -, -, -, -, -, hwritten, -⟩, -⟩ := h.at_end (.inr hp)
    obtain ⟨bytes, hslice⟩ := Mem.exists_slice (a := 0) fun j hj => by rw [Nat.zero_add]; exact hwritten j hj
    have hbytes := resultBytes_eq_ok.mpr hslice
    refine ⟨?_, bytes, hbytes, length_of_resultBytes hbytes⟩
    rw [statusByte_of_legal h.phase_legal (by rw [he]; decide), hp, he]; rfl
  · obtain ⟨he, ho⟩ := h.at_error hp
    refine ⟨ho, he.imp (fun he => ⟨he, ?_⟩) fun he => ⟨he, ?_⟩⟩ <;>
      rw [statusByte_of_legal h.phase_legal (by rw [he]; decide), hp, he] <;> rfl

end Sys2Proof.Machine

/-! The whole run (spec/42_container.md R123, spec/70_reset_and_hazards.md R180): where a run stands with so many engine
steps left, each micro-operation as one step nearer to DONE, and the turns between as steps that change nothing of it. -/

namespace Sys2Proof.Machine

/-! ## The bytes written so far -/

section Slices

variable {m : Mem} {k ci g : Nat} {out : List Byte} {b b0 b1 v old : Byte}

theorem Mem.slice_write_append (h : Mem.slice m 0 k = some out) :
    Mem.slice (Mem.write m k b) 0 (k + 1) = some (out ++ [b]) := by
  obtain ⟨rfl, hread⟩ := Mem.slice_eq_some.mp h
  refine Mem.slice_eq_some.mpr ⟨by simp, fun j hj => ?_⟩
  rw [Nat.zero_add, Mem.read_write]
  rcases Nat.lt_succ_iff_lt_or_eq.mp hj with hlt | rfl
  · rw [if_neg hlt.ne', List.getElem?_append_left hlt, ← hread j hlt, Nat.zero_add]
  · simp

theorem Mem.slice_write_set (h : Mem.slice m 0 k = some out) (hci : ci < k) :
    Mem.slice (Mem.write m ci v) 0 k = some (out.set ci v) := by
  obtain ⟨rfl, hread⟩ := Mem.slice_eq_some.mp h
  refine Mem.slice_eq_some.mpr ⟨by simp, fun j hj => ?_⟩
  rw [Nat.zero_add, Mem.read_write, List.getElem?_set, if_pos hci, ← hread j hj, Nat.zero_add]

/-- EMIT_REF's writes append the reference and set its flag in the control byte (R99). -/
theorem Mem.slice_writeAll_refWrites (h : Mem.slice m 0 k = some out) (hci : ci < k)
    (hold : Mem.read m ci = some old) :
    Mem.slice (Mem.writeAll m (refWrites k ci g b0 b1 old)) 0 (k + 2) =
      some ((out ++ [b0, b1]).modify ci fun c => setFlag c g) := by
  obtain ⟨hlen, hread⟩ := Mem.slice_eq_some.mp h
  have hctrl : (out ++ [b0, b1])[ci]? = some old := by
    rw [List.getElem?_append_left (hlen ▸ hci), ← hread ci hci, Nat.zero_add, hold]
  have happend : Mem.slice (Mem.write (Mem.write m k b0) (k + 1) b1) 0 (k + 2) = some (out ++ [b0, b1]) := by
    simpa using Mem.slice_write_append (Mem.slice_write_append h)
  rw [List.modify_eq_set_getElem?, hctrl]
  exact Mem.slice_write_set happend (by omega)

/-- HEADER's writes are the header, whatever stood there (R119). -/
theorem Mem.slice_writeAll_headerWrites (m : Mem) (n : Nat) :
    Mem.slice (Mem.writeAll m (headerWrites n)) 0 4 = some [Config.magic, byteOf n 0, byteOf n 1, byteOf n 2] :=
  Mem.slice_write_append (Mem.slice_write_append (Mem.slice_write_append (Mem.slice_write_append (k := 0) rfl)))

end Slices

theorem resultBytes_of_slice {s : State} {k : Nat} {out : List Byte} (hlen : s.outLen.toNat = k)
    (h : Mem.slice s.outMem 0 k = some out) : resultBytes s = .ok out :=
  resultBytes_eq_ok.mpr (hlen.symm ▸ h)

/-! ## The tokens still to emit -/

/-- `ts` are the tokens of the greedy parse from `cur` to the end of the input (R103). -/
def Parses (xs : List Byte) (md cur : Nat) : List Instr → Prop
  | [] => cur = xs.length
  | t :: ts => cur < xs.length ∧ TokenAt xs md cur t ∧ Parses xs md (cur + tokenAdvance t) ts

section Tokens

variable {xs : List Byte} {md cur : Nat} {ts : List Instr} {t : Instr}

theorem parses_parseFrom {fuel : Nat} (hle : cur ≤ xs.length) (hfuel : xs.length ≤ cur + fuel) :
    Parses xs md cur ((parseFrom xs md fuel cur).map Prod.snd) := by
  induction fuel generalizing cur with
  | zero => exact Nat.le_antisymm hle hfuel
  | succ fuel ih =>
    rcases Nat.lt_or_eq_of_le hle with hlt | rfl
    · obtain ⟨t, ht, heq⟩ := parseFrom_succ (md := md) hlt fuel
      obtain ⟨hpos, hend⟩ := ht.advance_bounds hlt
      rw [heq]
      exact ⟨hlt, ht, ih hend (by dsimp only; omega)⟩
    · rw [parseFrom_of_le (Nat.le_refl _)]
      rfl

theorem parses_parse (xs : List Byte) (mode : BitVec 1) :
    Parses xs (Config.minDist mode) 0 ((parse xs mode).map Prod.snd) :=
  parses_parseFrom (Nat.zero_le _) (Nat.le_add_left _ _)

/-- A token has at least one byte, and at most one for each input byte it stands for. -/
theorem TokenAt.length_encode_le (h : TokenAt xs md cur t) :
    1 ≤ (encode t).length ∧ (encode t).length ≤ tokenAdvance t := by
  rcases h with ⟨-, b, -, rfl⟩ | ⟨hmin, rfl⟩
  · exact ⟨Nat.le_refl 1, Nat.le_refl 1⟩
  · exact ⟨Nat.le_succ 1, (Nat.le_succ 2).trans hmin⟩

/-- The tokens' bytes are at most as many as the input bytes left, and at least as many as the tokens. -/
theorem Parses.length_encode_le (h : Parses xs md cur ts) :
    ts.length ≤ (ts.flatMap encode).length ∧ cur + (ts.flatMap encode).length ≤ xs.length := by
  induction ts generalizing cur with
  | nil => exact ⟨Nat.le_refl 0, Nat.le_of_eq h⟩
  | cons t ts ih =>
    obtain ⟨-, ht, hts⟩ := h
    obtain ⟨hpos, hle⟩ := ht.length_encode_le
    obtain ⟨hcount, hbytes⟩ := ih hts
    rw [List.flatMap_cons, List.length_append, List.length_cons]
    omega

/-- The output fits the capacity requested (R6, R143). -/
theorem length_compressBytes_le (xs : List Byte) (mode : BitVec 1) :
    (compressBytes xs mode).length ≤ Config.reqCap xs.length := by
  obtain ⟨hcount, hbytes⟩ := (parses_parse xs mode).length_encode_le
  have hhdr : (encode (.hdr xs.length)).length = 4 := rfl
  rw [outputIsHeaderAndGroups xs mode, streamBytes, List.length_append, length_groupsBytes (Nat.le_refl _), hhdr]
  change _ ≤ 2 * xs.length + 5
  omega

theorem length_placeToken (g ci : Nat) (t : Instr) (out : List Byte) :
    (placeToken g ci t out).length = out.length + (encode t).length := by
  rw [placeToken, List.length_modify, List.length_append]

/-- Placing tokens takes no byte away. -/
theorem length_le_placeTokens (ts : List Instr) (g ci : Nat) (out : List Byte) :
    out.length ≤ (placeTokens ts g ci out).length := by
  induction ts generalizing g ci out with
  | nil => exact Nat.le_refl _
  | cons t ts ih =>
    refine le_trans ?_ (ih _ _ _)
    rw [length_placeToken]
    split
    · rw [List.length_append]; omega
    · omega

end Tokens

/-! ## Where a run stands -/

/-- What a run of the input `xs` in a mode holds from CHECK to DONE: its arguments, latched, and its input. -/
structure RunArgs (xs : List Byte) (mode : BitVec 1) (s : State) : Prop where
  n : s.n = some xs.length
  mode : s.mode = some mode
  err : s.err = Err.none
  size : xs.length ≤ Config.maxIn
  input : inBytes s.inMem xs.length = .ok xs

/-- A space of at least REQ_CAP(N) bytes is there (R118). -/
def HasRoom (xs : List Byte) (s : State) : Prop := ∃ cap, s.outCap = some cap ∧ Config.reqCap xs.length ≤ cap

/-- The current group's control byte stands at `ci` in the output. -/
def OpenAt (ci : Nat) (s : State) : Prop := ∃ v, s.ctrlIdx = some v ∧ v.toNat = ci ∧ ci < s.outLen.toNat

/-- Between the header and the end: `out` is written, the tokens `ts` are still to emit, the next in place `g`. -/
structure Encoding (xs : List Byte) (mode : BitVec 1) (ts : List Instr) (g : BitVec 3) (out : List Byte) (s : State) :
    Prop where
  room : HasRoom xs s
  written : resultBytes s = .ok out
  cursor : ∃ c, s.cursor = some c ∧ Parses xs (Config.minDist mode) c.toNat ts
  grp : s.grp = some g

/-- The last SEARCH at this CURSOR latched MatchFind's result (R89). -/
def Searched (xs : List Byte) (mode : BitVec 1) (s : State) : Prop :=
  ∃ len dist, s.bestLen = some len ∧ s.bestDist = some dist ∧
    matchFind xs s.cursorVal (Config.minDist mode) = (len.toNat, dist.toNat)

/-- What each PHASE of a run holds with `left` engine steps still to take to DONE: from LOOP on, placing the tokens
that are left completes the stream of Compress. Every token takes LOOP, SEARCH, EMIT and ADVANCE, and OPEN where it
begins a group. -/
inductive RunPhase (xs : List Byte) (mode : BitVec 1) (left : Nat) (s : State) : Prop where
  | check (hp : s.phase = Phase.check)
      (hleft : left = 5 + 4 * (parse xs mode).length + ((parse xs mode).length + 7) / 8)
  | alloc (hp : s.phase = Phase.alloc)
      (hleft : left = 4 + 4 * (parse xs mode).length + ((parse xs mode).length + 7) / 8)
  | header (hp : s.phase = Phase.header) (hroom : HasRoom xs s)
      (hleft : left = 3 + 4 * (parse xs mode).length + ((parse xs mode).length + 7) / 8)
  | loop {ts g out ci} (hp : s.phase = Phase.loop) (h : Encoding xs mode ts g out s)
      (hopen : g ≠ 0#3 → OpenAt ci s) (hstream : placeTokens ts g.toNat ci out = compressBytes xs mode)
      (hleft : left = 2 + 4 * ts.length + (ts.length + (g.toNat + 7) % 8) / 8)
  | openGroup {t ts out ci} (hp : s.phase = Phase.openGroup) (h : Encoding xs mode (t :: ts) 0#3 out s)
      (hstream : placeTokens (t :: ts) 0 ci out = compressBytes xs mode)
      (hleft : left = 6 + 4 * ts.length + ts.length / 8)
  | search {t ts g out ci} (hp : s.phase = Phase.search) (h : Encoding xs mode (t :: ts) g out s) (hopen : OpenAt ci s)
      (hstream : placeTokens ts ((g.toNat + 1) % 8) ci (placeToken g.toNat ci t out) = compressBytes xs mode)
      (hleft : left = 5 + 4 * ts.length + (ts.length + g.toNat) / 8)
  | emit {t ts g out ci} (hp : s.phase = Phase.emit) (h : Encoding xs mode (t :: ts) g out s) (hopen : OpenAt ci s)
      (hbest : Searched xs mode s)
      (hstream : placeTokens ts ((g.toNat + 1) % 8) ci (placeToken g.toNat ci t out) = compressBytes xs mode)
      (hleft : left = 4 + 4 * ts.length + (ts.length + g.toNat) / 8)
  | advance {ts g out ci} (hp : s.phase = Phase.advance) (h : Encoding xs mode ts g out s) (hopen : OpenAt ci s)
      (hstream : placeTokens ts ((g.toNat + 1) % 8) ci out = compressBytes xs mode)
      (hleft : left = 3 + 4 * ts.length + (ts.length + g.toNat) / 8)
  | finish (hp : s.phase = Phase.finish) (hresult : resultBytes s = .ok (compressBytes xs mode)) (hleft : left = 1)
  | done (hp : s.phase = Phase.done) (hresult : resultBytes s = .ok (compressBytes xs mode)) (hleft : left = 0)

/-- A run of `xs` in a mode with `left` engine steps to take to DONE. -/
structure RunAt (xs : List Byte) (mode : BitVec 1) (left : Nat) (s : State) : Prop where
  args : RunArgs xs mode s
  at_phase : RunPhase xs mode left s

/-- The outcome in which the run goes on with `left` engine steps to take, the turns to come and the host's answer
as they were. -/
def GoesOn (xs : List Byte) (mode : BitVec 1) (left : Nat) (s : State) (o : Host.Outcome State Fault Refusal) : Prop :=
  ∃ t, o = .next t ∧ t.sched = s.sched ∧ t.alloc = s.alloc ∧ RunAt xs mode left t

/-! ## One micro-operation is one step nearer to DONE -/

section MicroSteps

variable {xs : List Byte} {mode : BitVec 1} {ts : List Instr} {t : Instr} {g : BitVec 3} {out : List Byte}
  {ci left : Nat} {s : State} (ha : RunArgs xs mode s)

/-- What fits the stream of Compress fits the granted space and OUT_LEN. -/
theorem Encoding.fits (h : Encoding xs mode ts g out s) (hsize : xs.length ≤ Config.maxIn) {k : Nat}
    (hk : out.length + k ≤ (compressBytes xs mode).length) :
    (∃ cap, s.outCap = some cap ∧ s.outLen.toNat + k ≤ cap) ∧ s.outLen.toNat + k < 2 ^ 32 := by
  obtain ⟨cap, hcap, hreq⟩ := h.room
  have hmax := length_compressBytes_le xs mode
  have hlen := length_of_resultBytes h.written
  change xs.length ≤ 0xFFFFFF at hsize
  change _ ≤ 2 * xs.length + 5 at hmax
  change 2 * xs.length + 5 ≤ cap at hreq
  exact ⟨⟨cap, hcap, by omega⟩, by omega⟩

include ha

theorem check_goesOn (hleft : left + 1 = 5 + 4 * (parse xs mode).length + ((parse xs mode).length + 7) / 8) :
    GoesOn xs mode left s (exec .check s) :=
  ⟨_, execCheck_next.mpr ⟨_, ha.n, (if_neg (Nat.not_lt.mpr ha.size)).symm⟩, rfl, rfl, { ha with },
    .alloc rfl (by omega)⟩

theorem alloc_goesOn {extra : Nat} (hextra : s.alloc = .granted extra)
    (hleft : left + 1 = 4 + 4 * (parse xs mode).length + ((parse xs mode).length + 7) / 8) :
    GoesOn xs mode left s (exec .alloc s) :=
  ⟨_, execAlloc_next.mpr ⟨_, ha.n, .inr ⟨extra, hextra, rfl⟩⟩, rfl, rfl, { ha with },
    .header rfl ⟨_, rfl, Nat.le_add_right _ _⟩ (by omega)⟩

theorem header_goesOn (hroom : HasRoom xs s)
    (hleft : left + 1 = 3 + 4 * (parse xs mode).length + ((parse xs mode).length + 7) / 8) :
    GoesOn xs mode left s (exec .header s) := by
  obtain ⟨cap, hcap, hreq⟩ := hroom
  refine ⟨_, execHeader_next.mpr ⟨_, ha.n, headerWrites_lt (le_trans ?_ hreq) hcap, rfl⟩, rfl, rfl, { ha with },
    .loop (ts := (parse xs mode).map Prod.snd) (ci := 0) rfl
      { room := ⟨cap, hcap, hreq⟩
        written := resultBytes_eq_ok.mpr (Mem.slice_writeAll_headerWrites s.outMem xs.length)
        cursor := ⟨_, rfl, parses_parse xs mode⟩
        grp := rfl } (absurd rfl) (compressLoop_eq_placeTokens _ _ _ _ _ _ _).symm ?_⟩
  · exact (by decide : 4 ≤ 5).trans (Nat.le_add_left _ _)
  · rw [List.length_map]
    change left = 2 + 4 * (parse xs mode).length + ((parse xs mode).length + 7) / 8
    omega

/-- At the end of the input LOOP goes to FINISH, else to the next token, by way of OPEN where no group is open. -/
theorem loop_goesOn (h : Encoding xs mode ts g out s) (hopen : g ≠ 0#3 → OpenAt ci s)
    (hstream : placeTokens ts g.toNat ci out = compressBytes xs mode)
    (hleft : left + 1 = 2 + 4 * ts.length + (ts.length + (g.toNat + 7) % 8) / 8) :
    GoesOn xs mode left s (exec .loop s) := by
  obtain ⟨c, hc, hparse⟩ := h.cursor
  cases ts with
  | nil =>
    refine ⟨_, execLoop_next.mpr ⟨c, _, hc, ha.n, .inl ⟨hparse, rfl⟩⟩, rfl, rfl, { ha with }, .finish rfl ?_ ?_⟩
    · rw [← hstream]; exact h.written
    · rw [List.length_nil] at hleft; omega
  | cons t ts =>
    rw [List.length_cons] at hleft
    have hlt : c.toNat < xs.length := hparse.1
    have hnext := execLoop_next.mpr ⟨c, _, hc, ha.n, .inr ⟨hlt.ne, g, h.grp, rfl⟩⟩
    by_cases h0 : g = 0#3
    · subst h0
      refine ⟨_, hnext, rfl, rfl, { ha with }, .openGroup rfl { h with } hstream ?_⟩
      change left + 1 = 2 + 4 * (ts.length + 1) + (ts.length + 1 + 7) / 8 at hleft
      omega
    · have hg : g.toNat ≠ 0 := fun hg => h0 (BitVec.eq_of_toNat_eq hg)
      have hg8 := g.isLt
      rw [if_neg h0] at hnext
      rw [placeTokens_cons_of_ne hg] at hstream
      exact ⟨_, hnext, rfl, rfl, { ha with }, .search rfl { h with } (hopen h0) hstream (by omega)⟩

/-- OPEN is the control byte that the first token of a group places before it. -/
theorem openGroup_goesOn (h : Encoding xs mode (t :: ts) 0#3 out s)
    (hstream : placeTokens (t :: ts) 0 ci out = compressBytes xs mode)
    (hleft : left + 1 = 6 + 4 * ts.length + ts.length / 8) : GoesOn xs mode left s (exec .openGroup s) := by
  have hlen := length_of_resultBytes h.written
  rw [placeTokens_cons_zero] at hstream
  obtain ⟨hroom, hfits⟩ := h.fits ha.size (k := 1) (by
    have hle := length_le_placeTokens ts 1 out.length (placeToken 0 out.length t (out ++ [0x00#8]))
    rw [hstream, length_placeToken, List.length_append, List.length_singleton] at hle
    omega)
  have hlen' := toNat_ofNat_of_fits hfits
  refine ⟨_, execOpenGroup_next.mpr ⟨hroom, hfits, rfl⟩, rfl, rfl, { ha with },
    .search rfl { h with written := resultBytes_of_slice hlen' ?_ } ⟨_, rfl, hlen.symm, ?_⟩ hstream ?_⟩
  · exact Mem.slice_write_append (resultBytes_eq_ok.mp h.written)
  · rw [hlen', hlen]; exact Nat.lt_succ_self _
  · change left = 5 + 4 * ts.length + ts.length / 8
    omega

theorem search_goesOn (h : Encoding xs mode (t :: ts) g out s) (hopen : OpenAt ci s)
    (hstream : placeTokens ts ((g.toNat + 1) % 8) ci (placeToken g.toNat ci t out) = compressBytes xs mode)
    (hleft : left + 1 = 5 + 4 * ts.length + (ts.length + g.toNat) / 8) :
    GoesOn xs mode left s (exec .search s) := by
  obtain ⟨c, hc, hlt, -, -⟩ := h.cursor
  obtain ⟨hlen, hdist⟩ := matchFind_fits xs c.toNat (Config.minDist mode)
  refine ⟨_, execSearch_next.mpr ⟨_, c, mode, xs, _, _, ha.n, hc, ha.mode, hlt, ha.input, fit_eq_ok.mpr ⟨hlen, rfl⟩,
    fit_eq_ok.mpr ⟨hdist, rfl⟩, rfl⟩, rfl, rfl, { ha with }, .emit rfl { h with } hopen ⟨_, _, rfl, rfl, ?_⟩ hstream
    (by omega)⟩
  rw [toNat_ofNat_of_fits hlen, toNat_ofNat_of_fits hdist]
  change matchFind xs s.cursorVal _ = _
  rw [cursorVal_of_some hc]

/-- After EMIT of a token whose writes append its bytes and set its flag, the stream is as far as its placing. -/
theorem emitted_runAt (h : Encoding xs mode (t :: ts) g out s) (hopen : OpenAt ci s)
    (hstream : placeTokens ts ((g.toNat + 1) % 8) ci (placeToken g.toNat ci t out) = compressBytes xs mode)
    (hfits : s.outLen.toNat + (encode t).length < 2 ^ 32) (hcur : s.cursorVal + tokenAdvance t < 2 ^ 24)
    {ws : List (Nat × Byte)} (hws : Mem.slice (Mem.writeAll s.outMem ws) 0 (s.outLen.toNat + (encode t).length) =
      some (placeToken g.toNat ci t out))
    (hleft : left = 3 + 4 * ts.length + (ts.length + g.toNat) / 8) :
    RunAt xs mode left (s.emitted ws (encode t).length (tokenAdvance t)) := by
  obtain ⟨c, hc, -, -, hparse⟩ := h.cursor
  obtain ⟨v, hv, hci, hlt⟩ := hopen
  have hlen := toNat_ofNat_of_fits hfits
  have hcur' := toNat_ofNat_of_fits hcur
  rw [cursorVal_of_some hc] at hcur'
  refine ⟨{ ha with }, .advance rfl
    { h with written := resultBytes_of_slice hlen hws, cursor := ⟨_, rfl, ?_⟩ } ⟨v, hv, hci, ?_⟩ hstream hleft⟩
  · rw [cursorVal_of_some hc, hcur']; exact hparse
  · exact hlt.trans_le ((Nat.le_add_right _ _).trans hlen.ge)

/-- EMIT's registers have room for the token in place: OUT, OUT_LEN and CURSOR. -/
theorem Encoding.fits_token (h : Encoding xs mode (t :: ts) g out s)
    (hstream : placeTokens ts ((g.toNat + 1) % 8) ci (placeToken g.toNat ci t out) = compressBytes xs mode) :
    (∃ cap, s.outCap = some cap ∧ s.outLen.toNat + (encode t).length ≤ cap) ∧
      s.outLen.toNat + (encode t).length < 2 ^ 32 ∧ s.cursorVal + tokenAdvance t < 2 ^ 24 := by
  obtain ⟨c, hc, hlt, ht, -⟩ := h.cursor
  obtain ⟨hroom, hfits⟩ := h.fits ha.size (k := (encode t).length) (by
    rw [← length_placeToken g.toNat ci, ← hstream]
    exact length_le_placeTokens _ _ _ _)
  refine ⟨hroom, hfits, ?_⟩
  rw [cursorVal_of_some hc]
  exact (ht.advance_bounds hlt).2.trans_lt (ha.size.trans_lt (by decide))

theorem emitLit_goesOn {b : Byte} (h : Encoding xs mode (.lit b :: ts) g out s) (hopen : OpenAt ci s)
    (hb : xs[s.cursorVal]? = some b)
    (hstream : placeTokens ts ((g.toNat + 1) % 8) ci (placeToken g.toNat ci (.lit b) out) = compressBytes xs mode)
    (hleft : left + 1 = 4 + 4 * ts.length + (ts.length + g.toNat) / 8) :
    GoesOn xs mode left s (exec .emitLit s) := by
  obtain ⟨c, hc, hlt, -, -⟩ := h.cursor
  obtain ⟨hroom, hfits, hcur⟩ := h.fits_token ha hstream
  have hrun := emitted_runAt ha h hopen hstream hfits hcur (ws := [(s.outLen.toNat, b)]) (left := left)
    (by rw [placeToken_lit]; exact Mem.slice_write_append (resultBytes_eq_ok.mp h.written)) (by omega)
  have hread : Mem.read s.inMem c.toNat = some b := by
    have hin := (inBytes_eq_ok.mp ha.input).2 c.toNat hlt
    rwa [← cursorVal_of_some hc, hb, cursorVal_of_some hc] at hin
  refine ⟨s.emitted [(s.outLen.toNat, b)] 1 1,
    execEmitLit_next.mpr ⟨c, _, b, hc, ha.n, hlt, hread, hroom, hfits, ?_, ?_⟩, rfl, rfl, hrun⟩
  · rwa [cursorVal_of_some hc] at hcur
  · rw [State.emitted, cursorVal_of_some hc]; rfl

theorem emitRef_goesOn {len : BitVec 5} {dist : BitVec 13} (hlen : s.bestLen = some len)
    (hdist : s.bestDist = some dist) (hwf : (Instr.ref len.toNat dist.toNat).WellFormed)
    (h : Encoding xs mode (.ref len.toNat dist.toNat :: ts) g out s) (hopen : OpenAt ci s)
    (hstream : placeTokens ts ((g.toNat + 1) % 8) ci (placeToken g.toNat ci (.ref len.toNat dist.toNat) out) =
      compressBytes xs mode)
    (hleft : left + 1 = 4 + 4 * ts.length + (ts.length + g.toNat) / 8) :
    GoesOn xs mode left s (exec .emitRef s) := by
  obtain ⟨c, hc, -⟩ := h.cursor
  obtain ⟨⟨cap, hcap, hroom⟩, hfits, hcur⟩ := h.fits_token ha hstream
  obtain ⟨v, hv, rfl, hlt⟩ := hopen
  have hslice := resultBytes_eq_ok.mp h.written
  obtain ⟨old, hold⟩ : ∃ old, Mem.read s.outMem v.toNat = some old := by
    obtain ⟨hlen, hread⟩ := Mem.slice_eq_some.mp hslice
    exact ⟨_, by rw [← Nat.zero_add v.toNat, hread _ hlt, List.getElem?_eq_getElem (hlen ▸ hlt)]⟩
  have hrun := emitted_runAt ha h ⟨v, hv, rfl, hlt⟩ hstream hfits hcur (left := left)
    (Mem.slice_writeAll_refWrites hslice hlt hold) (by omega)
  refine ⟨s.emitted (refWrites s.outLen.toNat v.toNat g.toNat (refByte0 len.toNat dist.toNat) (refByte1 dist.toNat)
    old) 2 len.toNat, execEmitRef_next.mpr
      ⟨len, dist, g, v, c, old, hlen, hdist, h.grp, hv, hc, hwf, hold, ?_, hfits, ?_, ?_⟩, rfl, rfl, hrun⟩
  · change s.outLen.toNat + 2 ≤ cap at hroom
    simp only [refWrites, List.forall_mem_cons]
    exact ⟨⟨cap, hcap, by omega⟩, ⟨cap, hcap, by omega⟩, ⟨cap, hcap, by omega⟩, nofun⟩
  · rwa [cursorVal_of_some hc] at hcur
  · rw [State.emitted, cursorVal_of_some hc]

theorem advance_goesOn (h : Encoding xs mode ts g out s) (hopen : OpenAt ci s)
    (hstream : placeTokens ts ((g.toNat + 1) % 8) ci out = compressBytes xs mode)
    (hleft : left + 1 = 3 + 4 * ts.length + (ts.length + g.toNat) / 8) :
    GoesOn xs mode left s (exec .advance s) := by
  have hnext : (g + 1#3).toNat = (g.toNat + 1) % 8 := BitVec.toNat_add g 1#3
  have hlt := g.isLt
  refine ⟨_, execAdvance_next.mpr ⟨g, h.grp, rfl⟩, rfl, rfl, { ha with },
    .loop (ci := ci) rfl { h with grp := rfl } (fun _ => hopen) ?_ ?_⟩
  · rw [hnext]; exact hstream
  · rw [hnext, show ((g.toNat + 1) % 8 + 7) % 8 = g.toNat by omega]; omega

theorem finish_goesOn (hresult : resultBytes s = .ok (compressBytes xs mode)) (hleft : left = 0) :
    GoesOn xs mode left s (exec .finish s) :=
  ⟨_, execFinish_next.mpr rfl, rfl, rfl, { ha with }, .done rfl hresult hleft⟩

end MicroSteps

/-! ## The engine's turn -/

section EngineTurn

variable {xs : List Byte} {mode : BitVec 1} {left : Nat} {s : State}

/-- A reference MatchFind gives is one the encoding has (R63, R87). -/
theorem ref_wellFormed_of_matchFind {cur md : Nat} (hmin : Config.minMatch ≤ (matchFind xs cur md).1) :
    (Instr.ref (matchFind xs cur md).1 (matchFind xs cur md).2).WellFormed := by
  obtain ⟨hlen, -, hdist, hwindow⟩ := matchFind_bounds xs cur md
  have hpos : 1 ≤ (matchFind xs cur md).1 := (by decide : 1 ≤ Config.minMatch).trans hmin
  exact ref_wellFormed_iff.mpr ⟨hmin, (Nat.le_min.mp hlen).1, (Nat.le_add_left 1 md).trans (hdist hpos),
    (Nat.le_min.mp hwindow).2⟩

/-- EMIT emits the token that the parse has at CURSOR (R97). -/
theorem emit_goesOn {t : Instr} {ts : List Instr} {g : BitVec 3} {out : List Byte} {ci : Nat} (ha : RunArgs xs mode s)
    (hp : s.phase = Phase.emit) (h : Encoding xs mode (t :: ts) g out s) (hopen : OpenAt ci s)
    (hbest : Searched xs mode s)
    (hstream : placeTokens ts ((g.toNat + 1) % 8) ci (placeToken g.toNat ci t out) = compressBytes xs mode)
    (hleft : left + 1 = 4 + 4 * ts.length + (ts.length + g.toNat) / 8) :
    GoesOn xs mode left s (engineFetch s).outcome := by
  obtain ⟨c, hc, -, ht, -⟩ := h.cursor
  obtain ⟨len, dist, hlen, hdist, hmatch⟩ := hbest
  rw [engineFetch_emit hp hlen, outcome_run]
  rw [← cursorVal_of_some hc] at ht
  rcases ht with ⟨hshort, b, hb, rfl⟩ | ⟨hmin, rfl⟩
  · rw [hmatch] at hshort
    rw [if_neg (Nat.not_le.mpr hshort)]
    exact emitLit_goesOn ha h hopen hb hstream hleft
  · have hwf := ref_wellFormed_of_matchFind hmin
    rw [hmatch] at hmin hwf h hstream
    rw [if_pos hmin]
    exact emitRef_goesOn ha hlen hdist hwf h hopen hstream hleft

/-- The engine's turn takes a run one step nearer to DONE, unless the host refuses it the space. -/
theorem engineFetch_goesOn (h : RunAt xs mode (left + 1) s) :
    GoesOn xs mode left s (engineFetch s).outcome ∨
      (s.alloc = .refused ∧ ∃ t, (engineFetch s).outcome = .next t ∧ t.phase = Phase.error) := by
  obtain ⟨ha, hphase⟩ := h
  have run : ∀ {p : BitVec 4} {i : Instr}, s.phase = p → p ≠ Phase.emit → phaseInstr p false = .ok i →
      (engineFetch s).outcome = exec i s := fun hp hne hi => by
    rw [engineFetch_run (by rwa [hp]) (by rwa [hp]), outcome_run]
  cases hphase with
  | check hp hleft => rw [run hp (by decide) rfl]; exact .inl (check_goesOn ha hleft)
  | alloc hp hleft =>
    rw [run hp (by decide) rfl]
    cases halloc : s.alloc with
    | granted extra => exact .inl (alloc_goesOn ha halloc hleft)
    | refused => exact .inr ⟨rfl, _, execAlloc_next.mpr ⟨_, ha.n, .inl ⟨halloc, rfl⟩⟩, rfl⟩
  | header hp hroom hleft => rw [run hp (by decide) rfl]; exact .inl (header_goesOn ha hroom hleft)
  | loop hp h hopen hstream hleft => rw [run hp (by decide) rfl]; exact .inl (loop_goesOn ha h hopen hstream hleft)
  | openGroup hp h hstream hleft => rw [run hp (by decide) rfl]; exact .inl (openGroup_goesOn ha h hstream hleft)
  | search hp h hopen hstream hleft => rw [run hp (by decide) rfl]; exact .inl (search_goesOn ha h hopen hstream hleft)
  | emit hp h hopen hbest hstream hleft => exact .inl (emit_goesOn ha hp h hopen hbest hstream hleft)
  | advance hp h hopen hstream hleft =>
    rw [run hp (by decide) rfl]; exact .inl (advance_goesOn ha h hopen hstream hleft)
  | finish hp hresult hleft => rw [run hp (by decide) rfl]; exact .inl (finish_goesOn ha hresult (by omega))
  | done hp hresult hleft => cases hleft

/-- With no step left the run is at DONE, and the result is the stream of Compress (R121, R123). -/
theorem RunAt.at_done (h : RunAt xs mode 0 s) :
    s.phase = Phase.done ∧ resultBytes s = .ok (compressBytes xs mode) := by
  obtain ⟨-, hphase⟩ := h
  cases hphase with
  | done hp hresult hleft => exact ⟨hp, hresult⟩
  | _ => omega

/-- A run is BUSY until no step is left. -/
theorem RunAt.busy (h : RunAt xs mode (left + 1) s) : s.busy = true := by
  obtain ⟨-, hphase⟩ := h
  cases hphase with
  | done hp hresult hleft => cases hleft
  | _ => simp [State.busy, *]

end EngineTurn

/-! ## Turns of the host and the consumer in a run -/

/-- `t` is `s` but for what is the host's or the consumer's and the order of turns. -/
def SameBlock (s t : State) : Prop :=
  t = { s with inLen := t.inLen, alloc := t.alloc, moves := t.moves, readings := t.readings, sched := t.sched,
               consumer := t.consumer, draws := t.draws }

section OtherTurns

variable {s t : State}

/-- Where a run stands is a matter of the block alone. -/
theorem RunAt.of_sameBlock {xs : List Byte} {mode : BitVec 1} {left : Nat} (h : RunAt xs mode left s)
    (ht : SameBlock s t) : RunAt xs mode left t := by
  obtain ⟨ha, hphase⟩ := h
  rw [ht]
  refine ⟨{ ha with }, ?_⟩
  cases hphase with
  | check hp hleft => exact .check hp hleft
  | alloc hp hleft => exact .alloc hp hleft
  | header hp hroom hleft => exact .header hp hroom hleft
  | loop hp h hopen hstream hleft => exact .loop hp { h with } hopen hstream hleft
  | openGroup hp h hstream hleft => exact .openGroup hp { h with } hstream hleft
  | search hp h hopen hstream hleft => exact .search hp { h with } hopen hstream hleft
  | emit hp h hopen hbest hstream hleft => exact .emit hp { h with } hopen hbest hstream hleft
  | advance hp h hopen hstream hleft => exact .advance hp { h with } hopen hstream hleft
  | finish hp hresult hleft => exact .finish hp hresult hleft
  | done hp hresult hleft => exact .done hp hresult hleft

/-- The only instructions a host move runs are the two commands. -/
theorem hostMove_eq_run {m : HostMove} {i : Instr} {u : State} (h : hostMove m s = .run i u) :
    (i = .startM0 ∨ i = .startM1) ∧ u = s.popMove := by
  cases m with
  | wrCmd b =>
    rcases commandWrite_cases b s.popMove with ⟨-, hf | hf⟩ | ⟨-, hf⟩ <;> rw [hostMove, hf] at h <;> cases h
    · exact ⟨.inl rfl, rfl⟩
    · exact ⟨.inr rfl, rfl⟩
  | _ =>
    grind [hostMove, goOn, stop, inLenWrite, inLenRead, statusRead, pollTurn, inWrite, hostOutWrite, hostOutRead,
      resultFeed]

/-- While BUSY a host move leaves the block alone or resets it. -/
theorem hostMove_leaves_sameBlock (hb : s.busy = true) (m : HostMove) :
    (hostMove m s).Leaves fun t => SameBlock s t ∨ t.phase = Phase.idle := by
  have hpop : s.popMove.busy = true := hb
  cases m with
  | wrCmd b => exact commandWrite_leaves (.inl rfl) b
  | wrInLen v => exact inLenWrite_leaves (.inl rfl)
  | wrStatus b => exact .inl rfl
  | wrOutLen v => exact .inl rfl
  | rdCmd => trivial
  | rdInLen => exact inLenRead_leaves fun _ => .inl rfl
  | rdStatus => exact statusRead_leaves fun _ => .inl rfl
  | rdOutLen => exact .inl rfl
  | poll => exact pollTurn_leaves (fun _ => .inl rfl) fun _ => .inl rfl
  | wrIn i b => rw [hostMove, inWrite, if_pos hpop]; trivial
  | wrOut j b => rw [hostMove, hostOutWrite, if_pos hpop]; trivial
  | rdOut j => exact hostOutRead_leaves (fun _ => .inl rfl) (.inl rfl)
  | answer a => exact .inl rfl
  | reset => exact .inr rfl
  | feed bytes mode => exact .inl rfl
  | feedResult mode => exact resultFeed_leaves fun _ => .inl rfl

theorem hostFetch_sameBlock (hb : s.busy = true) (ht : (hostFetch s).outcome = .next t) :
    SameBlock s t ∨ t.phase = Phase.idle := by
  unfold hostFetch at ht
  split at ht
  · rename_i m ms hmoves
    have hleft := hostMove_leaves_sameBlock hb m
    cases hf : hostMove m s with
    | run i u =>
      obtain ⟨hi, rfl⟩ := hostMove_eq_run hf
      have hstart : exec i s.popMove = .next s.popMove := by
        rcases hi with rfl | rfl <;> exact startRun_of_busy hb
      rw [hf, outcome_run, hstart] at ht
      cases ht
      exact .inl rfl
    | settled o =>
      rw [hf] at ht hleft
      change o = .next t at ht
      rw [ht] at hleft
      exact hleft
  · cases ht
    exact .inl rfl

/-- A stream element changes the consumer's record alone. -/
theorem consumerFetch_sameBlock (ht : (consumerFetch s).outcome = .next t) : SameBlock s t := by
  rcases consumerFetch_cases s with ⟨hf, -⟩ | ⟨-, ⟨size, hf⟩ | hf⟩ | ⟨-, ⟨c, hf⟩ | hf⟩ |
    ⟨-, ⟨b, hf⟩ | ⟨l, d, hf⟩ | hf⟩ <;> rw [hf] at ht
  · cases ht; rfl
  · obtain rfl := execHdr_next.mp ht; rfl
  · cases ht
  · obtain rfl := execCtrl_next.mp ht; rfl
  · cases ht
  · obtain ⟨-, rfl⟩ := execLit_next.mp ht; rfl
  · obtain ⟨-, -, rfl⟩ := execRef_next.mp ht; rfl
  · cases ht

/-- In a run a turn that is not the engine's leaves the block alone or resets it. -/
theorem step_sameBlock (hb : s.busy = true) (hm : s.mover ≠ .engine) (ht : step s = .next t) :
    SameBlock s t ∨ t.phase = Phase.idle := by
  obtain ⟨hp, he⟩ := legal_of_step_next ht
  rcases fetch_cases s with ⟨hp', -⟩ | ⟨he', -⟩ | ⟨-, -, ⟨hm', -⟩ | ⟨-, hf⟩ | ⟨-, hf⟩⟩
  · exact absurd hp (Nat.not_lt.mpr hp')
  · exact absurd he' he
  · exact absurd hm' hm
  · rw [step_eq_outcome, hf] at ht
    exact hostFetch_sameBlock (s := s.popTurn) hb ht
  · rw [step_eq_outcome, hf] at ht
    exact .inl (consumerFetch_sameBlock (s := s.popTurn) ht)

end OtherTurns

/-! ## Whole runs -/

section Runs

variable {xs : List Byte} {mode : BitVec 1} {left : Nat} {s t : State}

theorem RunAt.legal (h : RunAt xs mode (left + 1) s) : s.phase.toNat < 12 ∧ s.err ≠ Err.reserved :=
  ⟨(busy_iff.mp h.busy).2.trans_lt (by decide), by rw [h.args.err]; decide⟩

/-- The engine's turn as a step of the machine. -/
theorem RunAt.step_engine (h : RunAt xs mode (left + 1) s) (hm : s.mover = .engine) :
    (∃ t, step s = .next t ∧ t.sched = s.sched.tail ∧ t.alloc = s.alloc ∧ RunAt xs mode left t) ∨
      (s.alloc = .refused ∧ ∃ t, step s = .next t ∧ t.phase = Phase.error) := by
  obtain ⟨hp, he⟩ := h.legal
  rw [step_of_engine hp he hm]
  exact engineFetch_goesOn (s := s.popTurn) (h.of_sameBlock rfl)

/-- Left to the engine with a granted answer, a run reaches DONE in as many steps as it has left. -/
theorem RunAt.run_of_granted (h : RunAt xs mode left s) (hsched : s.sched = []) {extra : Nat}
    (halloc : s.alloc = .granted extra) : ∃ t, Sys2Proof.core.run left s = .next t ∧ RunAt xs mode 0 t := by
  induction left generalizing s with
  | zero => exact ⟨s, rfl, h⟩
  | succ left ih =>
    have hm : s.mover = .engine := by simp only [State.mover, hsched, h.busy, if_true]
    rcases h.step_engine hm with ⟨u, hu, hsched', halloc', hrun⟩ | ⟨hrefused, -⟩
    · obtain ⟨t, ht, hdone⟩ := ih hrun (by rw [hsched', hsched]; rfl) (halloc'.trans halloc)
      exact ⟨t, by simpa only [Host.Core.run, Sys2Proof.core, hu] using ht, hdone⟩
    · rw [halloc] at hrefused; cases hrefused

/-- One step of a run, whoever moves: a reset, an error, or as far on as the step is the engine's. -/
theorem RunAt.step_cases (h : RunAt xs mode left s) (hb : s.busy = true) (ht : step s = .next t) :
    t.phase = Phase.idle ∨ t.phase = Phase.error ∨
      ∃ left', left = (if s.mover = .engine then 1 else 0) + left' ∧ RunAt xs mode left' t := by
  by_cases hm : s.mover = .engine
  · cases left with
    | zero =>
      obtain ⟨hp, -⟩ := h.at_done
      exact absurd hb (by simp [State.busy, hp])
    | succ left =>
      rcases h.step_engine hm with ⟨u, hu, -, -, hrun⟩ | ⟨-, u, hu, herror⟩ <;>
        obtain rfl := (Host.Outcome.next.inj (hu.symm.trans ht))
      · exact .inr (.inr ⟨left, by rw [if_pos hm, Nat.add_comm], hrun⟩)
      · exact .inr (.inl herror)
  · rcases step_sameBlock hb hm ht with hsame | hidle
    · exact .inr (.inr ⟨left, by rw [if_neg hm, Nat.zero_add], h.of_sameBlock hsame⟩)
    · exact .inl hidle

/-- A run that reaches DONE, whoever moves between, has had as many engine steps as it had left. -/
theorem RunAt.engineTurns_of_done {k : Nat} {u : State} (h : RunAt xs mode left s) (hbusy : busyThrough k s)
    (hrun : Sys2Proof.core.run k s = .next u) (ht : step u = .next t) (hdone : t.phase = Phase.done) :
    engineTurns (k + 1) s = left ∧ RunAt xs mode 0 t := by
  induction k generalizing s left with
  | zero =>
    obtain rfl : s = u := Host.Outcome.next.inj hrun
    rcases h.step_cases hbusy ht with hidle | herror | ⟨left', rfl, hnext⟩
    · rw [hdone] at hidle; exact absurd hidle (by decide)
    · rw [hdone] at herror; exact absurd herror (by decide)
    · cases left' with
      | zero => exact ⟨by rw [engineTurns_succ ht]; rfl, hnext⟩
      | succ left' => exact absurd hnext.busy (by simp [State.busy, hdone])
  | succ k ih =>
    obtain ⟨hb, v, hv, hbusy'⟩ := busyThrough_succ.mp hbusy
    have hvbusy := busyThrough_busy hbusy'
    rcases h.step_cases hb hv with hidle | herror | ⟨left', rfl, hnext⟩
    · exact absurd hvbusy (by simp [State.busy, hidle])
    · exact absurd hvbusy (by simp [State.busy, herror])
    · obtain ⟨hturns, hend⟩ := ih hnext hbusy' (by simpa only [Host.Core.run, Sys2Proof.core, hv] using hrun)
      exact ⟨by rw [engineTurns_succ hv, hturns], hend⟩

end Runs

/-- Settles O48: a run stands where CHECK has it, so many engine steps from DONE. -/
theorem runProducesTheCompressedStream : Obligations.RunProducesTheCompressedStream := by
  intro s xs mode hp he hn hmode hsize hinput
  have hrun : RunAt xs mode (5 + 4 * (parse xs mode).length + ((parse xs mode).length + 7) / 8) s :=
    ⟨⟨hn, hmode, he, hsize, hinput⟩, .check hp rfl⟩
  refine ⟨fun extra hsched halloc => ?_, fun k u t hbusy hk ht hdone => ?_⟩
  · obtain ⟨t, ht, hend⟩ := hrun.run_of_granted hsched halloc
    obtain ⟨hdone, hresult⟩ := hend.at_done
    exact ⟨t, ht, hdone, hend.args.err, by rw [halloc, compress, if_neg (Nat.not_lt.mpr hsize)], hresult⟩
  · obtain ⟨hturns, hend⟩ := hrun.engineTurns_of_done hbusy hk ht hdone
    exact ⟨hturns, hend.args.err, hend.at_done.2⟩

end Sys2Proof.Machine

/-! The consumer (spec/43_decoder_contract.md R136 to R139): the copy of a back-reference, the meanings of the four stream
elements, what stops a turn of the consumer, and its turns as the reference decoder's. -/

namespace Sys2Proof.Machine

/-! ## The copy of a back-reference (R137) -/

section Copy

variable {d k j : Nat} {o : List Byte}

/-- While the byte `d` before the end stands there, a copy appends it and goes on. -/
theorem copyBack_succ (hd : 1 ≤ d) (hle : d ≤ o.length) :
    copyBack d (k + 1) o = copyBack d k (o ++ [o[o.length - d]]) := by
  rw [copyBack, List.getElem?_eq_getElem (by omega)]
  rfl

theorem length_copyBack (hd : 1 ≤ d) (hle : d ≤ o.length) : (copyBack d k o).length = o.length + k := by
  induction k generalizing o with
  | zero => rfl
  | succ k ih =>
    rw [copyBack_succ hd hle, ih (by rw [List.length_append]; omega), List.length_append, List.length_singleton]
    omega

/-- A copy keeps the bytes before it. -/
theorem copyBack_eq_append (d k : Nat) (o : List Byte) : ∃ copied, copyBack d k o = o ++ copied := by
  induction k generalizing o with
  | zero => exact ⟨[], (List.append_nil o).symm⟩
  | succ k ih =>
    obtain ⟨copied, h⟩ := ih (o ++ (o[o.length - d]?).toList)
    exact ⟨_, by rw [copyBack, h, List.append_assoc]⟩

theorem take_copyBack (d k : Nat) (o : List Byte) : (copyBack d k o).take o.length = o := by
  obtain ⟨copied, h⟩ := copyBack_eq_append d k o
  rw [h, List.take_left]

theorem getElem?_copyBack_of_lt (hj : j < o.length) : (copyBack d k o)[j]? = o[j]? := by
  obtain ⟨copied, h⟩ := copyBack_eq_append d k o
  rw [h, List.getElem?_append_left hj]

/-- Each byte appended is the one `d` before it, in the list as the copy leaves it. -/
theorem getElem?_copyBack (hd : 1 ≤ d) (hle : d ≤ o.length) (hj : o.length ≤ j) (hj' : j < o.length + k) :
    (copyBack d k o)[j]? = (copyBack d k o)[j - d]? := by
  induction k generalizing o with
  | zero => omega
  | succ k ih =>
    have hlen : (o ++ [o[o.length - d]]).length = o.length + 1 := by rw [List.length_append]; rfl
    rw [copyBack_succ hd hle]
    rcases Nat.eq_or_lt_of_le hj with rfl | hlt
    · rw [getElem?_copyBack_of_lt (by omega), getElem?_copyBack_of_lt (by omega), List.getElem?_concat_length,
        List.getElem?_append_left (by omega), List.getElem?_eq_getElem]
    · exact ih (by omega) (by omega) (by omega)

end Copy

/-! ## The four stream elements (R136, R139) -/

/-- Settles O27. -/
theorem hdrStartsTheConsumer : Obligations.HdrStartsTheConsumer := fun _ _ => execHdr_next.mpr rfl

/-- Settles O28. -/
theorem ctrlStartsAGroup : Obligations.CtrlStartsAGroup := fun _ _ => execCtrl_next.mpr rfl

/-- Settles O29. -/
theorem litAppendsItsByte : Obligations.LitAppendsItsByte := by
  intro s b hlt
  refine execLit_next.mpr ⟨hlt, ?_⟩
  simp only [Consumer.nextToken, List.length_append, List.length_singleton]

theorem badDistance_iff {mode : BitVec 1} {decoded distance : Nat} :
    badDistance mode decoded distance = true ↔
      distance = 0 ∨ decoded < distance ∨ (mode = 1#1 ∧ distance = 1) := by
  simp [badDistance, or_assoc]

theorem badDistance_eq_false_iff {mode : BitVec 1} {decoded distance : Nat} :
    badDistance mode decoded distance = false ↔
      1 ≤ distance ∧ distance ≤ decoded ∧ (mode = 1#1 → distance ≠ 1) := by
  rw [Bool.eq_false_iff, Ne, badDistance_iff, not_or, not_or, not_and, Nat.not_lt, Nat.one_le_iff_ne_zero]

/-- Settles O30: the new output is the copy of the old one. -/
theorem refCopiesByteByByte : Obligations.RefCopiesByteByByte := by
  intro s length distance hpos hle hmode hsize
  have hlen : (copyBack distance length s.consumer.out).length = s.consumer.out.length + length :=
    length_copyBack hpos hle
  refine ⟨copyBack distance length s.consumer.out,
    execRef_next.mpr ⟨badDistance_eq_false_iff.mpr ⟨hpos, hle, hmode⟩, hsize, ?_⟩, hlen,
    take_copyBack _ _ _, fun k hk => ?_⟩
  · simp only [Consumer.nextToken, hlen]
  · exact getElem?_copyBack hpos hle (Nat.le_add_right _ _) (Nat.add_lt_add_left hk _)

section Faults

variable {s : State} {length distance : Nat} {b : Byte}

theorem execRef_of_badDistance (h : badDistance s.consumer.mode s.consumer.out.length distance = true) :
    execRef length distance s = .fault .badDistance := by
  rw [execRef, if_pos h]; rfl

theorem execRef_of_overrun (hd : badDistance s.consumer.mode s.consumer.out.length distance = false)
    (h : s.consumer.size < s.consumer.out.length + length) : execRef length distance s = .fault .overrun := by
  rw [execRef, if_neg (by rw [hd]; decide), if_pos h]; rfl

theorem execLit_of_overrun (h : s.consumer.size ≤ s.consumer.out.length) : execLit b s = .fault .overrun := by
  rw [execLit, if_neg (by omega)]; rfl

end Faults

/-- Settles O31. -/
theorem decoderFaultsOnIllegalTokens : Obligations.DecoderFaultsOnIllegalTokens :=
  fun _ _ _ _ => ⟨fun h => execRef_of_badDistance (badDistance_iff.mpr (.inr h)),
    fun hpos hle hmode => execRef_of_overrun (badDistance_eq_false_iff.mpr ⟨hpos, hle, hmode⟩), execLit_of_overrun⟩

/-! ## A turn of the consumer that stops (R136) -/

theorem decodeHeader_of_bad {bs : List Byte} (h : bs.length < 4 ∨ bs[0]? ≠ some Config.magic) :
    decodeHeader bs = .error .badMagic := by
  unfold decodeHeader
  split
  · next m s0 s1 s2 rest =>
    have hm : m ≠ Config.magic := by
      rcases h with hlen | hm
      · simp only [List.length_cons] at hlen
        omega
      · simpa using hm
    rw [if_neg hm]
  · rfl

/-- A literal needs one byte, a reference two (R66). -/
theorem decode_token_of_short {isRef : Bool} {bs : List Byte} (h : bs.length < if isRef then 2 else 1) :
    decode (.token isRef) bs = .error .truncated := by
  cases isRef with
  | false =>
    obtain rfl := List.length_eq_zero_iff.mp (Nat.lt_one_iff.mp h)
    rfl
  | true =>
    match bs, h with
    | [], _ => rfl
    | [_], _ => rfl

section ConsumerTurn

variable {s : State}

theorem selector_of_header (h : s.consumer.stage = .header) : s.consumer.selector = some .header := by
  simp only [Consumer.selector, h]

theorem selector_of_control (h : s.consumer.stage = .control) : s.consumer.selector = some .control := by
  simp only [Consumer.selector, h]

theorem selector_of_token (h : s.consumer.stage = .token) :
    s.consumer.selector = some (.token (flagOf s.consumer.ctrl s.consumer.k.toNat)) := by
  simp only [Consumer.selector, h]

/-- Where the consumer cannot read its next element, its turn stops: BadMagic before a header, Truncated after it. -/
theorem consumerFetch_of_decode_error {sel : Selector} {e : DecodeError} (hsel : s.consumer.selector = some sel)
    (hd : decode sel (s.consumer.stream.drop s.consumer.pos) = .error e) :
    consumerFetch s = stop (if e = .badMagic then .badMagic else .truncated) := by
  simp only [consumerFetch, hsel, hd]
  cases e <;> rfl

theorem consumerFetch_of_badHeader (hst : s.consumer.stage = .header)
    (h : (s.consumer.stream.drop s.consumer.pos).length < 4 ∨
      (s.consumer.stream.drop s.consumer.pos)[0]? ≠ some Config.magic) : consumerFetch s = stop .badMagic :=
  consumerFetch_of_decode_error (selector_of_header hst) (decodeHeader_of_bad h)

theorem consumerFetch_of_noControl (hst : s.consumer.stage = .control)
    (h : s.consumer.stream.drop s.consumer.pos = []) : consumerFetch s = stop .truncated :=
  consumerFetch_of_decode_error (e := .truncated) (selector_of_control hst) (by rw [h]; rfl)

theorem consumerFetch_of_shortToken (hst : s.consumer.stage = .token)
    (h : (s.consumer.stream.drop s.consumer.pos).length <
      if flagOf s.consumer.ctrl s.consumer.k.toNat then 2 else 1) : consumerFetch s = stop .truncated :=
  consumerFetch_of_decode_error (selector_of_token hst) (decode_token_of_short h)

end ConsumerTurn

/-- Settles O32. -/
theorem badStreamsStopTheConsumer : Obligations.BadStreamsStopTheConsumer := by
  refine fun s hp he hm => ⟨fun hst hpos h => ?_, fun hst h => ?_, fun hst h => ?_⟩ <;>
    rw [step_of_consumer hp he hm]
  · rw [consumerFetch_of_badHeader (s := s.popTurn) hst (by simpa [hpos] using h), outcome_stop]
  · rw [consumerFetch_of_noControl (s := s.popTurn) hst (List.drop_eq_nil_of_le h), outcome_stop]
  · rw [consumerFetch_of_shortToken (s := s.popTurn) hst, outcome_stop]
    change _ < if s.consumer.ctrl.getLsbD (7 - s.consumer.k.toNat) then 2 else 1
    rw [popTurn_consumer, List.length_drop]
    split_ifs at h ⊢ <;> omega

end Sys2Proof.Machine

/-! The consumer's turns as the reference decoder (ConsumerRunsTheReferenceDecoder): the equations of the decoder's loops,
what one turn of the consumer does, and the two side by side. -/

namespace Sys2Proof.Machine

/-! ## The reference decoder's loops (R136) -/

section Decoder

variable {st rest o : List Byte} {mode : BitVec 1} {size todo k i fuel : Nat} {c b b0 b1 : Byte}

theorem decodeTokens_of_full (h : o.length = size) : decodeTokens st mode size c todo k i o = .ok (o, i) := by
  cases todo with
  | zero => rfl
  | succ todo => rw [decodeTokens, if_pos h]

theorem decodeTokens_lit (hne : o.length ≠ size) (hflag : flagOf c k = false) (hd : st.drop i = b :: rest) :
    decodeTokens st mode size c (todo + 1) k i o = decodeTokens st mode size c todo (k + 1) (i + 1) (o ++ [b]) := by
  have hb : st[i]? = some b := by rw [← List.head?_drop, hd]; rfl
  simp only [decodeTokens, if_neg hne, hflag, hb, Bool.false_eq_true, if_false]

theorem decodeTokens_ref (hne : o.length ≠ size) (hflag : flagOf c k = true) (hd : st.drop i = b0 :: b1 :: rest) :
    decodeTokens st mode size c (todo + 1) k i o =
      if badDistance mode o.length (refDistance b0 b1) then .error .badDistance
      else if size < o.length + refLength b0 then .error .overrun
      else decodeTokens st mode size c todo (k + 1) (i + 2) (copyBack (refDistance b0 b1) (refLength b0) o) := by
  have hb0 : st[i]? = some b0 := by rw [← List.head?_drop, hd]; rfl
  have hb1 : st[i + 1]? = some b1 := by rw [← List.head?_drop, ← List.tail_drop, hd]; rfl
  simp only [decodeTokens, if_neg hne, hflag, hb0, hb1, if_true]

theorem decodeTokens_of_short (hne : o.length ≠ size)
    (hshort : (st.drop i).length < if flagOf c k then 2 else 1) :
    decodeTokens st mode size c (todo + 1) k i o = .error .truncated := by
  rw [List.length_drop] at hshort
  cases hflag : flagOf c k <;> simp only [hflag, Bool.false_eq_true, if_true, if_false] at hshort
  · have hb : st[i]? = none := List.getElem?_eq_none (by omega)
    simp only [decodeTokens, if_neg hne, hflag, hb, Bool.false_eq_true, if_false]
  · have hb1 : st[i + 1]? = none := List.getElem?_eq_none (by omega)
    cases hb0 : st[i]? <;> simp only [decodeTokens, if_neg hne, hflag, hb0, hb1, if_true]

theorem decodeGroups_of_full (h : o.length = size) : decodeGroups st mode size fuel i o = .ok (o, i) := by
  cases fuel with
  | zero => rfl
  | succ fuel => rw [decodeGroups, if_neg (by omega)]

theorem decodeGroups_of_nil (hlt : o.length < size) (hd : st.drop i = []) :
    decodeGroups st mode size (fuel + 1) i o = .error .truncated := by
  have hc : st[i]? = none := by rw [← List.head?_drop, hd]; rfl
  simp only [decodeGroups, if_pos hlt, hc]

/-- A group is its tokens, with the groups after it read from where they end. -/
theorem decodeGroups_cons (hlt : o.length < size) (hd : st.drop i = c :: rest) :
    decodeGroups st mode size (fuel + 1) i o =
      decodeTokens st mode size c 8 0 (i + 1) o >>= fun p => decodeGroups st mode size fuel p.2 p.1 := by
  have hc : st[i]? = some c := by rw [← List.head?_drop, hd]; rfl
  simp only [decodeGroups, if_pos hlt, hc]
  cases decodeTokens st mode size c 8 0 (i + 1) o <;> rfl

/-- The decoder begins with the header HDR decodes. -/
theorem decodeStream_of_header (h : decodeHeader st = .ok (.hdr size, rest)) :
    decodeStream st mode = decodeGroups st mode size size 4 [] := by
  obtain ⟨s0, s1, s2, rfl, hi⟩ := decodeHeader_eq_ok.mp h
  obtain rfl := Instr.hdr.inj hi
  rfl

end Decoder

/-- A stream begins with a header, or the decoder's result is BadMagic. -/
theorem header_or_badMagic (st : List Byte) (mode : BitVec 1) :
    (∃ size rest, decodeHeader st = .ok (.hdr size, rest)) ∨
      (decodeHeader st = .error .badMagic ∧ decodeStream st mode = .error .badMagic) := by
  match st with
  | [] | [_] | [_, _] | [_, _, _] => exact .inr ⟨rfl, rfl⟩
  | m :: s0 :: s1 :: s2 :: rest =>
    by_cases hm : m = Config.magic
    · exact .inl ⟨sizeField s0 s1 s2, rest, if_pos hm⟩
    · exact .inr ⟨if_neg hm, if_neg hm⟩

/-! ## The machine left to the consumer -/

/-- Nobody but the consumer moves: the engine waits and the host has no move. -/
structure LeftToConsumer (s : State) : Prop where
  waiting : s.phase = Phase.idle ∨ s.phase = Phase.done ∨ s.phase = Phase.error
  err : s.err ≠ Err.reserved
  sched : s.sched = []
  moves : s.moves = []

/-- The state with another consumer. -/
def State.withConsumer (s : State) (c : Consumer) : State := { s with consumer := c }

/-- The machine, left to run, ends with the decoder's result `r`: in a state that differs in the consumer alone, which
has stopped with these bytes and this count consumed, or with this fault. -/
def EndsAs (s : State) : Except Fault (List Byte × Nat) → Prop
  | .ok (o, i) => ∃ k t, Sys2Proof.core.run k s = .next t ∧ t = s.withConsumer t.consumer ∧
      t.consumer.stage = .done ∧ t.consumer.out = o ∧ t.consumer.pos = i
  | .error f => ∃ k, Sys2Proof.core.run k s = .fault f

section Runs

variable {s : State} {c : Consumer} {r : Except Fault (List Byte × Nat)}

theorem LeftToConsumer.withConsumer (h : LeftToConsumer s) (c : Consumer) : LeftToConsumer (s.withConsumer c) :=
  ⟨h.waiting, h.err, h.sched, h.moves⟩

/-- Every step is the consumer's turn. -/
theorem LeftToConsumer.step_eq (h : LeftToConsumer s) : step s = (consumerFetch s).outcome := by
  have hp : s.phase.toNat < 12 := by rcases h.waiting with hp | hp | hp <;> rw [hp] <;> decide
  have hbusy : s.busy = false := by rcases h.waiting with hp | hp | hp <;> simp [State.busy, hp]
  have hm : s.mover = .consumer := by simp [State.mover, h.sched, h.moves, hbusy]
  have hpop : s.popTurn = s := by rw [State.popTurn, h.sched, List.tail_nil, ← h.sched]
  rw [step_of_consumer hp h.err hm, hpop]

theorem endsAs_of_done (hst : s.consumer.stage = .done) : EndsAs s (.ok (s.consumer.out, s.consumer.pos)) :=
  ⟨0, s, rfl, rfl, hst, rfl, rfl⟩

theorem endsAs_of_fault {f : Fault} (h : step s = .fault f) : EndsAs s (.error f) :=
  ⟨1, by simp only [Host.Core.run, Sys2Proof.core, h]⟩

theorem endsAs_of_step (h : step s = .next (s.withConsumer c)) (hr : EndsAs (s.withConsumer c) r) : EndsAs s r := by
  have hrun (k : Nat) : Sys2Proof.core.run (k + 1) s = Sys2Proof.core.run k (s.withConsumer c) := by
    simp only [Host.Core.run, Sys2Proof.core, h]
  cases r with
  | ok p =>
    obtain ⟨k, t, ht, hframe, hend⟩ := hr
    exact ⟨k + 1, t, (hrun k).trans ht, hframe, hend⟩
  | error f =>
    obtain ⟨k, hk⟩ := hr
    exact ⟨k + 1, (hrun k).trans hk⟩

end Runs

/-! ## One turn -/

/-- The consumer once it has taken a header of this size. -/
def Consumer.afterHeader (c : Consumer) (size : Nat) : Consumer :=
  { c with size := size, out := [], pos := c.pos + 4, stage := if size = 0 then .done else .control }

section OneTurn

variable {s : State} {b b0 b1 c : Byte} {rest : List Byte} (h : LeftToConsumer s)
include h

theorem LeftToConsumer.step_of_decode {sel : Selector} {i : Instr} (hsel : s.consumer.selector = some sel)
    (hd : decode sel (s.consumer.stream.drop s.consumer.pos) = .ok (i, rest)) : step s = exec i s := by
  rw [h.step_eq, consumerFetch_of_decode hsel hd, outcome_run]

theorem LeftToConsumer.step_header {size : Nat} (hst : s.consumer.stage = .header)
    (hd : decodeHeader (s.consumer.stream.drop s.consumer.pos) = .ok (.hdr size, rest)) :
    step s = .next (s.withConsumer (s.consumer.afterHeader size)) :=
  h.step_of_decode (selector_of_header hst) hd

theorem LeftToConsumer.step_control (hst : s.consumer.stage = .control)
    (hd : s.consumer.stream.drop s.consumer.pos = c :: rest) :
    step s = .next (s.withConsumer
      { s.consumer with ctrl := c, k := 0#3, pos := s.consumer.pos + 1, stage := .token }) :=
  h.step_of_decode (i := .ctrl c) (rest := rest) (selector_of_control hst) (by rw [hd]; rfl)

theorem LeftToConsumer.step_lit (hst : s.consumer.stage = .token)
    (hflag : flagOf s.consumer.ctrl s.consumer.k.toNat = false)
    (hd : s.consumer.stream.drop s.consumer.pos = b :: rest) (hlt : s.consumer.out.length < s.consumer.size) :
    step s = .next (s.withConsumer
      (Consumer.nextToken { s.consumer with out := s.consumer.out ++ [b], pos := s.consumer.pos + 1 })) := by
  rw [h.step_of_decode (i := .lit b) (rest := rest) (selector_of_token hst) (by rw [hflag, hd]; rfl)]
  exact execLit_next.mpr ⟨hlt, rfl⟩

theorem LeftToConsumer.step_ref (hst : s.consumer.stage = .token)
    (hflag : flagOf s.consumer.ctrl s.consumer.k.toNat = true)
    (hd : s.consumer.stream.drop s.consumer.pos = b0 :: b1 :: rest) :
    step s = execRef (refLength b0) (refDistance b0 b1) s :=
  h.step_of_decode (i := .ref _ _) (rest := rest) (selector_of_token hst) (by rw [hflag, hd]; rfl)

end OneTurn

/-! ## The consumer beside the decoder -/

/-- What the decoder gives from the middle of a group, `todo` of its tokens left, where the consumer stands. -/
def Consumer.decodeRest (c : Consumer) (todo fuel : Nat) : Except Fault (List Byte × Nat) :=
  decodeTokens c.stream c.mode c.size c.ctrl todo c.k.toNat c.pos c.out >>= fun p =>
    decodeGroups c.stream c.mode c.size fuel p.2 p.1

/-- Before a control byte the consumer ends as the decoder's groups do, if their fuel is a group for each byte left. -/
def GroupsAgree (fuel : Nat) : Prop :=
  ∀ s : State, LeftToConsumer s → s.consumer.stage = .control → s.consumer.out.length < s.consumer.size →
    s.consumer.size ≤ s.consumer.out.length + fuel →
    EndsAs s (decodeGroups s.consumer.stream s.consumer.mode s.consumer.size fuel s.consumer.pos s.consumer.out)

/-- Before a token with `todo` left in its group, the consumer ends as the decoder's loops do. -/
def TokensAgree (todo fuel : Nat) : Prop :=
  ∀ s : State, LeftToConsumer s → s.consumer.stage = .token → s.consumer.k.toNat + todo = 8 →
    s.consumer.out.length < s.consumer.size → s.consumer.size ≤ s.consumer.out.length + fuel + 1 →
    EndsAs s (s.consumer.decodeRest todo fuel)

/-- After a token the consumer stands at the end, before the next group or before the next token, as the decoder does. -/
theorem endsAs_nextToken {s : State} {c : Consumer} {todo fuel : Nat} (hgroups : GroupsAgree fuel)
    (htokens : TokensAgree todo fuel) (hs : LeftToConsumer s) (hk : c.k.toNat + (todo + 1) = 8)
    (hle : c.out.length ≤ c.size) (hfuel : c.size ≤ c.out.length + fuel) :
    EndsAs (s.withConsumer c.nextToken)
      (decodeTokens c.stream c.mode c.size c.ctrl todo (c.k.toNat + 1) c.pos c.out >>= fun p =>
        decodeGroups c.stream c.mode c.size fuel p.2 p.1) := by
  have hs' := hs.withConsumer c.nextToken
  by_cases hfull : c.out.length = c.size
  · rw [decodeTokens_of_full hfull]
    change EndsAs _ (decodeGroups _ _ _ _ c.pos c.out)
    rw [decodeGroups_of_full hfull]
    exact endsAs_of_done (s := s.withConsumer c.nextToken) (if_pos hfull)
  · have hlt : c.out.length < c.size := Nat.lt_of_le_of_ne hle hfull
    have hstage : c.nextToken.stage = if c.k = 7#3 then .control else .token := if_neg hfull
    cases todo with
    | zero =>
      have h7 : c.k = 7#3 := BitVec.eq_of_toNat_eq (Nat.succ.inj hk)
      exact hgroups _ hs' (hstage.trans (if_pos h7)) hlt hfuel
    | succ todo =>
      have h7 : c.k ≠ 7#3 := by
        intro h7
        rw [h7] at hk
        exact absurd hk (by simp only [BitVec.toNat_ofNat]; omega)
      have hnext : (c.k + 1#3).toNat = c.k.toNat + 1 := by
        rw [BitVec.toNat_add]
        exact Nat.mod_eq_of_lt (by change _ + 1 < 8; omega)
      have hrest := htokens _ hs' (hstage.trans (if_neg h7)) (by change (c.k + 1#3).toNat + _ = 8; omega) hlt
        (Nat.le_succ_of_le hfuel)
      rw [← hnext]
      exact hrest

/-- A reference whose two bytes are there: the distance check, the length check, then the copy. -/
theorem endsAs_ref {s : State} {todo fuel : Nat} {b0 b1 : Byte} {rest : List Byte} (hgroups : GroupsAgree fuel)
    (htokens : TokensAgree todo fuel) (hs : LeftToConsumer s) (hst : s.consumer.stage = .token)
    (hk : s.consumer.k.toNat + (todo + 1) = 8) (hlt : s.consumer.out.length < s.consumer.size)
    (hfuel : s.consumer.size ≤ s.consumer.out.length + fuel + 1)
    (hflag : flagOf s.consumer.ctrl s.consumer.k.toNat = true)
    (hd : s.consumer.stream.drop s.consumer.pos = b0 :: b1 :: rest) :
    EndsAs s (s.consumer.decodeRest (todo + 1) fuel) := by
  have hstep := hs.step_ref hst hflag hd
  rw [Consumer.decodeRest, decodeTokens_ref hlt.ne hflag hd]
  cases hbad : badDistance s.consumer.mode s.consumer.out.length (refDistance b0 b1) with
  | true => exact endsAs_of_fault (f := .badDistance) (hstep.trans (execRef_of_badDistance hbad))
  | false =>
    by_cases hover : s.consumer.size < s.consumer.out.length + refLength b0
    · rw [if_neg Bool.false_ne_true, if_pos hover]
      exact endsAs_of_fault (f := .overrun) (hstep.trans (execRef_of_overrun hbad hover))
    · rw [if_neg Bool.false_ne_true, if_neg hover]
      rw [Nat.not_lt] at hover
      obtain ⟨hpos, hle, -⟩ := badDistance_eq_false_iff.mp hbad
      have hlen := length_copyBack (k := refLength b0) hpos hle
      have hgrows : 1 ≤ refLength b0 := by rw [refLength_eq]; omega
      refine endsAs_of_step (hstep.trans (execRef_next.mpr ⟨hbad, hover, rfl⟩))
        (endsAs_nextToken hgroups htokens hs hk ?_ ?_) <;> simp only [hlen] <;> omega

/-- Each token of a group, by the flag that selects it and the bytes that are there. -/
theorem tokensAgree {fuel : Nat} (hgroups : GroupsAgree fuel) (todo : Nat) : TokensAgree todo fuel := by
  induction todo with
  | zero => exact fun s _ _ hk => absurd hk s.consumer.k.isLt.ne
  | succ todo ih =>
    intro s hs hst hk hlt hfuel
    by_cases hshort : (s.consumer.stream.drop s.consumer.pos).length <
        if flagOf s.consumer.ctrl s.consumer.k.toNat then 2 else 1
    · rw [Consumer.decodeRest, decodeTokens_of_short hlt.ne hshort]
      refine endsAs_of_fault (f := .truncated) ?_
      rw [hs.step_eq, consumerFetch_of_shortToken hst hshort, outcome_stop]
    · cases hflag : flagOf s.consumer.ctrl s.consumer.k.toNat with
      | false =>
        cases hd : s.consumer.stream.drop s.consumer.pos with
        | nil => simp [hflag, hd] at hshort
        | cons b rest =>
          rw [Consumer.decodeRest, decodeTokens_lit hlt.ne hflag hd]
          refine endsAs_of_step (hs.step_lit hst hflag hd hlt) (endsAs_nextToken hgroups ih hs hk ?_ ?_) <;>
            simp only [List.length_append, List.length_singleton] <;> omega
      | true =>
        rcases hd : s.consumer.stream.drop s.consumer.pos with _ | ⟨b0, _ | ⟨b1, rest⟩⟩
        · simp [hflag, hd] at hshort
        · simp [hflag, hd] at hshort
        · exact endsAs_ref hgroups ih hs hst hk hlt hfuel hflag hd

theorem groupsAgree (fuel : Nat) : GroupsAgree fuel := by
  induction fuel with
  | zero => exact fun s _ _ hlt hfuel => absurd hfuel (Nat.not_le.mpr hlt)
  | succ fuel ih =>
    intro s hs hst hlt hfuel
    cases hd : s.consumer.stream.drop s.consumer.pos with
    | nil =>
      rw [decodeGroups_of_nil hlt hd]
      refine endsAs_of_fault (f := .truncated) ?_
      rw [hs.step_eq, consumerFetch_of_noControl hst hd, outcome_stop]
    | cons c rest =>
      rw [decodeGroups_cons hlt hd]
      exact endsAs_of_step (hs.step_control hst hd) (tokensAgree ih 8 _ (hs.withConsumer _) rfl rfl hlt hfuel)

/-- A consumer that was given a stream ends as the decoder does on it. -/
theorem endsAs_decodeStream {s : State} {st : List Byte} {mode : BitVec 1} (hs : LeftToConsumer s)
    (hc : s.consumer = Consumer.fed st mode) : EndsAs s (decodeStream st mode) := by
  have hst : s.consumer.stage = .header := by rw [hc]; rfl
  have hd : s.consumer.stream.drop s.consumer.pos = st := by rw [hc]; rfl
  rcases header_or_badMagic st mode with ⟨size, rest, hok⟩ | ⟨hbad, hresult⟩
  · rw [decodeStream_of_header hok]
    refine endsAs_of_step (hs.step_header hst (hd.symm ▸ hok)) ?_
    rw [hc]
    rcases Nat.eq_zero_or_pos size with rfl | hpos
    · exact endsAs_of_done (s := s.withConsumer ((Consumer.fed st mode).afterHeader 0)) rfl
    · exact groupsAgree size _ (hs.withConsumer ((Consumer.fed st mode).afterHeader size)) (if_neg hpos.ne') hpos
        (Nat.le_add_left _ _)
  · rw [hresult]
    refine endsAs_of_fault (f := .badMagic) ?_
    rw [hs.step_eq, consumerFetch_of_decode_error (selector_of_header hst) (hd.symm ▸ hbad), outcome_stop]
    rfl

/-- Settles O60: the consumer's turns beside the decoder's loops, group by group and token by token. -/
theorem consumerRunsTheReferenceDecoder : Obligations.ConsumerRunsTheReferenceDecoder := by
  intro s st mode hp he hsched hmoves hc
  have hends := endsAs_decodeStream ⟨hp, he, hsched, hmoves⟩ hc
  exact ⟨fun o i h => by rw [h] at hends; exact hends, fun f h => by rw [h] at hends; exact hends⟩

end Sys2Proof.Machine

/-! What a decoder may rely on in the block's output (spec/43_decoder_contract.md R141 to R145): its header, its tokens, its
size, and how the two modes differ. -/

namespace Sys2Proof.Machine

/-! ## The header (R144) -/

/-- Settles O58. -/
theorem outputHeader : Obligations.OutputHeader := by
  intro xs mode
  rw [outputIsHeaderAndGroups xs mode, streamBytes]
  refine (List.take_left (l₁ := encode (.hdr xs.length))).trans ?_
  simp only [encode, byteOf_eq_ofNat_div, Nat.reduceMul, Nat.reducePow, Nat.div_one]

/-! ## The tokens (R141, R142) -/

section Tokens

variable {xs : List Byte} {md cur : Nat} {t : Instr}

/-- A match long enough to emit is a back-reference the encoding holds, to bytes before the cursor (R82, R87). -/
theorem matchFind_legal (h : Config.minMatch ≤ (matchFind xs cur md).1) :
    (Instr.ref (matchFind xs cur md).1 (matchFind xs cur md).2).WellFormed ∧
      (matchFind xs cur md).1 ≤ xs.length - cur ∧
      md + 1 ≤ (matchFind xs cur md).2 ∧ (matchFind xs cur md).2 ≤ cur := by
  obtain ⟨hlen, -, hnear, hfar⟩ := matchFind_bounds xs cur md
  obtain ⟨hmax, hleft⟩ := Nat.le_min.mp hlen
  obtain ⟨hcur, hwindow⟩ := Nat.le_min.mp hfar
  have hd := hnear (le_trans (by decide) h)
  exact ⟨ref_wellFormed_iff.mpr ⟨h, hmax, le_trans (Nat.le_add_left 1 md) hd, hwindow⟩, hleft, hd, hcur⟩

/-- A token is the literal at the cursor or a reference of legal length to a legal distance. -/
theorem TokenAt.legal (h : TokenAt xs md cur t) :
    (∃ b, t = .lit b ∧ xs[cur]? = some b) ∨
      ∃ length distance, t = .ref length distance ∧ 3 ≤ length ∧ length ≤ 18 ∧ length ≤ xs.length - cur ∧
        md + 1 ≤ distance ∧ distance ≤ 4096 ∧ distance ≤ cur := by
  rcases h with ⟨-, b, hb, rfl⟩ | ⟨hmin, rfl⟩
  · exact .inl ⟨b, rfl, hb⟩
  · obtain ⟨hwf, hleft, hd, hcur⟩ := matchFind_legal hmin
    obtain ⟨hl, hl', -, hd'⟩ := ref_wellFormed_iff.mp hwf
    exact .inr ⟨_, _, rfl, hl, hl', hleft, hd, hd', hcur⟩

end Tokens

/-- Settles O53. -/
theorem tokensAreLegal : Obligations.TokensAreLegal := by
  intro xs mode c i hi
  obtain ⟨hlt, htoken⟩ := tokenAt_of_mem_parseFrom hi
  exact ⟨hlt, htoken.legal⟩

/-! ## The size (R143) -/

theorem length_compressBytes (xs : List Byte) (mode : BitVec 1) :
    (compressBytes xs mode).length =
      4 + ((parse xs mode).length + 7) / 8 + (((parse xs mode).map Prod.snd).flatMap encode).length := by
  have hhdr : (encode (.hdr xs.length)).length = 4 := rfl
  rw [outputIsHeaderAndGroups xs mode, streamBytes, List.length_append, length_groupsBytes (Nat.le_refl _), hhdr,
    List.length_map, Nat.add_assoc]

theorem tokenAdvance_of_not_isRef {t : Instr} (h : isRef t = false) : tokenAdvance t = 1 := by
  cases t with
  | ref length distance => cases h
  | _ => rfl

/-- A parse of literals alone has a token for each input byte. -/
theorem length_parse_of_literals {xs : List Byte} {mode : BitVec 1} (h : ∀ t ∈ parse xs mode, isRef t.2 = false) :
    (parse xs mode).length = xs.length := by
  have hsum : ((parse xs mode).map fun t => tokenAdvance t.2).sum = xs.length :=
    sum_advance_parseFrom (Nat.le_add_left _ _)
  rwa [List.map_congr_left fun t ht => tokenAdvance_of_not_isRef (h t ht), List.map_const', List.sum_replicate,
    smul_eq_mul, Nat.mul_one] at hsum

/-- Settles O57: the tokens' bytes are at least as many as the tokens and at most as many as the input bytes. -/
theorem outputSizeBounds : Obligations.OutputSizeBounds := by
  intro xs mode
  obtain ⟨hcount, hbytes⟩ := (parses_parse xs mode).length_encode_le
  rw [List.length_map] at hcount
  refine ⟨fun h => ?_, fun h => ?_, fun h => ?_⟩
  · subst h; rfl
  · have hpos : 0 < xs.length := List.length_pos_iff.mpr h
    have htokens : 0 < (parse xs mode).length := by
      obtain ⟨t, -, heq⟩ := parseFrom_succ (md := Config.minDist mode) hpos (xs.length - 1)
      rw [Nat.sub_add_cancel hpos] at heq
      rw [parse, heq, List.length_cons]
      exact Nat.succ_pos _
    rw [length_compressBytes]
    omega
  · have hlength := length_parse_of_literals h
    rw [length_compressBytes]
    omega

/-! ## The two modes (R145) -/

section Modes

variable {xs : List Byte} {cur : Nat} {t t' : Instr}

/-- A scan over one candidate more returns what it returned before, or that last candidate. -/
theorem scanFrom_succ_last (xs : List Byte) (cur maxlen k p : Nat) (best : Nat × Nat) :
    scanFrom xs cur maxlen (k + 1) p best = scanFrom xs cur maxlen k p best ∨
      (scanFrom xs cur maxlen (k + 1) p best).2 = cur - (p + k) := by
  induction k generalizing p best with
  | zero =>
    simp only [scanFrom]
    split_ifs
    · exact .inr rfl
    · exact .inr rfl
    · exact .inl rfl
  | succ k ih =>
    rw [← Nat.add_assoc p k 1, Nat.add_right_comm p k 1]
    unfold scanFrom
    split_ifs
    · exact .inl rfl
    · exact ih _ _
    · exact ih _ _

/-- The modes find the same match, or mode 0 finds one at distance 1, no shorter than mode 1's. -/
theorem matchFind_modes (xs : List Byte) (cur : Nat) : matchFind xs cur 1 = matchFind xs cur 0 ∨
    ((matchFind xs cur 0).2 = 1 ∧ (matchFind xs cur 1).1 ≤ (matchFind xs cur 0).1) := by
  have hle : (matchFind xs cur 1).1 ≤ (matchFind xs cur 0).1 := by
    rcases matchFind_cases xs cur 1 with h | ⟨d, hd, hd', -, h⟩
    · rw [h]; exact Nat.zero_le _
    · rw [h]; exact matchLen_le_matchFind (by omega) hd'
  have hw : windowLen cur ≤ cur := Nat.min_le_left _ _
  rcases Nat.eq_zero_or_pos (windowLen cur) with h0 | hpos
  · exact .inl (by rw [matchFind, matchFind, h0])
  · have hlast := scanFrom_succ_last xs cur (maxMatch xs.length cur) (windowLen cur - 1) (cur - windowLen cur) (0, 0)
    rw [Nat.sub_add_cancel hpos] at hlast
    rcases hlast with h | h
    · exact .inl h.symm
    · exact .inr ⟨h.trans (by omega), hle⟩

theorem TokenAt.unique {md : Nat} (h : TokenAt xs md cur t) (h' : TokenAt xs md cur t') : t = t' := by
  rcases h with ⟨hlt, b, hb, rfl⟩ | ⟨hmin, rfl⟩ <;> rcases h' with ⟨hlt', b', hb', rfl⟩ | ⟨hmin', rfl⟩
  · rw [Option.some.inj (hb.symm.trans hb')]
  · omega
  · omega
  · rfl

/-- The modes emit the same token where mode 0's is no reference of distance 1: below the least match length a match at
distance 1 is a literal in either mode. -/
theorem TokenAt.of_mode1 (ht : TokenAt xs 0 cur t) (hne : ∀ length, t ≠ .ref length 1) (ht' : TokenAt xs 1 cur t') :
    TokenAt xs 0 cur t' := by
  rcases matchFind_modes xs cur with h | ⟨h1, hle⟩
  · rwa [TokenAt, h] at ht'
  · rcases ht with ⟨hlt, -⟩ | ⟨-, rfl⟩
    · rcases ht' with ⟨-, hlit⟩ | ⟨hmin', -⟩
      · exact .inl ⟨hlt, hlit⟩
      · omega
    · exact absurd (by rw [h1]) (hne _)

theorem parseFrom_eq_of_modes {fuel : Nat} (h : ∀ c length, (c, Instr.ref length 1) ∉ parseFrom xs 0 fuel cur) :
    parseFrom xs 0 fuel cur = parseFrom xs 1 fuel cur := by
  induction fuel generalizing cur with
  | zero => rfl
  | succ fuel ih =>
    by_cases hcur : cur < xs.length
    · obtain ⟨t, ht, heq⟩ := parseFrom_succ (md := 0) hcur fuel
      obtain ⟨t', ht', heq'⟩ := parseFrom_succ (md := 1) hcur fuel
      rw [heq] at h
      have hne (length : Nat) (href : t = .ref length 1) : False := h cur length (href ▸ List.mem_cons_self)
      obtain rfl : t = t' := ht.unique (ht.of_mode1 hne ht')
      rw [heq, heq', ih fun c length hmem => h c length (List.mem_cons_of_mem _ hmem)]
    · rw [parseFrom_of_le (Nat.not_lt.mp hcur), parseFrom_of_le (Nat.not_lt.mp hcur)]

end Modes

/-- Mode 1 emits no reference of distance 1. -/
theorem not_mem_parse_mode1 (xs : List Byte) (c length : Nat) : (c, Instr.ref length 1) ∉ parse xs 1#1 := by
  intro hmem
  rcases (tokensAreLegal xs 1#1 c _ hmem).2 with ⟨b, h, -⟩ | ⟨l, d, h, -, -, -, hd, -, -⟩ <;> cases h
  exact absurd hd (by decide)

/-- Settles O55: mode 1 emits no reference of distance 1, and where mode 0 emits none their tokens agree. -/
theorem modesDifferOnlyByDistanceOne : Obligations.ModesDifferOnlyByDistanceOne := by
  intro xs
  have heq (h : ∀ c length, (c, Instr.ref length 1) ∉ parse xs 0#1) : parse xs 0#1 = parse xs 1#1 :=
    parseFrom_eq_of_modes h
  refine ⟨⟨fun h c length => ?_, heq⟩, fun h => ?_⟩
  · rw [h]; exact not_mem_parse_mode1 xs c length
  · rw [outputIsHeaderAndGroups xs 0#1, outputIsHeaderAndGroups xs 1#1, heq h]

end Sys2Proof.Machine

/-! The round trip (spec/43_decoder_contract.md R140): the reference decoder on one token, one group and all groups of the
block's output, the bytes decoded being the input up to the cursor. -/

namespace Sys2Proof.Machine

/-! ## Copies of what the match finder found (R83, R137) -/

section Copies

variable {xs : List Byte} {md cur d k j : Nat}

/-- The bytes of the match found are those at its distance before the cursor. -/
theorem getElem?_eq_of_lt_matchFind (hj : j < (matchFind xs cur md).1) :
    xs[cur - (matchFind xs cur md).2 + j]? = xs[cur + j]? := by
  rcases matchFind_cases xs cur md with h | ⟨d, -, -, -, h⟩
  · rw [h] at hj
    exact absurd hj (Nat.not_lt_zero j)
  · rw [h] at hj ⊢
    exact getElem?_eq_of_lt_matchLen hj

/-- Copying the bytes that repeat at a distance gives back the input up to their end. -/
theorem copyBack_take (hd : 1 ≤ d) (hle : d ≤ cur) (hk : cur + k ≤ xs.length)
    (hmatch : ∀ j, j < k → xs[cur - d + j]? = xs[cur + j]?) : copyBack d k (xs.take cur) = xs.take (cur + k) := by
  induction k generalizing cur with
  | zero => rfl
  | succ k ih =>
    have hlen : (xs.take cur).length = cur := List.length_take_of_le (by omega)
    have hbyte : (xs.take cur)[cur - d]? = xs[cur]? := by
      rw [List.getElem?_take_of_lt (by omega)]
      exact hmatch 0 (Nat.succ_pos k)
    rw [copyBack, hlen, hbyte, ← List.take_add_one, ih (by omega) (by omega), Nat.add_right_comm, Nat.add_assoc]
    intro j hj
    have h := hmatch (j + 1) (Nat.succ_lt_succ hj)
    rwa [show cur - d + (j + 1) = cur + 1 - d + j by omega, show cur + (j + 1) = cur + 1 + j by omega] at h

end Copies

/-! ## Tokens and groups -/

section Decoding

variable {xs st rest : List Byte} {mode : BitVec 1} {cur todo k i fuel : Nat} {c : Byte} {t : Instr} {ts : List Instr}

/-- The distances of a mode are legal for the decoder of that mode (R142). -/
theorem badDistance_eq_false_of_minDist {d : Nat} (hd : Config.minDist mode + 1 ≤ d) (hle : d ≤ cur) :
    badDistance mode cur d = false := by
  refine badDistance_eq_false_iff.mpr ⟨le_trans (Nat.le_add_left 1 _) hd, hle, fun hmode h1 => ?_⟩
  subst hmode h1
  exact absurd hd (by decide)

/-- On a token of the block, the decoder moves on to the input up to the cursor after it. -/
theorem decodeTokens_tokenAt (ht : TokenAt xs (Config.minDist mode) cur t) (hcur : cur < xs.length)
    (hflag : flagOf c k = isRef t) (hst : st.drop i = encode t ++ rest) :
    decodeTokens st mode xs.length c (todo + 1) k i (xs.take cur) =
      decodeTokens st mode xs.length c todo (k + 1) (i + (encode t).length) (xs.take (cur + tokenAdvance t)) := by
  have hlen : (xs.take cur).length = cur := List.length_take_of_le hcur.le
  have hne : (xs.take cur).length ≠ xs.length := by rw [hlen]; exact hcur.ne
  rcases ht with ⟨-, b, hb, rfl⟩ | ⟨hmin, rfl⟩
  · rw [decodeTokens_lit hne hflag hst]
    change _ = decodeTokens _ _ _ _ _ _ _ (xs.take (cur + 1))
    rw [List.take_add_one, hb]
    rfl
  · obtain ⟨hwf, hleft, hd, hle⟩ := matchFind_legal hmin
    obtain ⟨hlength, hdistance⟩ := ref_of_refBytes hwf
    rw [decodeTokens_ref hne hflag hst, hlength, hdistance, hlen, badDistance_eq_false_of_minDist hd hle,
      if_neg Bool.false_ne_true, if_neg (by omega),
      copyBack_take (le_trans (Nat.le_add_left 1 _) hd) hle (by omega) fun j => getElem?_eq_of_lt_matchFind]
    rfl

/-- On the tokens of a group the decoder gives the input up to the cursor after them. -/
theorem decodeTokens_parses (h : Parses xs (Config.minDist mode) cur ts)
    (hflags : ∀ j, j < todo → flagOf c (k + j) = (ts[j]?).any isRef)
    (hst : st.drop i = (ts.take todo).flatMap encode ++ rest) :
    ∃ cur', Parses xs (Config.minDist mode) cur' (ts.drop todo) ∧
      decodeTokens st mode xs.length c todo k i (xs.take cur) =
        .ok (xs.take cur', i + ((ts.take todo).flatMap encode).length) := by
  induction todo generalizing cur k i ts with
  | zero => exact ⟨cur, h, rfl⟩
  | succ todo ih =>
    cases ts with
    | nil =>
      obtain rfl : cur = xs.length := h
      exact ⟨xs.length, rfl, decodeTokens_of_full (by rw [List.take_length])⟩
    | cons t ts =>
      obtain ⟨hcur, ht, hts⟩ := h
      rw [List.take_succ_cons, List.flatMap_cons, List.append_assoc] at hst
      obtain ⟨cur', hrest, hdecode⟩ := ih hts
        (fun j hj => by
          rw [Nat.add_right_comm, Nat.add_assoc]
          exact hflags (j + 1) (Nat.succ_lt_succ hj))
        (by rw [← List.drop_drop, hst, List.drop_left])
      refine ⟨cur', hrest, ?_⟩
      have hflag : flagOf c k = isRef t := hflags 0 (Nat.succ_pos todo)
      rw [decodeTokens_tokenAt ht hcur hflag hst, hdecode, List.take_succ_cons, List.flatMap_cons, List.length_append,
        Nat.add_assoc]

/-- Bit `7 - j` of a group's control byte flags its token `j`. -/
theorem flagOf_groupControl (ts : List Instr) {j : Nat} (hj : j < 8) :
    flagOf (groupControl 0 (ts.take 8)) j = (ts[j]?).any isRef := by
  rw [flagOf, getLsbD_groupControl _ hj, Nat.sub_zero, List.getElem?_take_of_lt hj]
  simp

theorem decodeGroups_parses_nil (h : Parses xs (Config.minDist mode) cur []) :
    decodeGroups st mode xs.length fuel i (xs.take cur) = .ok (xs, i) := by
  obtain rfl : cur = xs.length := h
  rw [List.take_length, decodeGroups_of_full rfl]

theorem groupsBytes_cons (gfuel : Nat) (t : Instr) (ts : List Instr) :
    groupsBytes (gfuel + 1) (t :: ts) = groupControl 0 ((t :: ts).take 8) ::
      (((t :: ts).take 8).flatMap encode ++ groupsBytes gfuel ((t :: ts).drop 8)) := rfl

/-- On the groups of the parse from a cursor on, the decoder gives the input and ends where they end. -/
theorem decodeGroups_parses {gfuel : Nat} (h : Parses xs (Config.minDist mode) cur ts) (hfuel : ts.length ≤ fuel)
    (hgfuel : ts.length ≤ gfuel) (hst : st.drop i = groupsBytes gfuel ts) :
    decodeGroups st mode xs.length fuel i (xs.take cur) = .ok (xs, i + (groupsBytes gfuel ts).length) := by
  induction gfuel generalizing cur fuel i ts with
  | zero =>
    obtain rfl := List.length_eq_zero_iff.mp (Nat.le_zero.mp hgfuel)
    exact decodeGroups_parses_nil h
  | succ gfuel ih =>
    cases ts with
    | nil => exact decodeGroups_parses_nil h
    | cons t ts =>
      obtain ⟨fuel, rfl⟩ := Nat.exists_eq_add_one.mpr (Nat.zero_lt_of_lt hfuel)
      have hlt : (xs.take cur).length < xs.length := (List.length_take_le _ _).trans_lt h.1
      have hleft : ((t :: ts).drop 8).length ≤ ts.length := by simp
      rw [groupsBytes_cons] at hst ⊢
      have htokens : st.drop (i + 1) = ((t :: ts).take 8).flatMap encode ++ groupsBytes gfuel ((t :: ts).drop 8) := by
        rw [← List.tail_drop, hst, List.tail_cons]
      obtain ⟨cur', hrest, hdecode⟩ := decodeTokens_parses (k := 0) h
        (fun j hj => by rw [Nat.zero_add]; exact flagOf_groupControl (t :: ts) hj) htokens
      have hgroups := ih (fuel := fuel) hrest (hleft.trans (Nat.le_of_succ_le_succ hfuel))
        (hleft.trans (Nat.le_of_succ_le_succ hgfuel)) (by rw [← List.drop_drop, htokens, List.drop_left])
      rw [decodeGroups_cons hlt hst, hdecode]
      refine hgroups.trans ?_
      rw [List.length_cons, List.length_append]
      congr 2
      omega

end Decoding

/-- Settles O51: the output as header and groups, decoded from the cursor 0 with nothing decoded yet. -/
theorem decodeInvertsCompress : Obligations.DecodeInvertsCompress := by
  intro xs mode hsize
  have hparses := parses_parse xs mode
  have hcount : ((parse xs mode).map Prod.snd).length ≤ xs.length := by
    rw [List.length_map]; exact length_parseFrom_le _
  have hheader (groups : List Byte) : decodeHeader (encode (.hdr xs.length) ++ groups) = .ok (.hdr xs.length, groups) :=
    decodeOfEncodeIsTheInstruction (.hdr xs.length) groups (decide_eq_true hsize)
  rw [outputIsHeaderAndGroups xs mode, streamBytes, decodeStream_of_header (hheader _), List.length_append]
  exact decodeGroups_parses hparses hcount (Nat.le_refl _) rfl

end Sys2Proof.Machine

/-! Exceptions (spec/60_exceptions.md R150 to R164): the engine's turn stops only for a missing input byte, the states in
which it waits, error entry, and the runs that end in ERROR. -/

namespace Sys2Proof.Machine

/-! ## The engine's turn answers (R155) -/

/-- The outcome is a next state, or the fault of an input byte the host did not supply (R172; log 3). -/
def AnswersWithInput (s : State) (o : Host.Outcome State Fault Refusal) : Prop :=
  (∃ t, o = .next t) ∨ (¬InputSupplied s ∧ o = .fault .inNoValue)

section Answers

variable {s : State}

theorem answers_of_next {o : Host.Outcome State Fault Refusal} {t : State} (h : o = .next t) : AnswersWithInput s o :=
  .inl ⟨t, h⟩

/-! ### Without the input -/

theorem inBytes_of_not_supplied {n : Nat} (hn : s.n = some n) (h : ¬InputSupplied s) :
    inBytes s.inMem n = .error .inNoValue := by
  cases hxs : inBytes s.inMem n with
  | ok xs => exact absurd ⟨xs, by rw [nVal_of_some hn]; exact hxs⟩ h
  | error f =>
    unfold inBytes at hxs
    split at hxs <;> cases hxs
    rfl

/-- A byte of a supplied input is there to be read. -/
theorem InputSupplied.read {n i : Nat} (h : InputSupplied s) (hn : s.n = some n) (hi : i < n) :
    (Mem.read s.inMem i).isSome := by
  obtain ⟨xs, hxs⟩ := h
  rw [nVal_of_some hn] at hxs
  obtain ⟨rfl, hread⟩ := inBytes_eq_ok.mp hxs
  rw [hread i hi, List.getElem?_eq_getElem hi]
  rfl

theorem execSearch_of_missing {n : Nat} {cur : BitVec 24} {mode : BitVec 1} (hn : s.n = some n)
    (hcur : s.cursor = some cur) (hmode : s.mode = some mode) (hlt : cur.toNat < n)
    (h : inBytes s.inMem n = .error .inNoValue) : execSearch s = .fault .inNoValue := by
  simp [execSearch, hn, hcur, hmode, hlt, h, bind, Except.bind, ofExcept]

theorem execEmitLit_of_missing {n : Nat} {cur : BitVec 24} (hn : s.n = some n) (hcur : s.cursor = some cur)
    (hlt : cur.toNat < n) (h : Mem.read s.inMem cur.toNat = none) : execEmitLit s = .fault .inNoValue := by
  simp [execEmitLit, inRead, hn, hcur, hlt, h, bind, Except.bind, ofExcept]

/-! ### What the invariant gives the micro-operations -/

/-- Where OUT_LEN counts a byte for each input byte and each group begun, `k` more bytes fit the granted space and
OUT_LEN: 2N + 5 bytes are at least 9N/8 + 5 (R6, R104). -/
theorem Streaming.room (h : Streaming s) {k : Nat} (hk : 8 * (s.outLen.toNat + k) ≤ 9 * s.nVal + 40) :
    (∃ cap, s.outCap = some cap ∧ s.outLen.toNat + k ≤ cap) ∧ s.outLen.toNat + k < 2 ^ 32 := by
  obtain ⟨-, hmax, ⟨cap, hcap, hreq⟩, -⟩ := h
  change s.nVal ≤ 0xFFFFFF at hmax
  change 2 * s.nVal + 5 ≤ cap at hreq
  exact ⟨⟨cap, hcap, by omega⟩, by omega⟩

/-- The registers that hold a value from HEADER on (R34). -/
theorem Streaming.registers (h : Streaming s) :
    ∃ n mode cur g, s.n = some n ∧ s.mode = some mode ∧ s.cursor = some cur ∧ s.grp = some g := by
  obtain ⟨⟨hn, hmode⟩, -, -, hcur, hgrp, -⟩ := h
  obtain ⟨n, hn⟩ := Option.isSome_iff_exists.mp hn
  obtain ⟨mode, hmode⟩ := Option.isSome_iff_exists.mp hmode
  obtain ⟨cur, hcur⟩ := Option.isSome_iff_exists.mp hcur
  obtain ⟨g, hgrp⟩ := Option.isSome_iff_exists.mp hgrp
  exact ⟨n, mode, cur, g, hn, hmode, hcur, hgrp⟩

/-- An open group's control byte stands in the written part of OUT. -/
theorem GroupOpen.control (h : GroupOpen s) (hwritten : Written s) :
    ∃ ci old, s.ctrlIdx = some ci ∧ ci.toNat < s.outLen.toNat ∧ Mem.read s.outMem ci.toNat = some old := by
  obtain ⟨hsome, -, hlt⟩ := h
  obtain ⟨ci, hci⟩ := Option.isSome_iff_exists.mp hsome
  have hval : s.ctrlVal = ci.toNat := by simp [State.ctrlVal, hci]
  rw [hval] at hlt
  obtain ⟨old, hold⟩ := Option.isSome_iff_exists.mp (hwritten _ hlt)
  exact ⟨ci, old, hci, hlt, hold⟩

/-- A match that EMIT_REF emits has a length and a distance the encoding holds (R63, R99). -/
theorem BestBound.reference (h : BestBound s) {mode : BitVec 1} (hmode : s.mode = some mode) :
    ∃ len dist, s.bestLen = some len ∧ s.bestDist = some dist ∧ len.toNat ≤ 18 ∧ dist.toNat ≤ 4096 ∧
      (1 ≤ len.toNat → 1 ≤ dist.toNat) := by
  obtain ⟨hlen, hdist, hmax, -, hmin, hwindow⟩ := h
  obtain ⟨len, hlen⟩ := Option.isSome_iff_exists.mp hlen
  obtain ⟨dist, hdist⟩ := Option.isSome_iff_exists.mp hdist
  have hval : s.bestDistVal = dist.toNat := by simp [State.bestDistVal, hdist]
  rw [bestLenVal_of_some hlen] at hmax hmin
  rw [hval] at hmin hwindow
  exact ⟨len, dist, hlen, hdist, hmax, (Nat.le_min.mp hwindow).2,
    fun h1 => (Nat.le_add_left 1 _).trans (hmin h1 mode hmode)⟩

/-! ### The micro-operations one by one -/

theorem check_answers (h : Latched s) : AnswersWithInput s (exec .check s) := by
  obtain ⟨n, hn⟩ := Option.isSome_iff_exists.mp h.1
  obtain ⟨hin, hover⟩ := checkTestsTheSize s n hn
  rcases Nat.lt_or_ge Config.maxIn n with hlt | hle
  · exact answers_of_next (hover hlt)
  · exact answers_of_next (hin hle)

theorem alloc_answers (h : Latched s) : AnswersWithInput s (exec .alloc s) := by
  obtain ⟨n, hn⟩ := Option.isSome_iff_exists.mp h.1
  obtain ⟨hgranted, hrefused⟩ := allocTakesTheAnswer s n hn
  cases halloc : s.alloc with
  | granted extra =>
    obtain ⟨t, ht, -⟩ := hgranted extra halloc
    exact answers_of_next ht
  | refused => exact answers_of_next (hrefused halloc)

theorem header_answers (h : Latched s) (hgranted : Granted s) : AnswersWithInput s (exec .header s) := by
  obtain ⟨n, hn⟩ := Option.isSome_iff_exists.mp h.1
  obtain ⟨cap, hcap, hreq⟩ := hgranted
  change 2 * s.nVal + 5 ≤ cap at hreq
  obtain ⟨t, ht, -⟩ := headerWritesFourBytes s n cap hn hcap (by omega)
  exact answers_of_next ht

theorem loop_answers (h : Streaming s) : AnswersWithInput s (exec .loop s) := by
  obtain ⟨n, -, cur, g, hn, -, hcur, hg⟩ := h.registers
  exact answers_of_next (loopChoosesThePhase s cur n g hcur hn hg)

theorem openGroup_answers (h : Streaming s) (hlt : s.cursorVal < s.nVal) (hb : OutBound s 8) :
    AnswersWithInput s (exec .openGroup s) := by
  unfold OutBound at hb
  obtain ⟨⟨cap, hcap, hroom⟩, hfits⟩ := h.room (k := 1) (by omega)
  obtain ⟨t, ht, -⟩ := openPlacesAControlByte s cap hcap hroom hfits
  exact answers_of_next ht

theorem search_answers (h : Streaming s) (hlt : s.cursorVal < s.nVal) : AnswersWithInput s (exec .search s) := by
  obtain ⟨n, mode, cur, -, hn, hmode, hcur, -⟩ := h.registers
  rw [cursorVal_of_some hcur, nVal_of_some hn] at hlt
  by_cases hin : InputSupplied s
  · obtain ⟨xs, hxs⟩ := hin
    rw [nVal_of_some hn] at hxs
    obtain ⟨len, dist, ht, -⟩ := searchLatchesMatchFind s n cur mode xs hn hcur hmode hlt hxs
    exact answers_of_next ht
  · exact .inr ⟨hin, execSearch_of_missing hn hcur hmode hlt (inBytes_of_not_supplied hn hin)⟩

theorem emitLit_answers (h : AtToken s) : AnswersWithInput s (exec .emitLit s) := by
  obtain ⟨hs, hlt, -, hb⟩ := h
  unfold OutBound at hb
  obtain ⟨⟨cap, hcap, hroom⟩, hfits⟩ := hs.room (k := 1) (by omega)
  obtain ⟨n, -, cur, -, hn, -, hcur, -⟩ := hs.registers
  obtain ⟨-, hmax, -⟩ := hs
  rw [cursorVal_of_some hcur, nVal_of_some hn] at hlt
  rw [nVal_of_some hn] at hmax
  change n ≤ 0xFFFFFF at hmax
  cases hbyte : Mem.read s.inMem cur.toNat with
  | some b =>
    obtain ⟨t, ht, -⟩ := emitLitCopiesTheInputByte s n cap cur b hn hcur hlt hbyte hcap hroom hfits (by omega)
    exact answers_of_next ht
  | none =>
    refine .inr ⟨fun hin => ?_, execEmitLit_of_missing hn hcur hlt hbyte⟩
    have hread := hin.read hn hlt
    rw [hbyte] at hread
    cases hread

theorem emitRef_answers (h : AtToken s) (hmatch : MatchBound s)
    (hlong : ∃ len, s.bestLen = some len ∧ Config.minMatch ≤ len.toNat) : AnswersWithInput s (exec .emitRef s) := by
  obtain ⟨hs, hlt, hopen, hb⟩ := h
  obtain ⟨hbest, hleft⟩ := hmatch
  obtain ⟨-, mode, cur, g, -, hmode, hcur, hg⟩ := hs.registers
  obtain ⟨len, dist, hlen, hdist, hmaxLen, hmaxDist, hminDist⟩ := hbest.reference hmode
  obtain ⟨len', hlen', hmin⟩ := hlong
  obtain rfl := Option.some.inj (hlen.symm.trans hlen')
  change 3 ≤ len.toNat at hmin
  rw [bestLenVal_of_some hlen] at hleft
  unfold OutBound at hb
  obtain ⟨⟨cap, hcap, hroom⟩, hfits⟩ := hs.room (k := 2) (by omega)
  obtain ⟨-, hmax, -, -, -, -, -, hwritten, -⟩ := hs
  change s.nVal ≤ 0xFFFFFF at hmax
  obtain ⟨ci, old, hci, hbelow, hold⟩ := hopen.control hwritten
  rw [cursorVal_of_some hcur] at hlt hleft
  obtain ⟨t, ht, -⟩ := emitRefWritesTheReference s cap len dist g ci cur old hlen hdist hg hci hcur hmin hmaxLen
    (hminDist (by omega)) hmaxDist hold hbelow hcap hroom hfits (by omega)
  exact answers_of_next ht

theorem advance_answers (h : Streaming s) : AnswersWithInput s (exec .advance s) := by
  obtain ⟨-, -, -, g, -, -, -, hg⟩ := h.registers
  obtain ⟨g', ht, -⟩ := advanceCountsModuloEight s g hg
  exact answers_of_next ht

/-! ### The turn -/

/-- In every PHASE the invariant gives the micro-operation what it needs, but for the input. -/
theorem engineFetch_answers (h : Inv s) : AnswersWithInput s (engineFetch s).outcome := by
  rcases engineFetch_cases h.phase_legal with ⟨-, hf⟩ | ⟨hp, hf⟩ | ⟨hp, hf⟩ | ⟨hp, hf⟩ | ⟨hp, hf⟩ | ⟨hp, hf⟩ |
    ⟨hp, hf⟩ | ⟨hp, hnone, hf⟩ | ⟨hp, -, hf⟩ | ⟨hp, hlong, hf⟩ | ⟨hp, hf⟩ | ⟨hp, hf⟩ <;> rw [hf]
  · exact answers_of_next rfl
  · exact check_answers (h.at_check hp)
  · exact alloc_answers (h.at_alloc hp).1
  · obtain ⟨hlatched, -, hgranted⟩ := h.at_header hp
    exact header_answers hlatched hgranted
  · exact loop_answers (h.at_loop hp).1
  · obtain ⟨hs, hlt, -, hb⟩ := h.at_open hp
    exact openGroup_answers hs hlt hb
  · obtain ⟨hs, hlt, -⟩ := h.at_search hp
    exact search_answers hs hlt
  · obtain ⟨-, ⟨hsome, -⟩, -⟩ := h.at_emit hp
    rw [hnone] at hsome
    cases hsome
  · exact emitLit_answers (h.at_emit hp).1
  · obtain ⟨htoken, hmatch⟩ := h.at_emit hp
    exact emitRef_answers htoken hmatch hlong
  · exact advance_answers (h.at_advance hp).1
  · exact answers_of_next (finishGoesToDone s)

/-- ERR never holds the reserved code (R33). -/
theorem Inv.err_ne_reserved (h : Inv s) : s.err ≠ Err.reserved := by
  by_cases hp : s.phase = Phase.error
  · obtain ⟨he | he, -⟩ := h.at_error hp <;> rw [he] <;> decide
  · rw [h.err_none hp]; decide

end Answers

/-- Settles O44: the turn taken changes nothing the invariant or the micro-operation speaks of. -/
theorem engineNeverFaults : Obligations.EngineNeverFaults := by
  intro s h hm
  have hanswers : AnswersWithInput s (step s) := by
    rw [step_of_engine h.phase_legal h.err_ne_reserved hm]
    exact engineFetch_answers (s := s.popTurn) { h with }
  rcases hanswers with hnext | ⟨hmissing, hfault⟩
  · exact ⟨fun _ => hnext, .inl hnext⟩
  · exact ⟨fun hin => absurd hin hmissing, .inr hfault⟩

/-! ## Waiting (R156, R164) -/

section Waiting

variable {s t : State}

/-- What a fetch leaves is the next state, where no instruction runs. -/
theorem Fetched.Leaves.next {P : State → Prop} {f : Fetched} (h : f.Leaves P) (hrun : ∀ i u, f ≠ .run i u)
    (ht : f.outcome = .next t) : P t := by
  cases f with
  | run i u => exact absurd rfl (hrun i u)
  | settled o =>
    change o = .next t at ht
    rw [ht] at h
    exact h

/-- Only a write to CMD makes the host's turn run an instruction. -/
theorem hostMove_ne_run {m : HostMove} (hm : ∀ b, m ≠ .wrCmd b) (i : Instr) (u : State) : hostMove m s ≠ .run i u := by
  cases m with
  | wrCmd b => exact absurd rfl (hm b)
  | _ =>
    grind [hostMove, goOn, stop, inLenWrite, inLenRead, statusRead, pollTurn, inWrite, hostOutWrite, hostOutRead,
      resultFeed]

/-- Fetching a host move changes PHASE only for reset. -/
theorem hostMove_leaves_phase {m : HostMove} (hm : m ≠ .reset) : (hostMove m s).Leaves (·.phase = s.phase) := by
  cases m with
  | wrCmd b => exact commandWrite_leaves (P := (·.phase = s.phase)) (s := s.popMove) rfl b
  | wrInLen v => exact inLenWrite_leaves rfl
  | rdCmd => trivial
  | rdInLen => exact inLenRead_leaves fun _ => rfl
  | rdStatus => exact statusRead_leaves fun _ => rfl
  | poll => exact pollTurn_leaves (fun _ => rfl) fun _ => rfl
  | wrIn i b => exact inWrite_leaves rfl
  | wrOut j b => exact hostOutWrite_leaves rfl
  | rdOut j => exact hostOutRead_leaves (fun _ => rfl) rfl
  | feedResult mode => exact resultFeed_leaves fun _ => rfl
  | reset => exact absurd rfl hm
  | wrStatus | wrOutLen | rdOutLen | answer | feed => rfl

/-- A host move that changes PHASE is reset or a command. -/
theorem hostMove_of_phase_ne {m : HostMove} (ht : (hostMove m s).outcome = .next t) (hne : t.phase ≠ s.phase) :
    m = .reset ∨ ∃ b : Byte, b.getLsbD 0 = true ∧ m = .wrCmd b := by
  by_cases hreset : m = .reset
  · exact .inl hreset
  · by_cases hcmd : ∃ b, m = .wrCmd b
    · obtain ⟨b, rfl⟩ := hcmd
      rcases commandWrite_cases b s.popMove with ⟨hb, -⟩ | ⟨-, hf⟩
      · exact .inr ⟨b, hb, rfl⟩
      · rw [hostMove, hf] at ht
        cases ht
        exact absurd rfl hne
    · have hrun := hostMove_ne_run (s := s) fun b hm => hcmd ⟨b, hm⟩
      exact absurd ((hostMove_leaves_phase hreset).next hrun ht) hne

theorem step_engine_of_waiting (h : s.phase = Phase.idle ∨ s.phase = Phase.done ∨ s.phase = Phase.error)
    (hm : s.mover = .engine) (ht : step s = .next t) : t = s.popTurn := by
  obtain ⟨hp, he⟩ := legal_of_step_next ht
  have hwaiting : s.popTurn.waiting = true := (waiting_of_phase h).2
  rw [step_of_engine hp he hm, engineFetch_waiting hwaiting] at ht
  exact (Host.Outcome.next.inj ht).symm

/-- The consumer's turn leaves PHASE as it is. -/
theorem step_consumer_phase (hm : s.mover = .consumer) (ht : step s = .next t) : t.phase = s.phase := by
  obtain ⟨hp, he⟩ := legal_of_step_next ht
  rw [step_of_consumer hp he hm] at ht
  rw [consumerFetch_sameBlock ht]
  rfl

/-- The host's turn that changes PHASE is reset or a command. -/
theorem step_host_of_phase_ne (hm : s.mover = .host) (ht : step s = .next t) (hne : t.phase ≠ s.phase) :
    ∃ ms, s.moves = .reset :: ms ∨ ∃ b : Byte, b.getLsbD 0 = true ∧ s.moves = .wrCmd b :: ms := by
  obtain ⟨hp, he⟩ := legal_of_step_next ht
  cases hmoves : s.moves with
  | nil =>
    rw [step_eq_outcome, fetch, if_neg (Nat.not_le.mpr hp), if_neg he, hm] at ht
    simp only [hostFetch, popTurn_moves, hmoves, outcome_goOn, Host.Outcome.next.injEq] at ht
    exact absurd (by rw [← ht]; rfl) hne
  | cons m ms =>
    rw [step_of_host hp he hm hmoves] at ht
    rcases hostMove_of_phase_ne ht hne with rfl | ⟨b, hb, rfl⟩
    · exact ⟨ms, .inl rfl⟩
    · exact ⟨ms, .inr ⟨b, hb, rfl⟩⟩

end Waiting

/-- Settles O9: of the three agents' turns only the host's can change PHASE. -/
theorem waitingEndsOnlyByStartOrReset : Obligations.WaitingEndsOnlyByStartOrReset := by
  refine fun s t h ht => ⟨fun hm => step_engine_of_waiting h hm ht, fun hne => ?_⟩
  cases hm : s.mover with
  | engine => exact absurd (by rw [step_engine_of_waiting h hm ht]; rfl) hne
  | host => exact ⟨rfl, step_host_of_phase_ne hm ht hne⟩
  | consumer => exact absurd (step_consumer_phase hm ht) hne

/-! ## Error entry (R153) -/

/-- START, with either mode, leaves PHASE or goes to CHECK. -/
theorem startRun_phase {mode : BitVec 1} {s t : State} (ht : ofExcept (startRun mode s) = .next t) :
    t.phase = s.phase ∨ t.phase = Phase.check := by
  obtain ⟨-, rfl⟩ | ⟨-, -, len, -, rfl⟩ := startRun_eq_ok.mp (ofExcept_next.mp ht)
  · exact .inl rfl
  · exact .inr rfl

/-- An instruction raises one of the two errors, leaves PHASE as it is, or goes to a PHASE that is not ERROR. -/
theorem exec_phase_cases {i : Instr} {s t : State} (ht : exec i s = .next t) :
    (∃ code, (code = Err.oversizedInput ∨ code = Err.allocationFailure) ∧ t = raiseError code s) ∨
      t.phase = s.phase ∨ t.phase ≠ Phase.error := by
  have start : ∀ {mode}, ofExcept (startRun mode s) = .next t → t.phase = s.phase ∨ t.phase ≠ Phase.error :=
    fun ht => (startRun_phase ht).imp_right fun hp => by rw [hp]; decide
  cases i with
  | hdr size => obtain rfl := execHdr_next.mp ht; exact .inr (.inl rfl)
  | ctrl flags => obtain rfl := execCtrl_next.mp ht; exact .inr (.inl rfl)
  | lit value => obtain ⟨-, rfl⟩ := execLit_next.mp ht; exact .inr (.inl rfl)
  | ref length distance => obtain ⟨-, -, rfl⟩ := execRef_next.mp ht; exact .inr (.inl rfl)
  | startM0 => exact .inr (start ht)
  | startM1 => exact .inr (start ht)
  | check =>
    obtain ⟨n, -, rfl⟩ := execCheck_next.mp ht
    split
    · exact .inl ⟨_, .inl rfl, rfl⟩
    · exact .inr (.inr (by simp +decide))
  | alloc =>
    obtain ⟨n, -, ⟨-, rfl⟩ | ⟨extra, -, rfl⟩⟩ := execAlloc_next.mp ht
    · exact .inl ⟨_, .inr rfl, rfl⟩
    · exact .inr (.inr (by simp +decide))
  | header => obtain ⟨n, -, -, rfl⟩ := execHeader_next.mp ht; exact .inr (.inr (by simp +decide))
  | loop =>
    obtain ⟨cur, n, -, -, ⟨-, rfl⟩ | ⟨-, g, -, rfl⟩⟩ := execLoop_next.mp ht
    · exact .inr (.inr (by simp +decide))
    · exact .inr (.inr (by split <;> simp +decide))
  | openGroup => obtain ⟨-, -, rfl⟩ := execOpenGroup_next.mp ht; exact .inr (.inr (by simp +decide))
  | search =>
    obtain ⟨n, cur, mode, xs, len, dist, -, -, -, -, -, -, -, rfl⟩ := execSearch_next.mp ht
    exact .inr (.inr (by simp +decide))
  | emitLit =>
    obtain ⟨cur, n, b, -, -, -, -, -, -, -, rfl⟩ := execEmitLit_next.mp ht
    exact .inr (.inr (by simp +decide))
  | emitRef =>
    obtain ⟨len, dist, g, ci, cur, old, -, -, -, -, -, -, -, -, -, -, rfl⟩ := execEmitRef_next.mp ht
    exact .inr (.inr (by simp +decide))
  | advance => obtain ⟨g, -, rfl⟩ := execAdvance_next.mp ht; exact .inr (.inr (by simp +decide))
  | finish => obtain rfl := execFinish_next.mp ht; exact .inr (.inr (by simp +decide))

/-- Settles O14. -/
theorem errorEntryChangesErrAndPhaseOnly : Obligations.ErrorEntryChangesErrAndPhaseOnly := by
  intro s t i ht herror hne
  rcases exec_phase_cases ht with ⟨code, hcode, rfl⟩ | hsame | hother
  · exact ⟨hcode, rfl⟩
  · exact absurd (hsame.symm.trans herror) hne
  · exact absurd herror hother

/-! ## Runs that end in ERROR (R154, R180) -/

section FailedRuns

variable {s t : State}

/-- A run is its first step and the run from there. -/
theorem core_run_succ {k : Nat} (h : step s = .next t) :
    Sys2Proof.core.run (k + 1) s = Sys2Proof.core.run k t := by
  simp only [Host.Core.run, Sys2Proof.core, h]

/-- With no turns set, a BUSY machine's step is the micro-operation of its PHASE (log 6). -/
theorem step_eq_exec_of_unscheduled {i : Instr} (hsched : s.sched = []) (hb : s.busy = true) (he : s.err = Err.none)
    (hne : s.phase ≠ Phase.emit) (hi : phaseInstr s.phase false = .ok i) : step s = exec i s := by
  have hm : s.mover = .engine := by simp only [State.mover, hsched, hb, if_true]
  have hpop : s.popTurn = s := by rw [State.popTurn, hsched, List.tail_nil, ← hsched]
  rw [step_of_engine ((busy_iff.mp hb).2.trans_lt (by decide)) (by rw [he]; decide) hm, hpop, engineFetch_run hne hi,
    outcome_run]

theorem step_of_check (hp : s.phase = Phase.check) (hsched : s.sched = []) (he : s.err = Err.none) :
    step s = exec .check s :=
  step_eq_exec_of_unscheduled hsched (by simp [State.busy, hp]) he (by rw [hp]; decide) (by rw [hp]; rfl)

theorem step_of_alloc (hp : s.phase = Phase.alloc) (hsched : s.sched = []) (he : s.err = Err.none) :
    step s = exec .alloc s :=
  step_eq_exec_of_unscheduled hsched (by simp [State.busy, hp]) he (by rw [hp]; decide) (by rw [hp]; rfl)

end FailedRuns

/-- Settles O49. -/
theorem failedRunsEndInError : Obligations.FailedRunsEndInError := by
  intro s n hp he hsched hn
  obtain ⟨hin, hover⟩ := checkTestsTheSize s n hn
  have hcheck := step_of_check hp hsched he
  refine ⟨fun hlt => core_run_succ (hcheck.trans (hover hlt)), fun hle hrefused => ?_⟩
  have halloc := step_of_alloc (s := { s with phase := Phase.alloc }) rfl hsched he
  obtain ⟨-, hfails⟩ := allocTakesTheAnswer { s with phase := Phase.alloc } n hn
  rw [core_run_succ (hcheck.trans (hin hle))]
  exact core_run_succ (halloc.trans (hfails hrefused))

end Sys2Proof.Machine

/-! Reset and hazards (spec/70_reset_and_hazards.md R170 to R181): what no micro-operation touches, reset, the result
while DONE lasts, and the engine steps that a run has left at most. -/

namespace Sys2Proof.Machine

/-! ## What every micro-operation leaves -/

/-- No micro-operation changes what START latched or the order of turns, and none goes to IDLE (R35, R178). -/
theorem exec_micro_frame {i : Instr} {s t : State} (hi : (microPhase i).isSome) (ht : exec i s = .next t) :
    t.n = s.n ∧ t.mode = s.mode ∧ t.sched = s.sched ∧ t.phase ≠ Phase.idle := by
  cases i with
  | hdr | ctrl | lit | ref | startM0 | startM1 => cases hi
  | check => obtain ⟨n, -, rfl⟩ := execCheck_next.mp ht; split <;> exact ⟨rfl, rfl, rfl, by simp +decide⟩
  | alloc =>
    obtain ⟨n, -, ⟨-, rfl⟩ | ⟨extra, -, rfl⟩⟩ := execAlloc_next.mp ht <;> exact ⟨rfl, rfl, rfl, by simp +decide⟩
  | header => obtain ⟨n, -, -, rfl⟩ := execHeader_next.mp ht; exact ⟨rfl, rfl, rfl, by simp +decide⟩
  | loop =>
    obtain ⟨cur, n, -, -, ⟨-, rfl⟩ | ⟨-, g, -, rfl⟩⟩ := execLoop_next.mp ht
    · exact ⟨rfl, rfl, rfl, by simp +decide⟩
    · split <;> exact ⟨rfl, rfl, rfl, by simp +decide⟩
  | openGroup => obtain ⟨-, -, rfl⟩ := execOpenGroup_next.mp ht; exact ⟨rfl, rfl, rfl, by simp +decide⟩
  | search =>
    obtain ⟨n, cur, mode, xs, len, dist, -, -, -, -, -, -, -, rfl⟩ := execSearch_next.mp ht
    exact ⟨rfl, rfl, rfl, by simp +decide⟩
  | emitLit =>
    obtain ⟨cur, n, b, -, -, -, -, -, -, -, rfl⟩ := execEmitLit_next.mp ht
    exact ⟨rfl, rfl, rfl, by simp +decide⟩
  | emitRef =>
    obtain ⟨len, dist, g, ci, cur, old, -, -, -, -, -, -, -, -, -, -, rfl⟩ := execEmitRef_next.mp ht
    exact ⟨rfl, rfl, rfl, by simp +decide⟩
  | advance => obtain ⟨g, -, rfl⟩ := execAdvance_next.mp ht; exact ⟨rfl, rfl, rfl, by simp +decide⟩
  | finish => obtain rfl := execFinish_next.mp ht; exact ⟨rfl, rfl, rfl, by simp +decide⟩

section Turns

variable {s t : State}

/-- The engine's turn takes the turn and leaves what START latched; it reaches IDLE from no other PHASE. -/
theorem step_engine_args (hm : s.mover = .engine) (ht : step s = .next t) :
    t.n = s.n ∧ t.mode = s.mode ∧ t.sched = s.sched.tail ∧ (t.phase = Phase.idle → s.phase = Phase.idle) := by
  rcases step_engine_cases hm ht with rfl | ⟨i, hi, hexec⟩
  · exact ⟨rfl, rfl, rfl, id⟩
  · obtain ⟨hn, hmode, hsched, hp⟩ := exec_micro_frame (by rw [hi]; rfl) hexec
    exact ⟨hn, hmode, hsched, fun hidle => absurd hidle hp⟩

/-- A host without a move lets its turn pass. -/
theorem step_of_host_without_moves (hp : s.phase.toNat < 12) (he : s.err ≠ Err.reserved) (hm : s.mover = .host)
    (hmoves : s.moves = []) : step s = .next s.popTurn := by
  rw [step_eq_outcome, fetch, if_neg (Nat.not_le.mpr hp), if_neg he, hm]
  simp only [hostFetch, popTurn_moves, hmoves, outcome_goOn]

/-- Of the host's two ways to change PHASE, a command goes to CHECK. -/
theorem step_host_to_idle (hm : s.mover = .host) (ht : step s = .next t) (hidle : t.phase = Phase.idle)
    (hne : s.phase ≠ Phase.idle) : ∃ ms, s.moves = .reset :: ms := by
  obtain ⟨ms, hreset | ⟨b, -, hmoves⟩⟩ := step_host_of_phase_ne hm ht (by rw [hidle]; exact hne.symm)
  · exact ⟨ms, hreset⟩
  · obtain ⟨hp, he⟩ := legal_of_step_next ht
    rw [step_of_host hp he hm hmoves, hostMove] at ht
    have hphase : t.phase = s.phase ∨ t.phase = Phase.check := by
      rcases commandWrite_cases b s.popTurn.popMove with ⟨-, hf | hf⟩ | ⟨-, hf⟩ <;> rw [hf] at ht
      · exact startRun_phase (s := s.popTurn.popMove) ht
      · exact startRun_phase (s := s.popTurn.popMove) ht
      · cases ht; exact .inl rfl
    rcases hphase with hsame | hcheck
    · exact absurd (hsame.symm.trans hidle) hne
    · rw [hcheck] at hidle; exact absurd hidle (by decide)

end Turns

/-! ## Reset (R170, R171) -/

/-- Settles O37. -/
theorem resetLeavesTheGivenValues : Obligations.ResetLeavesTheGivenValues := by
  refine ⟨fun s ms hp he hm hmoves => ?_, fun s t ht hidle hne => ?_⟩
  · rw [step_of_host hp he hm hmoves, hostMove, outcome_goOn, popTurn_popMove hmoves]
    rfl
  · cases hm : s.mover with
    | engine =>
      obtain ⟨-, -, -, hfrom⟩ := step_engine_args hm ht
      exact absurd (hfrom hidle) hne
    | host => exact ⟨rfl, step_host_to_idle hm ht hidle hne⟩
    | consumer => exact absurd ((step_consumer_phase hm ht).symm.trans hidle) hne

/-! ## What the host does in a run (R174, R175, R178) -/

/-- Settles O38: a turn that is not the engine's leaves the block alone or goes to IDLE, which only reset does. -/
theorem latchedArgumentsStayDuringARun : Obligations.LatchedArgumentsStayDuringARun := by
  intro s t hlo hhi ht
  by_cases hm : s.mover = .engine
  · obtain ⟨hn, hmode, -⟩ := step_engine_args hm ht
    exact .inl ⟨hn, hmode⟩
  · rcases step_sameBlock (busy_iff.mpr ⟨hlo, hhi⟩) hm ht with hsame | hidle
    · rw [hsame]; exact .inl ⟨rfl, rfl⟩
    · obtain ⟨-, hreset⟩ := resetLeavesTheGivenValues
      exact .inr (hreset s t ht hidle fun hp => by simp [hp] at hlo)

section Refused

variable {s : State} (hb : s.busy = true)
include hb

theorem inWrite_of_busy (i : Nat) (b : Byte) : inWrite i b s = .settled (.refused .hostBreaksDuty) := if_pos hb

theorem hostOutWrite_of_busy (j : Nat) (b : Byte) : hostOutWrite j b s = .settled (.refused .hostBreaksDuty) :=
  if_pos hb

theorem resultFeed_of_busy (mode : BitVec 1) : resultFeed mode s = .settled (.refused .hostBreaksDuty) :=
  if_neg fun hdone => by simp [State.busy, hdone] at hb

end Refused

/-- Settles O36. -/
theorem hostDutiesAreRefused : Obligations.HostDutiesAreRefused := by
  intro s ms j b mode he hm hlo hhi hmoves
  have hp : s.phase.toNat < 12 := hhi.trans_lt (by decide)
  have hb : s.popTurn.popMove.busy = true := busy_iff.mpr ⟨hlo, hhi⟩
  rcases hmoves with hmoves | hmoves | hmoves <;> rw [step_of_host hp he hm hmoves, hostMove]
  · rw [inWrite_of_busy hb]; rfl
  · rw [hostOutWrite_of_busy hb]; rfl
  · rw [resultFeed_of_busy hb]; rfl

/-! ## The result at DONE (R177) -/

/-- `t` has the result of `s`, unless the move `m` wrote OUT. -/
def KeepsResult (m : HostMove) (s t : State) : Prop :=
  t.outLen = s.outLen ∧ (t.outMem = s.outMem ∨ ∃ j b, m = .wrOut j b)

section Result

variable {s t : State} {m : HostMove}

theorem hostMove_leaves_result (hm : m ≠ .reset) : (hostMove m s).Leaves (KeepsResult m s) := by
  have kept : ∀ {t : State}, t.outLen = s.outLen → t.outMem = s.outMem → KeepsResult m s t :=
    fun hlen hmem => ⟨hlen, .inl hmem⟩
  cases m with
  | wrCmd b => exact commandWrite_leaves (s := s.popMove) (kept rfl rfl) b
  | wrInLen v => exact inLenWrite_leaves (kept rfl rfl)
  | rdCmd => trivial
  | rdInLen => exact inLenRead_leaves fun _ => kept rfl rfl
  | rdStatus => exact statusRead_leaves fun _ => kept rfl rfl
  | poll => exact pollTurn_leaves (fun _ => kept rfl rfl) fun _ => kept rfl rfl
  | wrIn i b => exact inWrite_leaves (kept rfl rfl)
  | wrOut j b => exact hostOutWrite_leaves ⟨rfl, .inr ⟨j, b, rfl⟩⟩
  | rdOut j => exact hostOutRead_leaves (fun _ => kept rfl rfl) (kept rfl rfl)
  | feedResult mode => exact resultFeed_leaves fun _ => kept rfl rfl
  | reset => exact absurd rfl hm
  | wrStatus | wrOutLen | rdOutLen | answer | feed => exact kept rfl rfl

/-- START takes the machine out of DONE, or it was ignored. -/
theorem startRun_to_done {mode : BitVec 1} (ht : ofExcept (startRun mode s) = .next t) (hdone : t.phase = Phase.done) :
    t = s := by
  obtain ⟨-, rfl⟩ | ⟨-, -, len, -, rfl⟩ := startRun_eq_ok.mp (ofExcept_next.mp ht)
  · rfl
  · cases hdone

/-- A move of the host that leaves the machine at DONE is no reset, and no START that is taken. -/
theorem hostMove_keepsResult (ht : (hostMove m s).outcome = .next t) (hdone : t.phase = Phase.done) :
    KeepsResult m s t := by
  by_cases hreset : m = .reset
  · subst hreset
    cases ht
    cases hdone
  · by_cases hcmd : ∃ b, m = .wrCmd b
    · obtain ⟨b, rfl⟩ := hcmd
      have hsame : t = s.popMove := by
        rcases commandWrite_cases b s.popMove with ⟨-, hf | hf⟩ | ⟨-, hf⟩ <;> rw [hostMove, hf] at ht
        · exact startRun_to_done ht hdone
        · exact startRun_to_done ht hdone
        · cases ht; rfl
      rw [hsame]
      exact ⟨rfl, .inl rfl⟩
    · exact (hostMove_leaves_result hreset).next (hostMove_ne_run fun b hm => hcmd ⟨b, hm⟩) ht

theorem step_host_keepsResult (hm : s.mover = .host) (ht : step s = .next t) (hdone : t.phase = Phase.done) :
    t.outLen = s.outLen ∧ (t.outMem = s.outMem ∨ ∃ j b ms, s.moves = .wrOut j b :: ms) := by
  obtain ⟨hp, he⟩ := legal_of_step_next ht
  cases hmoves : s.moves with
  | nil =>
    rw [step_of_host_without_moves hp he hm hmoves] at ht
    cases ht
    exact ⟨rfl, .inl rfl⟩
  | cons m ms =>
    rw [step_of_host hp he hm hmoves] at ht
    obtain ⟨hlen, hmem | ⟨j, b, rfl⟩⟩ := hostMove_keepsResult ht hdone
    · exact ⟨hlen, .inl hmem⟩
    · exact ⟨hlen, .inr ⟨j, b, ms, rfl⟩⟩

end Result

/-- Settles O39. -/
theorem resultStaysUntilStart : Obligations.ResultStaysUntilStart := by
  intro s t hp ht hdone
  cases hm : s.mover with
  | engine => rw [step_engine_of_waiting (.inr (.inl hp)) hm ht]; exact ⟨rfl, .inl rfl⟩
  | host =>
    obtain ⟨hlen, hmem⟩ := step_host_keepsResult hm ht hdone
    exact ⟨hlen, hmem.imp_right fun hout => ⟨rfl, hout⟩⟩
  | consumer =>
    obtain ⟨hlegal, he⟩ := legal_of_step_next ht
    rw [step_of_consumer hlegal he hm] at ht
    rw [consumerFetch_sameBlock ht]
    exact ⟨rfl, .inl rfl⟩

end Sys2Proof.Machine

/-! Every run ends (spec/70_reset_and_hazards.md R181): a bound on the engine steps that are left, one less after each
of them, and the run left to the engine. -/

namespace Sys2Proof.Machine

/-! ## The engine steps left at most -/

/-- How much of the input is not encoded yet. -/
def State.bytesLeft (s : State) : Nat := s.nVal - s.cursorVal

/-- The most engine steps a run can still take from its PHASE: every input byte left may be a token of its own, with
LOOP, SEARCH, EMIT and ADVANCE, and OPEN where it begins a group (R102, R180). -/
def State.stepsLeft (s : State) : Nat :=
  match s.phase.toNat with
  | 1 => 5 + 4 * s.nVal + (s.nVal + 7) / 8
  | 2 => 4 + 4 * s.nVal + (s.nVal + 7) / 8
  | 3 => 3 + 4 * s.nVal + (s.nVal + 7) / 8
  | 4 => 2 + 4 * s.bytesLeft + (s.bytesLeft + (s.grpVal + 7) % 8) / 8
  | 5 => 6 + 4 * (s.bytesLeft - 1) + (s.bytesLeft - 1) / 8
  | 6 => 5 + 4 * (s.bytesLeft - 1) + (s.bytesLeft - 1 + s.grpVal) / 8
  | 7 => 4 + 4 * (s.bytesLeft - 1) + (s.bytesLeft - 1 + s.grpVal) / 8
  | 8 => 3 + 4 * s.bytesLeft + (s.bytesLeft + s.grpVal) / 8
  | 9 => 1
  | _ => 0

section StepsLeft

variable {s t : State}

/-- The bound in a known PHASE, where it computes. -/
theorem stepsLeft_of_phase {p : BitVec 4} (hp : s.phase = p) : s.stepsLeft = { s with phase := p }.stepsLeft := by
  rw [← hp]

theorem bytesLeft_pos (h : s.cursorVal < s.nVal) : 0 < s.bytesLeft := Nat.sub_pos_of_lt h

/-- While BUSY the engine has a step to take. -/
theorem stepsLeft_pos (hb : s.busy = true) : 0 < s.stepsLeft := by
  obtain ⟨hlo, hhi⟩ := busy_iff.mp hb
  unfold State.stepsLeft
  generalize s.phase.toNat = p at hlo hhi
  interval_cases p <;> simp only <;> omega

/-- What is the host's or the consumer's does not count. -/
theorem stepsLeft_of_sameBlock (h : SameBlock s t) : t.stepsLeft = s.stepsLeft := by
  rw [h]; rfl

/-! ## One micro-operation takes one of them -/

theorem check_stepsLeft (hp : s.phase = Phase.check) (ht : exec .check s = .next t) : t.stepsLeft < s.stepsLeft := by
  rw [stepsLeft_of_phase hp]
  obtain ⟨n, -, rfl⟩ := execCheck_next.mp ht
  split
  · exact stepsLeft_pos (s := { s with phase := Phase.check }) rfl
  · change 4 + 4 * s.nVal + (s.nVal + 7) / 8 < 5 + 4 * s.nVal + (s.nVal + 7) / 8
    omega

theorem alloc_stepsLeft (hp : s.phase = Phase.alloc) (ht : exec .alloc s = .next t) : t.stepsLeft < s.stepsLeft := by
  rw [stepsLeft_of_phase hp]
  obtain ⟨n, -, ⟨-, rfl⟩ | ⟨extra, -, rfl⟩⟩ := execAlloc_next.mp ht
  · exact stepsLeft_pos (s := { s with phase := Phase.alloc }) rfl
  · change 3 + 4 * s.nVal + (s.nVal + 7) / 8 < 4 + 4 * s.nVal + (s.nVal + 7) / 8
    omega

/-- HEADER leaves the whole input to encode, with no group open. -/
theorem header_stepsLeft (hp : s.phase = Phase.header) (ht : exec .header s = .next t) : t.stepsLeft < s.stepsLeft := by
  rw [stepsLeft_of_phase hp]
  obtain ⟨n, -, -, rfl⟩ := execHeader_next.mp ht
  change 2 + 4 * s.nVal + (s.nVal + 7) / 8 < 3 + 4 * s.nVal + (s.nVal + 7) / 8
  omega

/-- LOOP goes to FINISH with nothing left, or to the next token with a byte left for it. -/
theorem loop_stepsLeft (hle : s.cursorVal ≤ s.nVal) (hp : s.phase = Phase.loop) (ht : exec .loop s = .next t) :
    t.stepsLeft < s.stepsLeft := by
  rw [stepsLeft_of_phase hp]
  change _ < 2 + 4 * s.bytesLeft + (s.bytesLeft + (s.grpVal + 7) % 8) / 8
  obtain ⟨cur, n, hcur, hn, ⟨-, rfl⟩ | ⟨hne, g, hg, rfl⟩⟩ := execLoop_next.mp ht
  · change 1 < _
    omega
  · rw [← cursorVal_of_some hcur, ← nVal_of_some hn] at hne
    have hpos := bytesLeft_pos (lt_of_le_of_ne hle hne)
    have hlt := g.isLt
    rw [grpVal_of_some hg]
    split_ifs with h0
    · subst g
      change 6 + 4 * (s.bytesLeft - 1) + (s.bytesLeft - 1) / 8 < 2 + 4 * s.bytesLeft + (s.bytesLeft + 7) / 8
      omega
    · have hg0 : g.toNat ≠ 0 := fun hzero => h0 (BitVec.eq_of_toNat_eq hzero)
      change 5 + 4 * (s.bytesLeft - 1) + (s.bytesLeft - 1 + s.grpVal) / 8 < _
      rw [grpVal_of_some hg]
      omega

theorem openGroup_stepsLeft (hg : s.grpVal = 0) (hp : s.phase = Phase.openGroup) (ht : exec .openGroup s = .next t) :
    t.stepsLeft < s.stepsLeft := by
  rw [stepsLeft_of_phase hp]
  obtain ⟨-, -, rfl⟩ := execOpenGroup_next.mp ht
  change 5 + 4 * (s.bytesLeft - 1) + (s.bytesLeft - 1 + s.grpVal) / 8 <
    6 + 4 * (s.bytesLeft - 1) + (s.bytesLeft - 1) / 8
  omega

theorem search_stepsLeft (hp : s.phase = Phase.search) (ht : exec .search s = .next t) : t.stepsLeft < s.stepsLeft := by
  rw [stepsLeft_of_phase hp]
  obtain ⟨n, cur, mode, xs, len, dist, -, -, -, -, -, -, -, rfl⟩ := execSearch_next.mp ht
  change 4 + 4 * (s.bytesLeft - 1) + (s.bytesLeft - 1 + s.grpVal) / 8 <
    5 + 4 * (s.bytesLeft - 1) + (s.bytesLeft - 1 + s.grpVal) / 8
  omega

/-- Whatever EMIT writes, it encodes at least one input byte. -/
theorem emitted_stepsLeft (hp : s.phase = Phase.emit) {ws : List (Nat × Byte)} {k adv : Nat} (hadv : 1 ≤ adv)
    (hfits : s.cursorVal + adv < 2 ^ 24) : (s.emitted ws k adv).stepsLeft < s.stepsLeft := by
  have hleft : (s.emitted ws k adv).bytesLeft ≤ s.bytesLeft - 1 := by
    have hcur : (s.emitted ws k adv).cursorVal = s.cursorVal + adv := toNat_ofNat_of_fits hfits
    rw [State.bytesLeft, State.bytesLeft, hcur]
    change s.nVal - _ ≤ _
    omega
  rw [stepsLeft_of_phase hp]
  change 3 + 4 * (s.emitted ws k adv).bytesLeft + ((s.emitted ws k adv).bytesLeft + s.grpVal) / 8 <
    4 + 4 * (s.bytesLeft - 1) + (s.bytesLeft - 1 + s.grpVal) / 8
  omega

theorem emitLit_stepsLeft (hp : s.phase = Phase.emit) (ht : exec .emitLit s = .next t) : t.stepsLeft < s.stepsLeft := by
  obtain ⟨cur, n, b, hcur, -, -, -, -, -, hfits, rfl⟩ := execEmitLit_next.mp ht
  rw [← cursorVal_of_some hcur] at hfits ⊢
  exact emitted_stepsLeft hp (ws := [(s.outLen.toNat, b)]) (k := 1) (le_refl 1) hfits

theorem emitRef_stepsLeft (hp : s.phase = Phase.emit) (ht : exec .emitRef s = .next t) : t.stepsLeft < s.stepsLeft := by
  obtain ⟨len, dist, g, ci, cur, old, -, -, -, -, hcur, hwf, -, -, -, hfits, rfl⟩ := execEmitRef_next.mp ht
  obtain ⟨hmin, -⟩ := ref_wellFormed_iff.mp hwf
  rw [← cursorVal_of_some hcur] at hfits ⊢
  exact emitted_stepsLeft hp (k := 2) ((by decide : 1 ≤ 3).trans hmin) hfits

/-- ADVANCE counts on the token's place, so that OPEN is due again after the eighth. -/
theorem advance_stepsLeft (hp : s.phase = Phase.advance) (ht : exec .advance s = .next t) :
    t.stepsLeft < s.stepsLeft := by
  rw [stepsLeft_of_phase hp]
  obtain ⟨g, hg, rfl⟩ := execAdvance_next.mp ht
  have hnext : (g + 1#3).toNat = (g.toNat + 1) % 8 := BitVec.toNat_add g 1#3
  have hlt := g.isLt
  change 2 + 4 * s.bytesLeft + (s.bytesLeft + ((g + 1#3).toNat + 7) % 8) / 8 <
    3 + 4 * s.bytesLeft + (s.bytesLeft + s.grpVal) / 8
  rw [grpVal_of_some hg]
  omega

theorem finish_stepsLeft (hp : s.phase = Phase.finish) (ht : exec .finish s = .next t) : t.stepsLeft < s.stepsLeft := by
  rw [stepsLeft_of_phase hp]
  obtain rfl := execFinish_next.mp ht
  exact Nat.zero_lt_one

/-- The engine's turn takes one of the steps that are left. -/
theorem engineFetch_stepsLeft (h : Inv s) (hb : s.busy = true) (ht : (engineFetch s).outcome = .next t) :
    t.stepsLeft < s.stepsLeft := by
  rcases engineFetch_cases h.phase_legal with ⟨hw, -⟩ | ⟨hp, hf⟩ | ⟨hp, hf⟩ | ⟨hp, hf⟩ | ⟨hp, hf⟩ | ⟨hp, hf⟩ |
    ⟨hp, hf⟩ | ⟨-, -, hf⟩ | ⟨hp, -, hf⟩ | ⟨hp, -, hf⟩ | ⟨hp, hf⟩ | ⟨hp, hf⟩
  · have hwaiting : s.phase = Phase.idle ∨ s.phase = Phase.done ∨ s.phase = Phase.error := by
      simpa [State.waiting, or_assoc] using hw
    obtain ⟨hidle, -⟩ := waiting_of_phase hwaiting
    rw [hidle] at hb
    cases hb
  all_goals rw [hf] at ht
  · exact check_stepsLeft hp ht
  · exact alloc_stepsLeft hp ht
  · exact header_stepsLeft hp ht
  · obtain ⟨⟨-, -, -, -, -, hle, -⟩, -⟩ := h.at_loop hp
    exact loop_stepsLeft hle hp ht
  · obtain ⟨-, -, hg, -⟩ := h.at_open hp
    exact openGroup_stepsLeft hg hp ht
  · exact search_stepsLeft hp ht
  · cases ht
  · exact emitLit_stepsLeft hp ht
  · exact emitRef_stepsLeft hp ht
  · exact advance_stepsLeft hp ht
  · exact finish_stepsLeft hp ht

theorem step_engine_stepsLeft (h : Inv s) (hb : s.busy = true) (hm : s.mover = .engine) (ht : step s = .next t) :
    t.stepsLeft < s.stepsLeft := by
  rw [step_of_engine h.phase_legal h.err_ne_reserved hm] at ht
  exact engineFetch_stepsLeft (s := s.popTurn) { h with } hb ht

/-- A turn in a run that is not the engine's leaves the block alone, or the run is over. -/
theorem step_sameBlock_of_busy (hb : s.busy = true) (hm : s.mover ≠ .engine) (ht : step s = .next t)
    (hb' : t.busy = true) : SameBlock s t :=
  (step_sameBlock hb hm ht).resolve_right fun hidle => by simp [State.busy, hidle] at hb'

/-- In a run each step takes one of the engine steps left if it is the engine's, and none if it is not. -/
theorem step_stepsLeft (h : Inv s) (hb : s.busy = true) (ht : step s = .next t) (hb' : t.busy = true) :
    (if s.mover = .engine then 1 else 0) + t.stepsLeft ≤ s.stepsLeft := by
  by_cases hm : s.mover = .engine
  · have hlt := step_engine_stepsLeft h hb hm ht
    rw [if_pos hm]
    omega
  · rw [if_neg hm, Nat.zero_add, stepsLeft_of_sameBlock (step_sameBlock_of_busy hb hm ht hb')]

/-- A run that goes on has had fewer engine steps than it had left. -/
theorem engineTurns_lt_stepsLeft {k : Nat} (h : Inv s) (hbusy : busyThrough k s) : engineTurns k s < s.stepsLeft := by
  induction k generalizing s with
  | zero => exact stepsLeft_pos hbusy
  | succ k ih =>
    obtain ⟨hb, t, ht, hbusy'⟩ := busyThrough_succ.mp hbusy
    obtain ⟨hinv, -⟩ := stepKeepsTheInvariant s t h ht
    have hle := step_stepsLeft h hb ht (busyThrough_busy hbusy')
    have hlt := ih hinv hbusy'
    rw [engineTurns_succ ht]
    omega

end StepsLeft

/-! ## Runs with their input -/

/-- Where a run of `n` input bytes stands, with its input supplied if CHECK lets it go on. -/
structure Supplied (n : Nat) (s : State) : Prop where
  inv : Inv s
  busy : s.busy = true
  n_eq : s.n = some n
  input : n ≤ Config.maxIn → InputSupplied s

section SuppliedRuns

variable {n : Nat} {s t : State}

/-- After CHECK the input is in range (R117). -/
theorem Inv.nVal_le_maxIn (h : Inv s) (hlo : 2 ≤ s.phase.toNat) (hhi : s.phase.toNat ≤ 10) : s.nVal ≤ Config.maxIn := by
  by_cases hstream : 4 ≤ s.phase.toNat
  · obtain ⟨⟨-, hle, -⟩, -⟩ := h.streaming hstream hhi
    exact hle
  · have hp : s.phase = Phase.alloc ∨ s.phase = Phase.header := by
      generalize s.phase = p at hlo hstream
      revert p; decide
    rcases hp with hp | hp
    · exact (h.at_alloc hp).2
    · obtain ⟨-, hle, -⟩ := h.at_header hp
      exact hle

/-- CHECK needs no input, and every PHASE after it has its input in range and supplied (R155). -/
theorem Supplied.answers (h : Supplied n s) (hm : s.mover = .engine) : ∃ t, step s = .next t := by
  obtain ⟨hlo, hhi⟩ := busy_iff.mp h.busy
  by_cases hp : s.phase = Phase.check
  · rw [step_of_engine h.inv.phase_legal h.inv.err_ne_reserved hm,
      engineFetch_run (s := s.popTurn) (i := .check) (by rw [popTurn_phase, hp]; decide)
        (by rw [popTurn_phase, hp]; rfl), outcome_run]
    exact ⟨_, execCheck_next.mpr ⟨n, h.n_eq, rfl⟩⟩
  · have hafter : 2 ≤ s.phase.toNat := Nat.lt_of_le_of_ne hlo fun hone => hp (BitVec.eq_of_toNat_eq hone.symm)
    have hle := h.inv.nVal_le_maxIn hafter (hhi.trans (by decide))
    rw [nVal_of_some h.n_eq] at hle
    obtain ⟨hnext, -⟩ := engineNeverFaults s h.inv hm
    exact hnext (h.input hle)

/-- No turn of a run changes N or the input (R40, R54, R178). -/
theorem step_keepsInput (hb : s.busy = true) (ht : step s = .next t) (hb' : t.busy = true) :
    t.n = s.n ∧ t.inMem = s.inMem := by
  by_cases hm : s.mover = .engine
  · obtain ⟨hn, -⟩ := step_engine_args hm ht
    obtain ⟨hin, -⟩ := engineOnlyReadsTheInput s t hm ht
    exact ⟨hn, hin⟩
  · rw [step_sameBlock_of_busy hb hm ht hb']
    exact ⟨rfl, rfl⟩

theorem Supplied.of_step (h : Supplied n s) (ht : step s = .next t) (hb : t.busy = true) : Supplied n t := by
  obtain ⟨hinv, -⟩ := stepKeepsTheInvariant s t h.inv ht
  obtain ⟨hn, hin⟩ := step_keepsInput h.busy ht hb
  refine ⟨hinv, hb, hn.trans h.n_eq, fun hle => ?_⟩
  rw [InputSupplied, State.nVal, hn, hin]
  exact h.input hle

theorem Supplied.of_run {k : Nat} (h : Supplied n s) (hbusy : busyThrough k s)
    (hrun : Sys2Proof.core.run k s = .next t) : Supplied n t := by
  induction k generalizing s with
  | zero =>
    obtain rfl : s = t := Host.Outcome.next.inj hrun
    exact h
  | succ k ih =>
    obtain ⟨-, u, hu, hbusy'⟩ := busyThrough_succ.mp hbusy
    rw [core_run_succ hu] at hrun
    exact ih (h.of_step hu (busyThrough_busy hbusy')) hbusy' hrun

/-- A step of the engine that ends a run reaches DONE or ERROR. -/
theorem ended_of_not_busy (hp : t.phase.toNat < 12) (hb : t.busy = false) (hidle : t.phase ≠ Phase.idle) :
    t.phase = Phase.done ∨ t.phase = Phase.error := by
  unfold State.busy at hb
  generalize t.phase = p at hp hb hidle
  revert p; decide

/-- A run left to the engine reaches DONE or ERROR within the steps it has left (R181). -/
theorem Supplied.ends {s : State} (h : Supplied n s) (hsched : s.sched = []) : ∃ k t, k ≤ s.stepsLeft ∧
    Sys2Proof.core.run k s = .next t ∧ (t.phase = Phase.done ∨ t.phase = Phase.error) := by
  have hm : s.mover = .engine := by simp only [State.mover, hsched, h.busy, if_true]
  obtain ⟨u, hu⟩ := h.answers hm
  have hlt := step_engine_stepsLeft h.inv h.busy hm hu
  obtain ⟨-, -, hsched', hidle⟩ := step_engine_args hm hu
  cases hb : u.busy with
  | true =>
    obtain ⟨k, t, hk, hrun, hend⟩ := (h.of_step hu hb).ends (by rw [hsched', hsched]; rfl)
    exact ⟨k + 1, t, by omega, by rw [core_run_succ hu]; exact hrun, hend⟩
  | false =>
    obtain ⟨hinv, -⟩ := stepKeepsTheInvariant s u h.inv hu
    have hne : s.phase ≠ Phase.idle := fun hp => by simpa [State.busy, hp] using h.busy
    exact ⟨1, u, by omega, core_run_succ hu, ended_of_not_busy hinv.phase_legal hb fun hp => hne (hidle hp)⟩
termination_by s.stepsLeft

end SuppliedRuns

/-- Settles O50: at CHECK the steps left are R181's bound. -/
theorem everyRunEnds : Obligations.EveryRunEnds := by
  intro s n hinv hp hn
  have hb : s.busy = true := by simp [State.busy, hp]
  have hleft : s.stepsLeft = 5 + 4 * n + (n + 7) / 8 := by rw [stepsLeft_of_phase hp, ← nVal_of_some hn]; rfl
  rw [← hleft]
  refine ⟨fun k hbusy => engineTurns_lt_stepsLeft hinv hbusy, fun hin => ?_⟩
  have hrun : Supplied n s := ⟨hinv, hb, hn, hin⟩
  exact ⟨fun k t hbusy ht hm => (hrun.of_run hbusy ht).answers hm, fun hsched => hrun.ends hsched⟩

end Sys2Proof.Machine
